-- ==== Sys2Proof/Word.lean ====
section
/-! DEFINITION. The widths of the XR-32 (spec/00_scope.md R5) and the bit accessors written `v[i]` there (R7). -/

namespace Sys2Proof

/-- A general register, an address or an operand: 32 bits (R5). -/
abbrev Word := BitVec 32

/-- One addressable unit of memory, and the width of `FR`, `IE0`, `IE3`, `PRR` (R5, R61). -/
abbrev Byte := BitVec 8

/-- One instruction (R100). -/
abbrev InstrWord := BitVec 64

/-- The two privilege modes (R40, R280). -/
inductive Mode where
  | user
  | supervisor
deriving DecidableEq, Repr

/-- What a memory access is for; it selects the checks of R80. -/
inductive AccessKind where
  | fetch
  | read
  | write
deriving DecidableEq, Repr

end Sys2Proof
end

