-- ==== Sys2Proof/Config.lean ====
section
/-! DEFINITION. The parameters that spec/00_scope.md R6 leaves open, at the defaults R6 names, and the values no rule fixes
(opaque: nothing in Lean can evaluate one or prove a value of it). -/

namespace Sys2Proof

/-- What the processor does to the devices, in program order (R92, R95). -/
inductive IoEvent where
  /-- `IN` read `value` from `port` (R236). -/
  | portRead (port value : Word)
  /-- `OUT` wrote `value` to `port` (R237). -/
  | portWrite (port value : Word)
  /-- A byte was read from a device window (R62). -/
  | memRead (pa : Word) (b : Byte)
  /-- A byte was written to a device window (R62). -/
  | memWrite (pa : Word) (b : Byte)
deriving DecidableEq, Repr

namespace Config

/-- `BYTE_ORDER` (R65). -/
inductive ByteOrder where
  | little
  | big
deriving DecidableEq, Repr

/-- `S1_GROWTH` (R6, R210). -/
inductive S1Growth where
  | followsG
  | down
  | up
deriving DecidableEq, Repr

/-- `SHIFT_MODE` (R6, R148). -/
inductive ShiftMode where
  | unbounded
  | masked
deriving DecidableEq, Repr

/-- `ZEXT_MODE` (R6, R171). -/
inductive ZextMode where
  | zero
  | sign
deriving DecidableEq, Repr

/-- `BYTE_ORDER`, default `little`. DESIGN CHOICE (log 1), unsafe. -/
def byteOrder : ByteOrder := .little

/-- `PAGING_ACTIVE`, default true in every state (R79). DESIGN CHOICE (log 2), unsafe. -/
def pagingAlways : Bool := true

/-- `SET_A_BIT`, default true (R85). DESIGN CHOICE (log 3), unsafe. -/
def setABit : Bool := true

/-- `S1_GROWTH`, default `follows_G` (R210). DESIGN CHOICE (log 5), unsafe. -/
def s1Growth : S1Growth := .followsG

/-- `CMP_SIGNED`, default true (R150). DESIGN CHOICE (log 6), unsafe. -/
def cmpSigned : Bool := true

/-- `DIV_SIGNED`, default true (R144). DESIGN CHOICE (log 7), unsafe. -/
def divSigned : Bool := true

/-- `SHIFT_MODE`, default `unbounded` (R148). DESIGN CHOICE (log 8), unsafe. -/
def shiftMode : ShiftMode := .unbounded

/-- `ZEXT_MODE`, default `zero` (R171). DESIGN CHOICE (log 9), unsafe. -/
def zextMode : ZextMode := .zero

/-- `IE4_REGNUM`, default none: no instruction can name `IE4` (R22, R36). DESIGN CHOICE (log 10), unsafe. -/
def ie4Regnum : Option Nat := none

/-- `IPF_CODE_MSR_WRITE`, default 0x04 (R41). DESIGN CHOICE (log 11), unsafe. -/
def ipfCodeMsrWrite : Byte := 0x04#8

/-- `HLT_WAKES_ON_INTERRUPT`, default true (R230). DESIGN CHOICE (log 20), unsafe. -/
def hltWakesOnInterrupt : Bool := true

/-- `RESET_VECTOR`; the spec gives no default (R50). DESIGN CHOICE (log 12), unsafe. -/
def resetVector : Word := 0#32

/-- The value at reset of every register whose reset value the spec leaves unspecified (R50). DESIGN CHOICE (log 13), unsafe. -/
def resetUnspecified : Word := 0#32

/-- What a physical byte that nothing has written reads as. DESIGN CHOICE (log 14), unsafe. -/
def unwrittenByte : Byte := 0#8

/-- `PRR`, constant for revision 1.0v1 (R38). -/
def prr : Byte := 0x41#8

/-- Free value: what a read of a port answers, given every device access before it (R92, log 18). -/
opaque portValue : List IoEvent → Word → Word

/-- Free value: what a byte of a device window answers, given every device access before it (R62, log 16). -/
opaque deviceByte : List IoEvent → Word → Byte

/-- Free value: whether marking the page table entry at this physical address sets its Dirty bit too, given how many
such choices came before (R85, `D_BIT_POLICY = any`, log 4). -/
opaque dirtyChoice : Nat → Word → Bool

end Config

end Sys2Proof
end

