-- ==== Sys2Proof/Syntax.lean ====
section
/-! DEFINITION. The 40 instructions of spec/30_encoding.md R120, one constructor a row of spec/opcode_table.json.
Register numbers stand as the word holds them (8 bits in `rd` and `ro`, 32 bits in the main operand, R111), because a
number outside its class is an interrupt the machine takes (R116), not a word it cannot read. An addressing mode is a
constructor of an operand type, so that a disallowed one (R108) has no term: the decoder refuses it (R123). -/

namespace Sys2Proof

/-- The main operand of `ADD` to `MOV` (R107). -/
inductive Source where
  /-- `am = 00`: the register numbered `rs`. -/
  | reg (rs : Word)
  /-- `am = 01`: the immediate. -/
  | imm (i : Word)
  /-- `am = 11`: the word at linear address `i`. -/
  | addr (i : Word)
deriving DecidableEq, Repr

/-- The main operand of `PUSH`, `KPUSH`, `SWI`, `IN`, `OUT`: register or immediate (R108). -/
inductive RegImm where
  /-- `am = 00`. -/
  | reg (rs : Word)
  /-- `am = 01`. -/
  | imm (i : Word)
deriving DecidableEq, Repr

/-- The address operand of `LDR` to `KCALL` (R106, R114). -/
inductive Target where
  /-- `am = 00`. -/
  | reg (rs : Word)
  /-- `am = 01`. -/
  | imm (i : Word)
  /-- `am = 10`. -/
  | regOff (rs : Word) (ro : BitVec 8)
  /-- `am = 11`. -/
  | immOff (i : Word) (ro : BitVec 8)
deriving DecidableEq, Repr

/-- One instruction of the XR-32 (R120). -/
inductive Instr where
  | add (rd : BitVec 8) (src : Source)
  | sub (rd : BitVec 8) (src : Source)
  | mul (rd : BitVec 8) (src : Source)
  | div (rd : BitVec 8) (src : Source)
  | and (rd : BitVec 8) (src : Source)
  | or (rd : BitVec 8) (src : Source)
  | xor (rd : BitVec 8) (src : Source)
  | lsl (rd : BitVec 8) (src : Source)
  | lsr (rd : BitVec 8) (src : Source)
  | cmp (rd : BitVec 8) (src : Source)
  | mov (rd : BitVec 8) (src : Source)
  /-- `rd` general, `rs` an 8-bit special register (R171). -/
  | zext (rd : BitVec 8) (rs : Word)
  /-- `rd` general, `rs` a 32-bit special register (R172). -/
  | mfs (rd : BitVec 8) (rs : Word)
  /-- `rd` a special register, `rs` general (R173). -/
  | mts (rd : BitVec 8) (rs : Word)
  | ldr (rd : BitVec 8) (ea : Target)
  | str (rd : BitVec 8) (ea : Target)
  | jmp (tgt : Target)
  | jar (tgt : Target)
  | beq (tgt : Target)
  | bne (tgt : Target)
  | bz (tgt : Target)
  | bnz (tgt : Target)
  | bg (tgt : Target)
  | bl (tgt : Target)
  | call (tgt : Target)
  | kcall (tgt : Target)
  | push (src : RegImm)
  | pop (rs : Word)
  | kpush (src : RegImm)
  | kpop (rs : Word)
  | swi (src : RegImm)
  | inc (rs : Word)
  | dec (rs : Word)
  | ret
  | kret
  | iret
  | nop
  | hlt
  /-- `IN` (`in` is a word of Lean's). -/
  | portIn (rd : BitVec 8) (port : RegImm)
  /-- `OUT`. -/
  | portOut (rd : BitVec 8) (port : RegImm)
deriving DecidableEq, Repr

end Sys2Proof
end

