-- ==== Sys2Proof/Decode.lean ====
section
/-! DEFINITION. Bytes to values (spec/20_memory.md R65, R66), the decoder of spec/30_encoding.md R100 to R126, and the encoder
written from the same tables. -/

namespace Sys2Proof

/-! ### Byte order -/

/-- The value of bytes listed least significant first. -/
def valueOf : List Byte → Nat
  | [] => 0
  | b :: bs => b.toNat + 256 * valueOf bs

/-- The low `n` bytes of a value, least significant first. -/
def bytesOf : Nat → Nat → List Byte
  | 0, _ => []
  | n + 1, v => BitVec.ofNat 8 v :: bytesOf n (v / 256)

/-- Turns bytes listed least significant first into bytes listed lowest address first, and back (R65, R66). -/
def inByteOrder (bs : List Byte) : List Byte :=
  match Config.byteOrder with
  | .little => bs
  | .big => bs.reverse

/-- The bytes of a 32-bit value, lowest address first (R65). -/
def wordBytes (v : Word) : List Byte := inByteOrder (bytesOf 4 v.toNat)

/-- The 32-bit value of four bytes, lowest address first (R65). -/
def wordOfBytes (bs : List Byte) : Word := BitVec.ofNat 32 (valueOf (inByteOrder bs))

/-- The bytes of an instruction, lowest address first (R66). -/
def instrBytes (w : InstrWord) : List Byte := inByteOrder (bytesOf 8 w.toNat)

/-- The instruction word of eight bytes, lowest address first (R66). -/
def instrOfBytes (bs : List Byte) : InstrWord := BitVec.ofNat 64 (valueOf (inByteOrder bs))

/-! ### Fields -/

/-- `w[63:58]` in every type (R105). -/
def opField (w : InstrWord) : BitVec 6 := w.extractLsb' 58 6

/-- `w[57:56]` in the R/I and RR/I types (R102, R103). -/
def amField (w : InstrWord) : BitVec 2 := w.extractLsb' 56 2

/-- RR/I: the destination register, bits 55:48 (R103). -/
def rriRd (w : InstrWord) : BitVec 8 := w.extractLsb' 48 8

/-- RR/I: the main operand, bits 47:16 (R103). -/
def rriMain (w : InstrWord) : Word := w.extractLsb' 16 32

/-- R/I: the main operand, bits 55:24 (R102). -/
def riMain (w : InstrWord) : Word := w.extractLsb' 24 32

/-- R/I: the register offset, bits 23:16 (R102). -/
def riRo (w : InstrWord) : BitVec 8 := w.extractLsb' 16 8

/-- R/I: the data register of `LDR` and `STR`, bits 15:8 (R102). -/
def riRd (w : InstrWord) : BitVec 8 := w.extractLsb' 8 8

/-! ### Decoding -/

/-- Why a word is no instruction. The machine takes `IOP` for the second and third (R122, R123). -/
inductive DecodeError where
  /-- Fewer than eight bytes were given; the machine always fetches eight. -/
  | truncated
  /-- The opcode is 0x00 or 0x29 to 0x3F (R122). -/
  | invalidOpcode (op : BitVec 6)
  /-- The opcode is valid and its row does not allow this `am` (R108, R123). -/
  | invalidMode (am : BitVec 2)
deriving DecidableEq, Repr

/-- `am` of `ADD` to `MOV`: 00, 01, 11 (R107, R108). -/
def decodeSource (am : BitVec 2) (main : Word) : Except DecodeError Source :=
  match am.toNat with
  | 0 => .ok (.reg main)
  | 1 => .ok (.imm main)
  | 3 => .ok (.addr main)
  | _ => .error (.invalidMode am)

/-- `am` of `PUSH`, `KPUSH`, `SWI`, `IN`, `OUT`: 00, 01 (R108). -/
def decodeRegImm (am : BitVec 2) (main : Word) : Except DecodeError RegImm :=
  match am.toNat with
  | 0 => .ok (.reg main)
  | 1 => .ok (.imm main)
  | _ => .error (.invalidMode am)

/-- `am` of `POP`, `KPOP`, `INC`, `DEC`, `ZEXT`, `MFS`, `MTS`: 00 only (R108). -/
def decodeReg (am : BitVec 2) (main : Word) : Except DecodeError Word :=
  match am.toNat with
  | 0 => .ok main
  | _ => .error (.invalidMode am)

/-- `am` of `LDR` to `KCALL`: all four (R106, R108). -/
def decodeTarget (am : BitVec 2) (main : Word) (ro : BitVec 8) : Target :=
  match am.toNat with
  | 0 => .reg main
  | 1 => .imm main
  | 2 => .regOff main ro
  | _ => .immOff main ro

/-- Steps 1 and 2 of R126: the instruction of a word, or why there is none. Reserved and unused bits are not
examined (R116, R118). -/
def decode (w : InstrWord) : Except DecodeError Instr :=
  let op := opField w
  let am := amField w
  let source := decodeSource am (rriMain w)
  let special := decodeReg am (rriMain w)
  let port := decodeRegImm am (rriMain w)
  let target := decodeTarget am (riMain w) (riRo w)
  let value := decodeRegImm am (riMain w)
  let one := decodeReg am (riMain w)
  match op.toNat with
  | 0x01 => source.map (.add (rriRd w))
  | 0x02 => source.map (.sub (rriRd w))
  | 0x03 => source.map (.mul (rriRd w))
  | 0x04 => source.map (.div (rriRd w))
  | 0x05 => source.map (.and (rriRd w))
  | 0x06 => source.map (.or (rriRd w))
  | 0x07 => source.map (.xor (rriRd w))
  | 0x08 => source.map (.lsl (rriRd w))
  | 0x09 => source.map (.lsr (rriRd w))
  | 0x0A => source.map (.cmp (rriRd w))
  | 0x0B => source.map (.mov (rriRd w))
  | 0x0C => special.map (.zext (rriRd w))
  | 0x0D => special.map (.mfs (rriRd w))
  | 0x0E => special.map (.mts (rriRd w))
  | 0x0F => .ok (.ldr (riRd w) target)
  | 0x10 => .ok (.str (riRd w) target)
  | 0x11 => .ok (.jmp target)
  | 0x12 => .ok (.jar target)
  | 0x13 => .ok (.beq target)
  | 0x14 => .ok (.bne target)
  | 0x15 => .ok (.bz target)
  | 0x16 => .ok (.bnz target)
  | 0x17 => .ok (.bg target)
  | 0x18 => .ok (.bl target)
  | 0x19 => .ok (.call target)
  | 0x1A => .ok (.kcall target)
  | 0x1B => value.map .push
  | 0x1C => one.map .pop
  | 0x1D => value.map .kpush
  | 0x1E => one.map .kpop
  | 0x1F => value.map .swi
  | 0x20 => one.map .inc
  | 0x21 => one.map .dec
  | 0x22 => .ok .ret
  | 0x23 => .ok .kret
  | 0x24 => .ok .iret
  | 0x25 => .ok .nop
  | 0x26 => .ok .hlt
  | 0x27 => port.map (.portIn (rriRd w))
  | 0x28 => port.map (.portOut (rriRd w))
  | _ => .error (.invalidOpcode op)

/-- The decoder on bytes: the first eight, lowest address first, and what is left of the list (R100). -/
def decodeBytes (bs : List Byte) : Except DecodeError (Instr × List Byte) :=
  if bs.length < 8 then .error .truncated
  else (decode (instrOfBytes (bs.take 8))).map (fun i => (i, bs.drop 8))

/-- The instruction decoded from a word the opcode table gives `nbits` bits of; every bit above them is 0. The word is
laid out in memory order and read back by the decoder. -/
def decodeTableWord (nbits w : Nat) : Option Instr :=
  match decodeBytes (instrBytes (BitVec.ofNat 64 (w % 2 ^ min nbits 64))) with
  | .ok (i, _) => some i
  | .error _ => none

/-! ### Encoding -/

/-- The opcode of each row (R120). -/
def opcodeOf : Instr → BitVec 6
  | .add _ _ => 0x01#6
  | .sub _ _ => 0x02#6
  | .mul _ _ => 0x03#6
  | .div _ _ => 0x04#6
  | .and _ _ => 0x05#6
  | .or _ _ => 0x06#6
  | .xor _ _ => 0x07#6
  | .lsl _ _ => 0x08#6
  | .lsr _ _ => 0x09#6
  | .cmp _ _ => 0x0A#6
  | .mov _ _ => 0x0B#6
  | .zext _ _ => 0x0C#6
  | .mfs _ _ => 0x0D#6
  | .mts _ _ => 0x0E#6
  | .ldr _ _ => 0x0F#6
  | .str _ _ => 0x10#6
  | .jmp _ => 0x11#6
  | .jar _ => 0x12#6
  | .beq _ => 0x13#6
  | .bne _ => 0x14#6
  | .bz _ => 0x15#6
  | .bnz _ => 0x16#6
  | .bg _ => 0x17#6
  | .bl _ => 0x18#6
  | .call _ => 0x19#6
  | .kcall _ => 0x1A#6
  | .push _ => 0x1B#6
  | .pop _ => 0x1C#6
  | .kpush _ => 0x1D#6
  | .kpop _ => 0x1E#6
  | .swi _ => 0x1F#6
  | .inc _ => 0x20#6
  | .dec _ => 0x21#6
  | .ret => 0x22#6
  | .kret => 0x23#6
  | .iret => 0x24#6
  | .nop => 0x25#6
  | .hlt => 0x26#6
  | .portIn _ _ => 0x27#6
  | .portOut _ _ => 0x28#6

/-- The RR/I layout of R103, reserved bits 0. -/
def packRri (op : BitVec 6) (am : BitVec 2) (rd : BitVec 8) (main : Word) : InstrWord :=
  op ++ am ++ rd ++ main ++ 0#16

/-- The R/I layout of R102, reserved bits 0. -/
def packRi (op : BitVec 6) (am : BitVec 2) (main : Word) (ro rd : BitVec 8) : InstrWord :=
  op ++ am ++ main ++ ro ++ rd ++ 0#8

/-- The N/A layout of R104, reserved bits 0. -/
def packNa (op : BitVec 6) : InstrWord := op ++ 0#58

def Source.mode : Source → BitVec 2
  | .reg _ => 0b00#2
  | .imm _ => 0b01#2
  | .addr _ => 0b11#2

def Source.field : Source → Word
  | .reg rs => rs
  | .imm i => i
  | .addr i => i

def RegImm.mode : RegImm → BitVec 2
  | .reg _ => 0b00#2
  | .imm _ => 0b01#2

def RegImm.field : RegImm → Word
  | .reg rs => rs
  | .imm i => i

def Target.mode : Target → BitVec 2
  | .reg _ => 0b00#2
  | .imm _ => 0b01#2
  | .regOff _ _ => 0b10#2
  | .immOff _ _ => 0b11#2

def Target.field : Target → Word
  | .reg rs => rs
  | .imm i => i
  | .regOff rs _ => rs
  | .immOff i _ => i

/-- The `ro` field; 0 where the mode does not use it. -/
def Target.offset : Target → BitVec 8
  | .reg _ => 0#8
  | .imm _ => 0#8
  | .regOff _ ro => ro
  | .immOff _ ro => ro

/-- The word of an instruction, unused and reserved bits 0 (R102 to R104, R120, R130). -/
def encode (i : Instr) : InstrWord :=
  let op := opcodeOf i
  match i with
  | .add rd src => packRri op src.mode rd src.field
  | .sub rd src => packRri op src.mode rd src.field
  | .mul rd src => packRri op src.mode rd src.field
  | .div rd src => packRri op src.mode rd src.field
  | .and rd src => packRri op src.mode rd src.field
  | .or rd src => packRri op src.mode rd src.field
  | .xor rd src => packRri op src.mode rd src.field
  | .lsl rd src => packRri op src.mode rd src.field
  | .lsr rd src => packRri op src.mode rd src.field
  | .cmp rd src => packRri op src.mode rd src.field
  | .mov rd src => packRri op src.mode rd src.field
  | .zext rd rs => packRri op 0#2 rd rs
  | .mfs rd rs => packRri op 0#2 rd rs
  | .mts rd rs => packRri op 0#2 rd rs
  | .ldr rd ea => packRi op ea.mode ea.field ea.offset rd
  | .str rd ea => packRi op ea.mode ea.field ea.offset rd
  | .jmp tgt => packRi op tgt.mode tgt.field tgt.offset 0#8
  | .jar tgt => packRi op tgt.mode tgt.field tgt.offset 0#8
  | .beq tgt => packRi op tgt.mode tgt.field tgt.offset 0#8
  | .bne tgt => packRi op tgt.mode tgt.field tgt.offset 0#8
  | .bz tgt => packRi op tgt.mode tgt.field tgt.offset 0#8
  | .bnz tgt => packRi op tgt.mode tgt.field tgt.offset 0#8
  | .bg tgt => packRi op tgt.mode tgt.field tgt.offset 0#8
  | .bl tgt => packRi op tgt.mode tgt.field tgt.offset 0#8
  | .call tgt => packRi op tgt.mode tgt.field tgt.offset 0#8
  | .kcall tgt => packRi op tgt.mode tgt.field tgt.offset 0#8
  | .push src => packRi op src.mode src.field 0#8 0#8
  | .pop rs => packRi op 0#2 rs 0#8 0#8
  | .kpush src => packRi op src.mode src.field 0#8 0#8
  | .kpop rs => packRi op 0#2 rs 0#8 0#8
  | .swi src => packRi op src.mode src.field 0#8 0#8
  | .inc rs => packRi op 0#2 rs 0#8 0#8
  | .dec rs => packRi op 0#2 rs 0#8 0#8
  | .ret => packNa op
  | .kret => packNa op
  | .iret => packNa op
  | .nop => packNa op
  | .hlt => packNa op
  | .portIn rd port => packRri op port.mode rd port.field
  | .portOut rd port => packRri op port.mode rd port.field

/-- The bits of a word that its instruction is read from: everything but the reserved and unused bits of R116 and
R118. -/
def examinedMask : Instr → InstrWord
  | .ldr _ ea => if ea.mode.getLsbD 1 then 0xFFFFFFFFFFFFFF00#64 else 0xFFFFFFFFFF00FF00#64
  | .str _ ea => if ea.mode.getLsbD 1 then 0xFFFFFFFFFFFFFF00#64 else 0xFFFFFFFFFF00FF00#64
  | .jmp tgt => targetMask tgt
  | .jar tgt => targetMask tgt
  | .beq tgt => targetMask tgt
  | .bne tgt => targetMask tgt
  | .bz tgt => targetMask tgt
  | .bnz tgt => targetMask tgt
  | .bg tgt => targetMask tgt
  | .bl tgt => targetMask tgt
  | .call tgt => targetMask tgt
  | .kcall tgt => targetMask tgt
  | .push _ => 0xFFFFFFFFFF000000#64
  | .pop _ => 0xFFFFFFFFFF000000#64
  | .kpush _ => 0xFFFFFFFFFF000000#64
  | .kpop _ => 0xFFFFFFFFFF000000#64
  | .swi _ => 0xFFFFFFFFFF000000#64
  | .inc _ => 0xFFFFFFFFFF000000#64
  | .dec _ => 0xFFFFFFFFFF000000#64
  | .ret => 0xFC00000000000000#64
  | .kret => 0xFC00000000000000#64
  | .iret => 0xFC00000000000000#64
  | .nop => 0xFC00000000000000#64
  | .hlt => 0xFC00000000000000#64
  | .add _ _ => 0xFFFFFFFFFFFF0000#64
  | .sub _ _ => 0xFFFFFFFFFFFF0000#64
  | .mul _ _ => 0xFFFFFFFFFFFF0000#64
  | .div _ _ => 0xFFFFFFFFFFFF0000#64
  | .and _ _ => 0xFFFFFFFFFFFF0000#64
  | .or _ _ => 0xFFFFFFFFFFFF0000#64
  | .xor _ _ => 0xFFFFFFFFFFFF0000#64
  | .lsl _ _ => 0xFFFFFFFFFFFF0000#64
  | .lsr _ _ => 0xFFFFFFFFFFFF0000#64
  | .cmp _ _ => 0xFFFFFFFFFFFF0000#64
  | .mov _ _ => 0xFFFFFFFFFFFF0000#64
  | .zext _ _ => 0xFFFFFFFFFFFF0000#64
  | .mfs _ _ => 0xFFFFFFFFFFFF0000#64
  | .mts _ _ => 0xFFFFFFFFFFFF0000#64
  | .portIn _ _ => 0xFFFFFFFFFFFF0000#64
  | .portOut _ _ => 0xFFFFFFFFFFFF0000#64
where
  /-- R/I without a data register: bits 63:24, and `ro` in 23:16 where `am[1]` is set. -/
  targetMask (tgt : Target) : InstrWord :=
    if tgt.mode.getLsbD 1 then 0xFFFFFFFFFFFF0000#64 else 0xFFFFFFFFFF000000#64

end Sys2Proof
end

