-- ==== Sys2Proof/Machine/State.lean ====
section
/-! DEFINITION. The state of the XR-32 (spec/10_state.md), the platform it runs on as plain data (spec/00_scope.md R6), the
reasons a step of the model can stop, and the state after reset (spec/70_reset_and_hazards.md R290). -/

namespace Sys2Proof.Machine

/-- Why a step has no next state although the machine goes on or has no defined result. The machine's own faults are
interrupts (R241), which are next states. -/
inductive Fault where
  /-- Raised by a page-table walk, a data access or a fetch that touches a physical address with no memory and no device:
  R70 gives such an access no result. Safe (log 15). -/
  | absentMemory
deriving DecidableEq, Repr

/-- Why the model has no meaning for a step. Nothing raises one: every instruction has a meaning. -/
inductive Refusal where
  /-- Raised by `exec`'s arm of an instruction that has no meaning in the model. Safe. -/
  | notModelled (mnemonic : String)
deriving DecidableEq, Repr

/-- Physical memory as (address, byte) pairs (R61, R70). -/
abbrev Memory := List Host.Cell

/-- Every listed address is above `lo`, they rise strictly, all lie in the 32-bit space, and no entry equals what an
unlisted address reads as. -/
def Memory.wfFrom : Nat → Memory → Bool
  | _, [] => true
  | lo, (a, b) :: rest => decide (lo ≤ a) && decide (a < 2 ^ 32) && (b != Config.unwrittenByte) && Memory.wfFrom (a + 1) rest

/-- The one canonical form of a memory: equal memories are equal lists. -/
def Memory.wf (m : Memory) : Bool := Memory.wfFrom 0 m

/-- `run` (R43). -/
inductive RunState where
  | running
  | halted
  | dead
deriving DecidableEq, Repr

/-- The platform, R6's open parameters as data: what is installed, what the devices will answer and present, what they
have been told, and the choices the spec leaves to the hardware. All are the model's own fields. A range is
(first, last), both inclusive. -/
structure Platform where
  /-- Physical ranges with neither memory nor device: `phys_present` is false there (R70). -/
  absent : List (Nat × Nat)
  /-- Physical ranges of memory-mapped devices (R62). -/
  devices : List (Nat × Nat)
  /-- Ports user mode may access: `io_permitted(user, port)` (R92). -/
  userPorts : List (Nat × Nat)
  /-- Answers lined up for coming port reads: (port, value) (R92). -/
  portAnswers : List (Word × Word)
  /-- Every device access so far, latest first (R95). -/
  ioLog : List IoEvent
  /-- What is presented at each coming instruction boundary, one entry a step: `ext_irq` (R240, R262). -/
  irqInputs : List (Option Word)
  /-- Dirty-bit choices lined up, one an access (R85). -/
  dirtyDraws : List Bool
  /-- How many accesses have made a Dirty-bit choice (R85). -/
  draws : Nat
deriving DecidableEq, Repr

/-- The machine. -/
structure State where
  /-- `R0` to `R31` (R20). -/
  regs : Vector Word 32
  /-- `I0`, the program counter (R24). -/
  i0 : Word
  /-- `S0` (R28). -/
  s0 : Word
  /-- `S1` (R29). -/
  s1 : Word
  /-- `FR`: C Z S V E I G T from bit 0 up (R30). -/
  fr : Byte
  /-- `IVTR` (R35). -/
  ivtr : Word
  /-- `IE0`: error code (R36). -/
  ie0 : Byte
  /-- `IE1`: saved `I0` (R36). -/
  ie1 : Word
  /-- `IE2`: saved `S0` (R36). -/
  ie2 : Word
  /-- `IE3`: saved `FR` (R36). -/
  ie3 : Byte
  /-- `IE4`: saved `MSR`; no register number (R36). -/
  ie4 : Word
  /-- `TPDR` (R37). -/
  tpdr : Word
  /-- `TSP` (R39). -/
  tsp : Word
  /-- `MSR`: bit 31 the mode (R40). -/
  msr : Word
  /-- `run` (R43). -/
  run : RunState
  /-- Physical memory (R60). -/
  mem : Memory
  /-- The platform (R6). -/
  plat : Platform
  /-- An interrupt has been entered in the step under way (R240, R264); false between steps. The model's own field
  (log 22). -/
  intTaken : Bool
deriving DecidableEq, Repr

/-- The platform at reset: everything is memory, user mode has no ports, nothing is lined up, nothing has happened
(logs 4, 15 to 19: DESIGN CHOICE, unsafe where a claim rests on it). -/
def Platform.reset : Platform :=
  { absent := [], devices := [], userPorts := [], portAnswers := [], ioLog := [], irqInputs := [], dirtyDraws := [],
    draws := 0 }

/-- The machine right after reset (R50, R290). `FR`, `MSR` and `run` are the spec's; every other register holds a value
the log names (logs 12, 13). -/
def State.reset : State :=
  { regs := Vector.replicate 32 Config.resetUnspecified
    i0 := Config.resetVector
    s0 := Config.resetUnspecified
    s1 := Config.resetUnspecified
    fr := 0x00#8
    ivtr := Config.resetUnspecified
    ie0 := Config.resetUnspecified.setWidth 8
    ie1 := Config.resetUnspecified
    ie2 := Config.resetUnspecified
    ie3 := Config.resetUnspecified.setWidth 8
    ie4 := Config.resetUnspecified
    tpdr := Config.resetUnspecified
    tsp := Config.resetUnspecified
    msr := 0x80000000#32
    run := .running
    mem := []
    plat := Platform.reset
    intTaken := false }

end Sys2Proof.Machine
end

