-- ==== Sys2Proof/Machine/Flags.lean ====
section
/-! DEFINITION. `FR` bit by bit (spec/10_state.md R30 to R34) and the result and flags of every arithmetic instruction
(spec/40_alu.md R141 to R151). Each operation takes `a = R[rd]`, `b` the operand and the old `FR`, and answers the value for
`R[rd]` and the new `FR`; operands become integers, the exact result is computed, and it is narrowed at the end. -/

namespace Sys2Proof.Machine

/-- The bits of `FR` (R30). -/
inductive Flag where
  | c | z | s | v | e | i | g | t
deriving DecidableEq, Repr

/-- The bit a flag stands in (R30). -/
def Flag.bit : Flag → Nat
  | .c => 0
  | .z => 1
  | .s => 2
  | .v => 3
  | .e => 4
  | .i => 5
  | .g => 6
  | .t => 7

/-- `FR.X` (R30). -/
def getFlag (fr : Byte) (f : Flag) : Bool := fr.getLsbD f.bit

/-- `FR.X <- v`, the other bits kept (R32). -/
def putFlag (fr : Byte) (f : Flag) (v : Bool) : Byte :=
  if v then fr ||| BitVec.twoPow 8 f.bit else fr &&& ~~~BitVec.twoPow 8 f.bit

/-- `setZ` (R32). -/
def putZ (fr : Byte) (r : Word) : Byte := putFlag fr .z (decide (r = 0#32))

/-- `setS` (R32). -/
def putS (fr : Byte) (r : Word) : Byte := putFlag fr .s r.msb

/-- A signed result that 32 bits cannot hold (R141 to R143). -/
def signedOverflow (exact : Int) : Bool := decide (exact < -(2 ^ 31)) || decide (2 ^ 31 ≤ exact)

/-- `ADD` (R141): C the carry out of bit 31, V signed overflow. -/
def addOp (a b : Word) (fr : Byte) : Word × Byte :=
  let t := a.toNat + b.toNat
  let r := BitVec.ofNat 32 t
  (r, putFlag (putS (putZ (putFlag fr .c (decide (2 ^ 32 ≤ t))) r) r) .v (signedOverflow (a.toInt + b.toInt)))

/-- `SUB` (R142): C is not written. -/
def subOp (a b : Word) (fr : Byte) : Word × Byte :=
  let t := a.toInt - b.toInt
  let r := BitVec.ofInt 32 t
  (r, putFlag (putS (putZ fr r) r) .v (signedOverflow t))

/-- `MUL` (R143): the low 32 bits; C unsigned overflow, V signed overflow. -/
def mulOp (a b : Word) (fr : Byte) : Word × Byte :=
  let t := a.toNat * b.toNat
  let r := BitVec.ofNat 32 t
  (r, putFlag (putS (putZ (putFlag fr .c (decide (2 ^ 32 ≤ t))) r) r) .v (signedOverflow (a.toInt * b.toInt)))

/-- The quotient of R144: rounded toward zero, signed or unsigned by `DIV_SIGNED`. -/
def quotient (a b : Word) : Word :=
  if Config.divSigned then BitVec.ofInt 32 (a.toInt.tdiv b.toInt) else BitVec.ofNat 32 (a.toNat / b.toNat)

/-- `DIV` (R144): by zero sets E and changes nothing else; no trap. -/
def divOp (a b : Word) (fr : Byte) : Word × Byte :=
  if b = 0#32 then (a, putFlag fr .e true)
  else
    let r := quotient a b
    (r, putS (putZ (putFlag fr .e false) r) r)

/-- `AND` (R145): Z only. -/
def andOp (a b : Word) (fr : Byte) : Word × Byte := (a &&& b, putZ fr (a &&& b))

/-- `OR` (R146): Z only. -/
def orOp (a b : Word) (fr : Byte) : Word × Byte := (a ||| b, putZ fr (a ||| b))

/-- `XOR` (R147): Z only. -/
def xorOp (a b : Word) (fr : Byte) : Word × Byte := (a ^^^ b, putZ fr (a ^^^ b))

/-- How far a shift moves: all 32 bits of the operand, or its low five (`SHIFT_MODE`, R148). -/
def shiftAmount (b : Word) : Nat :=
  match Config.shiftMode with
  | .unbounded => b.toNat
  | .masked => b.toNat % 32

/-- `LSL` (R148): C the last bit shifted out; an amount of 0 leaves C; an amount above 32 clears it. -/
def lslOp (a b : Word) (fr : Byte) : Word × Byte :=
  let n := shiftAmount b
  if n = 0 then (a, putZ fr a)
  else if n ≤ 32 then
    let r := a <<< n
    (r, putZ (putFlag fr .c (a.getLsbD (32 - n))) r)
  else (0#32, putZ (putFlag fr .c false) 0#32)

/-- `LSR` (R149): as `LSL`, to the right, zeros entering at bit 31. -/
def lsrOp (a b : Word) (fr : Byte) : Word × Byte :=
  let n := shiftAmount b
  if n = 0 then (a, putZ fr a)
  else if n ≤ 32 then
    let r := a >>> n
    (r, putZ (putFlag fr .c (a.getLsbD (n - 1))) r)
  else (0#32, putZ (putFlag fr .c false) 0#32)

/-- Is `a` less than `b` in the order of `CMP` (`CMP_SIGNED`, R150)? -/
def cmpLess (a b : Word) : Bool :=
  if Config.cmpSigned then decide (a.toInt < b.toInt) else decide (a.toNat < b.toNat)

/-- `CMP` (R150): C equal, Z either is zero, S both negative, E greater; E is kept when they are equal. -/
def cmpFlags (a b : Word) (fr : Byte) : Byte :=
  let f1 := putFlag fr .c (decide (a = b))
  let f2 := putFlag f1 .z (decide (a = 0#32) || decide (b = 0#32))
  let f3 := putFlag f2 .s (a.msb && b.msb)
  if cmpLess b a then putFlag f3 .e true else if cmpLess a b then putFlag f3 .e false else f3

/-- `MOV` (R151): the operand, with Z and S from it. -/
def movOp (_a b : Word) (fr : Byte) : Word × Byte := (b, putS (putZ fr b) b)

end Sys2Proof.Machine
end

