-- ==== Sys2Proof/WellFormed.lean ====
section
/-! DEFINITION. Which instructions name only registers of the class each field takes (spec/30_encoding.md R116;
spec/10_state.md R23, R42). An ill-formed instruction is still an instruction the machine runs: it takes `IPF(0x03)`. -/

namespace Sys2Proof

/-- A number of a general register: 0x00 to 0x1F (R22). -/
def isGprNumber (n : Nat) : Bool := decide (n < 32)

/-- Numbers of the 8-bit registers `ZEXT` can read: `FR`, `IE0`, `IE3`, `PRR` (R171). -/
def isSpecial8Number (n : Nat) : Bool := n == 0x23 || n == 0x25 || n == 0x28 || n == 0x2B

/-- Numbers of the 32-bit registers `MFS` can read (R172), `IE4` among them where it has a number (R6). -/
def isSpecial32Number (n : Nat) : Bool :=
  n == 0x21 || n == 0x22 || n == 0x24 || n == 0x26 || n == 0x27 || n == 0x29 || n == 0x2A || n == 0x2C
    || Config.ie4Regnum == some n

/-- Numbers of the registers `MTS` can write: all but `I0` and `PRR` (R173). -/
def isWritableSpecialNumber (n : Nat) : Bool :=
  isSpecial32Number n || n == 0x23 || n == 0x25 || n == 0x28

def Source.wellFormed : Source → Bool
  | .reg rs => isGprNumber rs.toNat
  | .imm _ => true
  | .addr _ => true

def RegImm.wellFormed : RegImm → Bool
  | .reg rs => isGprNumber rs.toNat
  | .imm _ => true

def Target.wellFormed : Target → Bool
  | .reg rs => isGprNumber rs.toNat
  | .imm _ => true
  | .regOff rs ro => isGprNumber rs.toNat && isGprNumber ro.toNat
  | .immOff _ ro => isGprNumber ro.toNat

/-- Every register field the instruction uses holds a number of its class (R116). -/
def Instr.wellFormed : Instr → Bool
  | .add rd src => isGprNumber rd.toNat && src.wellFormed
  | .sub rd src => isGprNumber rd.toNat && src.wellFormed
  | .mul rd src => isGprNumber rd.toNat && src.wellFormed
  | .div rd src => isGprNumber rd.toNat && src.wellFormed
  | .and rd src => isGprNumber rd.toNat && src.wellFormed
  | .or rd src => isGprNumber rd.toNat && src.wellFormed
  | .xor rd src => isGprNumber rd.toNat && src.wellFormed
  | .lsl rd src => isGprNumber rd.toNat && src.wellFormed
  | .lsr rd src => isGprNumber rd.toNat && src.wellFormed
  | .cmp rd src => isGprNumber rd.toNat && src.wellFormed
  | .mov rd src => isGprNumber rd.toNat && src.wellFormed
  | .zext rd rs => isGprNumber rd.toNat && isSpecial8Number rs.toNat
  | .mfs rd rs => isGprNumber rd.toNat && isSpecial32Number rs.toNat
  | .mts rd rs => isWritableSpecialNumber rd.toNat && isGprNumber rs.toNat
  | .ldr rd ea => isGprNumber rd.toNat && ea.wellFormed
  | .str rd ea => isGprNumber rd.toNat && ea.wellFormed
  | .jmp tgt => tgt.wellFormed
  | .jar tgt => tgt.wellFormed
  | .beq tgt => tgt.wellFormed
  | .bne tgt => tgt.wellFormed
  | .bz tgt => tgt.wellFormed
  | .bnz tgt => tgt.wellFormed
  | .bg tgt => tgt.wellFormed
  | .bl tgt => tgt.wellFormed
  | .call tgt => tgt.wellFormed
  | .kcall tgt => tgt.wellFormed
  | .push src => src.wellFormed
  | .pop rs => isGprNumber rs.toNat
  | .kpush src => src.wellFormed
  | .kpop rs => isGprNumber rs.toNat
  | .swi src => src.wellFormed
  | .inc rs => isGprNumber rs.toNat
  | .dec rs => isGprNumber rs.toNat
  | .ret => true
  | .kret => true
  | .iret => true
  | .nop => true
  | .hlt => true
  | .portIn rd port => isGprNumber rd.toNat && port.wellFormed
  | .portOut rd port => isGprNumber rd.toNat && port.wellFormed

end Sys2Proof
end

