-- ==== Sys2Proof/Machine/Ops.lean ====
section
/-! DEFINITION. The named operations over registers, physical memory and linear memory, the special registers, the stacks, the
ports, and taking and leaving an interrupt: everything the meanings of the instructions are written with. -/

namespace Sys2Proof.Machine

/-! ### Outcomes inside an instruction -/

/-- How an instruction ends before its effect: it raises an interrupt (R250: vector and error code), or the model
stops where the spec gives no result (R70). -/
inductive Stop where
  | interrupt (vector : Word) (code : Byte)
  | fault (f : Fault)
deriving DecidableEq, Repr

/-- A part of an instruction: a result, or the way it ends first. -/
abbrev Act (α : Type) := Except Stop α

/-- `raise PF(code)`: vector 1 (R243, R250). -/
def pageFault (code : Byte) : Stop := .interrupt 1#32 code

/-- `raise IPF(code)`: vector 2 (R242, R250). -/
def integrityFault (code : Byte) : Stop := .interrupt 2#32 code

/-! ### Registers and flags -/

/-- `R[n]` (R20). -/
def State.reg (s : State) (r : Fin 32) : Word := s.regs[r.val]'r.isLt

/-- `R[n] <- v` (R20, R21: no register is hardwired). -/
def State.setReg (s : State) (r : Fin 32) (v : Word) : State := { s with regs := s.regs.set r.val v r.isLt }

/-- `I0 <- v` (R24). -/
def State.setI0 (s : State) (v : Word) : State := { s with i0 := v }

/-- `S0 <- v` (R28). -/
def State.setS0 (s : State) (v : Word) : State := { s with s0 := v }

/-- `S1 <- v` (R29). -/
def State.setS1 (s : State) (v : Word) : State := { s with s1 := v }

/-- `FR <- v` (R30). -/
def State.setFr (s : State) (v : Byte) : State := { s with fr := v }

/-- `run <- v` (R43). -/
def State.setRun (s : State) (v : RunState) : State := { s with run := v }

/-- The state with another physical memory. -/
def State.setMem (s : State) (m : Memory) : State := { s with mem := m }

/-- The state with another platform. -/
def State.setPlat (s : State) (p : Platform) : State := { s with plat := p }

/-- The state with `intTaken` as given. -/
def State.setIntTaken (s : State) (v : Bool) : State := { s with intTaken := v }

/-- `FR.X` of a state (R30). -/
def State.flag (s : State) (f : Flag) : Bool := getFlag s.fr f

/-- The mode is nothing but `MSR[31]` (R40). -/
def State.mode (s : State) : Mode := if s.msr.getLsbD 31 then .supervisor else .user

/-- A register field that must name a general register (R116). -/
def gpr (n : Nat) : Act (Fin 32) :=
  if h : n < 32 then .ok ⟨n, h⟩ else .error (integrityFault 0x03#8)

/-- The check of a privileged instruction (R126 step 3, R282). -/
def requireSupervisor (s : State) : Act Unit :=
  match s.mode with
  | .supervisor => .ok ()
  | .user => .error (integrityFault 0x00#8)

/-! ### Physical memory (R70) -/

/-- The byte at a physical address; an unlisted one reads as `Config.unwrittenByte`. -/
def Memory.read : Memory → Nat → Byte
  | [], _ => Config.unwrittenByte
  | (k, b) :: rest, a => if k = a then b else Memory.read rest a

/-- A memory with the byte at `a` replaced, the canonical form kept: writing what an unlisted address reads as removes
the entry. -/
def Memory.write : Memory → Nat → Byte → Memory
  | [], a, b => if b = Config.unwrittenByte then [] else [(a, b)]
  | (k, c) :: rest, a, b =>
    if a < k then (if b = Config.unwrittenByte then (k, c) :: rest else (a, b) :: (k, c) :: rest)
    else if a = k then (if b = Config.unwrittenByte then rest else (a, b) :: rest)
    else (k, c) :: Memory.write rest a b

/-- Bytes written at consecutive physical addresses, each modulo 2^32 (R70). -/
def Memory.writeFrom : Memory → Word → List Byte → Memory
  | m, _, [] => m
  | m, pa, b :: bs => Memory.writeFrom (m.write pa.toNat b) (pa + 1#32) bs

/-- `PhysWrite32` (R70). -/
def Memory.writeWord (m : Memory) (pa : Word) (v : Word) : Memory := m.writeFrom pa (wordBytes v)

/-- `n` bytes at consecutive physical addresses, each modulo 2^32 (R70). -/
def Memory.readFrom (m : Memory) (pa : Word) : Nat → List Byte
  | 0 => []
  | n + 1 => m.read pa.toNat :: Memory.readFrom m (pa + 1#32) n

/-- `PhysRead32` (R70). -/
def Memory.readWord (m : Memory) (pa : Word) : Word := wordOfBytes (m.readFrom pa 4)

/-- The four bytes a word at `pa` stands in, modulo 2^32 (R70). -/
def wordAddrs (pa : Word) : List Nat := [pa.toNat, (pa + 1#32).toNat, (pa + 2#32).toNat, (pa + 3#32).toNat]

/-- What stands behind a physical address (R62, R70, R78). -/
inductive Region where
  | ram
  | device
  | absent
deriving DecidableEq, Repr

/-- Is the number in one of the ranges? -/
def inRanges (rs : List (Nat × Nat)) (n : Nat) : Bool := rs.any fun r => decide (r.1 ≤ n) && decide (n ≤ r.2)

/-- The platform's map (R6 `phys_present`, R62). -/
def regionOf (p : Platform) (pa : Word) : Region :=
  if inRanges p.absent pa.toNat then .absent else if inRanges p.devices pa.toNat then .device else .ram

/-- What the four bytes of a word stand on: absent if any byte is, else a device's if any byte is. -/
def entryRegion (p : Platform) (pa : Word) : Region :=
  let rs := [regionOf p pa, regionOf p (pa + 1#32), regionOf p (pa + 2#32), regionOf p (pa + 3#32)]
  if rs.contains .absent then .absent else if rs.contains .device then .device else .ram

/-- The state after the platform is told of device accesses, the latest first (R95). -/
def State.tell (s : State) (es : List IoEvent) : State := s.setPlat { s.plat with ioLog := es ++ s.plat.ioLog }

/-- The byte a present physical address answers (R62, R70): memory its byte, a device a free value (log 16). -/
def physByte (s : State) (pa : Word) : Byte :=
  match regionOf s.plat pa with
  | .device => Config.deviceByte s.plat.ioLog pa
  | .ram | .absent => s.mem.read pa.toNat

/-- The word `PhysRead32` answers where its four bytes are present (R70). -/
def physWord (s : State) (pa : Word) : Word :=
  wordOfBytes [physByte s pa, physByte s (pa + 1#32), physByte s (pa + 2#32), physByte s (pa + 3#32)]

/-- What a `PhysRead32` tells the platform, the latest first: its bytes in device windows (R62, R95, log 34). -/
def readEvents (s : State) (pa : Word) : List IoEvent :=
  ([pa + 3#32, pa + 2#32, pa + 1#32, pa].filter fun a => decide (regionOf s.plat a = .device)).map fun a =>
    .memRead a (physByte s a)

/-- `PhysRead32` (R70): the word, and the state after the platform is told; none where a byte is not present. -/
def physRead32 (s : State) (pa : Word) : Option (Word × State) :=
  match entryRegion s.plat pa with
  | .absent => none
  | .ram | .device => some (physWord s pa, s.tell (readEvents s pa))

/-- `PhysWrite8` to a present physical address (R70, R62). Every access checks first that its bytes are present. -/
def physWrite8 (s : State) (pa : Word) (b : Byte) : State :=
  match regionOf s.plat pa with
  | .ram => s.setMem (s.mem.write pa.toNat b)
  | .device => s.tell [.memWrite pa b]
  | .absent => s

/-- Bytes written at consecutive present physical addresses, each modulo 2^32 (R70). -/
def physWriteFrom (s : State) (pa : Word) : List Byte → State
  | [] => s
  | b :: bs => physWriteFrom (physWrite8 s pa b) (pa + 1#32) bs

/-- `PhysWrite32` to present physical addresses (R70). -/
def physWrite32 (s : State) (pa v : Word) : State := physWriteFrom s pa (wordBytes v)

/-- The value of a page directory or page table entry (R80). The platform is told of the read when the access is made
(`markUsed`, log 34). -/
def readEntry (s : State) (pa : Word) : Act Word :=
  match entryRegion s.plat pa with
  | .absent => .error (.fault .absentMemory)
  | .ram | .device => .ok (physWord s pa)

/-! ### Translation (R79 to R86) -/

/-- The table entries a translation used: the physical address of the page directory entry, and that of the page table
entry with its value (R80). -/
structure EntryUse where
  pdea : Word
  ptea : Word
  pte : Word
deriving DecidableEq, Repr

/-- Where a linear byte address leads: the physical address, and the table entries it was found in, if translation is
on. -/
structure Walk where
  pa : Word
  entry : Option EntryUse
deriving DecidableEq, Repr

/-- `PAGING_ACTIVE` (R79). -/
def pagingActive (_s : State) : Bool := Config.pagingAlways

/-- Bits 31:22 (R81). -/
def directoryIndex (la : Word) : BitVec 10 := la.extractLsb' 22 10

/-- Bits 21:12 (R81). -/
def tableIndex (la : Word) : BitVec 10 := la.extractLsb' 12 10

/-- Bits 11:0 (R81). -/
def pageOffset (la : Word) : BitVec 12 := la.extractLsb' 0 12

/-- The checks of R80 and R84 on a page table entry, in their order: the error code of the page fault, or none. -/
def entryFault (m : Mode) (kind : AccessKind) (pte : Word) : Option Byte :=
  if !pte.getLsbD 0 then some 0x00#8
  else if pte.getLsbD 1 || pte.getLsbD 6 then some 0x03#8
  else if decide (m = .user) && !pte.getLsbD 5 then some 0x02#8
  else if decide (kind = .write) && !pte.getLsbD 4 then some 0x01#8
  else none

/-- `Translate(la, kind)` (R80). -/
def translate (s : State) (kind : AccessKind) (la : Word) : Act Walk :=
  if pagingActive s then do
    let pdea := s.tpdr + 4#32 * (directoryIndex la).setWidth 32
    let pde ← readEntry s pdea
    let ptea := pde + 4#32 * (tableIndex la).setWidth 32
    let pte ← readEntry s ptea
    match entryFault s.mode kind pte with
    | some code => .error (pageFault code)
    | none => .ok { pa := pte.extractLsb' 12 20 ++ pageOffset la, entry := some { pdea := pdea, ptea := ptea, pte := pte } }
  else .ok { pa := la, entry := none }

/-- The translations of `n` consecutive bytes, in ascending order, modulo 2^32 (R72, R73, R76): the first that faults
ends the access. -/
def translateFrom (s : State) (kind : AccessKind) (la : Word) : Nat → Act (List Walk)
  | 0 => .ok []
  | n + 1 => do
    let w ← translate s kind la
    let ws ← translateFrom s kind (la + 1#32) n
    .ok (w :: ws)

/-- The choice whether an access sets the Dirty bit of the entry at `ptea` (R85, `D_BIT_POLICY = any`): the platform's
next one, or a free value (log 4). -/
def dirtyChoice (p : Platform) (ptea : Word) : Bool :=
  match p.dirtyDraws with
  | d :: _ => d
  | [] => Config.dirtyChoice p.draws ptea

/-- The value an access leaves in an entry it used: A (bit 10) set, D (bit 11) kept if set and otherwise open, no bit
ever cleared (R85). -/
def usedEntry (p : Platform) (ptea pte : Word) : Word :=
  if pte.getLsbD 11 then pte ||| 0x400#32
  else if dirtyChoice p ptea then pte ||| 0xC00#32 else pte ||| 0x400#32

/-- The table entries the walks used, each once: the bytes of one page are one translation in effect (R72). -/
def usedEntries (ws : List Walk) : List EntryUse := (ws.filterMap Walk.entry).dedup

/-- What the walks told the platform, the latest first: their reads of directory and table entries in device windows
(R62, R80, R95, log 34). -/
def tableReads (s : State) : List EntryUse → List IoEvent
  | [] => []
  | e :: es => tableReads s es ++ (readEvents s e.ptea ++ readEvents s e.pdea)

/-- The page table entries written back marked, in order (R85). -/
def markEntries (p : Platform) : List EntryUse → State → State
  | [], s => s
  | e :: es, s => markEntries p es (physWrite32 s e.ptea (usedEntry p e.ptea e.pte))

/-- The platform after an access: one Dirty-bit choice spent. -/
def Platform.spendDraw (p : Platform) : Platform := { p with dirtyDraws := p.dirtyDraws.tail, draws := p.draws + 1 }

/-- The state once the translations of an access have all succeeded: the platform has been told of their reads, and "the
Accessed-bit updates of the n translations" are applied (R72, R85, `SET_A_BIT`). -/
def markUsed (ws : List Walk) (s : State) : State :=
  let told := s.tell (tableReads s (usedEntries ws))
  if Config.setABit then
    let marked := markEntries s.plat (usedEntries ws) told
    marked.setPlat marked.plat.spendDraw
  else told

/-! ### Linear memory (R72 to R74) -/

/-- `PhysRead8` of an access (R70, R62). -/
def readByte (s : State) (pa : Word) : Act (Byte × State) :=
  match regionOf s.plat pa with
  | .ram => .ok (physByte s pa, s)
  | .device => .ok (physByte s pa, s.tell [.memRead pa (physByte s pa)])
  | .absent => .error (.fault .absentMemory)

/-- `PhysWrite8` of an access (R70, R62). -/
def writeByte (s : State) (pa : Word) (b : Byte) : Act State :=
  match regionOf s.plat pa with
  | .ram | .device => .ok (physWrite8 s pa b)
  | .absent => .error (.fault .absentMemory)

/-- The bytes behind the walks, in order. -/
def readWalks : List Walk → State → Act (List Byte × State)
  | [], s => .ok ([], s)
  | w :: ws, s => do
    let r ← readByte s w.pa
    let rs ← readWalks ws r.2
    .ok (r.1 :: rs.1, rs.2)

/-- The bytes written behind the walks, in order. -/
def writeWalks : List Walk → List Byte → State → Act State
  | w :: ws, b :: bs, s => do
    let t ← writeByte s w.pa b
    writeWalks ws bs t
  | _, _, s => .ok s

/-- `MemRead` and `MemFetch` as bytes (R72, R74): every translation, then the Accessed bits, then the bytes. -/
def readBytes (s : State) (kind : AccessKind) (la : Word) (n : Nat) : Act (List Byte × State) := do
  let ws ← translateFrom s kind la n
  readWalks ws (markUsed ws s)

/-- `MemRead(addr, 4)` (R72). -/
def memRead (s : State) (la : Word) : Act (Word × State) := do
  let r ← readBytes s .read la 4
  .ok (wordOfBytes r.1, r.2)

/-- `MemWrite(addr, 4, v)` (R73). -/
def memWrite (s : State) (la : Word) (v : Word) : Act State := do
  let ws ← translateFrom s .write la 4
  writeWalks ws (wordBytes v) (markUsed ws s)

/-- `MemFetch(addr)` (R74). -/
def memFetch (s : State) (la : Word) : Act (InstrWord × State) := do
  let r ← readBytes s .fetch la 8
  .ok (instrOfBytes r.1, r.2)

/-! ### Stacks (R210) -/

/-- The two stack pointers. -/
inductive StackPtr where
  /-- `S0`, the user stack. -/
  | user
  /-- `S1`, the kernel stack. -/
  | kernel
deriving DecidableEq, Repr

/-- The pointer's value. -/
def State.sp (s : State) : StackPtr → Word
  | .user => s.s0
  | .kernel => s.s1

/-- The pointer written. -/
def State.setSp (s : State) (p : StackPtr) (v : Word) : State :=
  match p with
  | .user => s.setS0 v
  | .kernel => s.setS1 v

/-- Does the stack grow downward? `FR.G` for `S0`; for `S1` as `S1_GROWTH` says (R210). -/
def growsDown (s : State) (p : StackPtr) : Bool :=
  match p with
  | .user => s.flag .g
  | .kernel =>
    match Config.s1Growth with
    | .followsG => s.flag .g
    | .down => true
    | .up => false

/-- Where a push puts its element: the pointer moves first (R210). -/
def pushAddr (s : State) (p : StackPtr) : Word := if growsDown s p then s.sp p - 4#32 else s.sp p + 4#32

/-- The pointer after a pop (R210). -/
def popNext (s : State) (p : StackPtr) : Word := if growsDown s p then s.sp p + 4#32 else s.sp p - 4#32

/-- `push(SP, v)` (R210). -/
def push (s : State) (p : StackPtr) (v : Word) : Act State := do
  let t ← memWrite s (pushAddr s p) v
  .ok (t.setSp p (pushAddr s p))

/-- `pop(SP)` (R210). -/
def pop (s : State) (p : StackPtr) : Act (Word × State) := do
  let r ← memRead s (s.sp p)
  .ok (r.1, r.2.setSp p (popNext s p))

/-! ### Special registers (R22, R42) -/

/-- The special registers. -/
inductive SpecialReg where
  | i0 | s0 | s1 | fr | ivtr | ie0 | ie1 | ie2 | ie3 | ie4 | tpdr | tsp | prr | msr
deriving DecidableEq, Repr

/-- The register a number names (R22); `IE4` only where `IE4_REGNUM` gives it one. -/
def specialOfNumber (n : Nat) : Option SpecialReg :=
  match n with
  | 0x20 => some .i0
  | 0x21 => some .s0
  | 0x22 => some .s1
  | 0x23 => some .fr
  | 0x24 => some .ivtr
  | 0x25 => some .ie0
  | 0x26 => some .ie1
  | 0x27 => some .ie2
  | 0x28 => some .ie3
  | 0x29 => some .tpdr
  | 0x2A => some .tsp
  | 0x2B => some .prr
  | 0x2C => some .msr
  | _ => if Config.ie4Regnum = some n then some .ie4 else none

/-- The 8-bit registers, which `ZEXT` reads (R42, R171); `PRR` is hard-wired (R38). -/
def readSpecial8 (s : State) : SpecialReg → Option Byte
  | .fr => some s.fr
  | .ie0 => some s.ie0
  | .ie3 => some s.ie3
  | .prr => some Config.prr
  | .i0 | .s0 | .s1 | .ivtr | .ie1 | .ie2 | .ie4 | .tpdr | .tsp | .msr => none

/-- The 32-bit registers, which `MFS` reads; `I0` is not to be named (R26, R42, R172). -/
def readSpecial32 (s : State) : SpecialReg → Option Word
  | .s0 => some s.s0
  | .s1 => some s.s1
  | .ivtr => some s.ivtr
  | .ie1 => some s.ie1
  | .ie2 => some s.ie2
  | .ie4 => some s.ie4
  | .tpdr => some s.tpdr
  | .tsp => some s.tsp
  | .msr => some s.msr
  | .i0 | .fr | .ie0 | .ie3 | .prr => none

/-- The write of `MTS` (R42, R173): an 8-bit register takes the low 8 bits; `I0` and `PRR` are not to be written. -/
def writeSpecial (s : State) (r : SpecialReg) (v : Word) : Option State :=
  match r with
  | .s0 => some { s with s0 := v }
  | .s1 => some { s with s1 := v }
  | .fr => some { s with fr := v.setWidth 8 }
  | .ivtr => some { s with ivtr := v }
  | .ie0 => some { s with ie0 := v.setWidth 8 }
  | .ie1 => some { s with ie1 := v }
  | .ie2 => some { s with ie2 := v }
  | .ie3 => some { s with ie3 := v.setWidth 8 }
  | .ie4 => some { s with ie4 := v }
  | .tpdr => some { s with tpdr := v }
  | .tsp => some { s with tsp := v }
  | .msr => some { s with msr := v }
  | .i0 | .prr => none

/-- May user mode read it? `S0` and `MSR` by `MFS`, `FR` and `PRR` by `ZEXT` (R42). -/
def userReads : SpecialReg → Bool
  | .s0 | .msr | .fr | .prr => true
  | .i0 | .s1 | .ivtr | .ie0 | .ie1 | .ie2 | .ie3 | .ie4 | .tpdr | .tsp => false

/-- What a user-mode `MTS` to the register raises, if anything: only `S0` may be written (R42, R173). -/
def userWriteFault : SpecialReg → Option Byte
  | .s0 => none
  | .msr => some Config.ipfCodeMsrWrite
  | .i0 | .s1 | .fr | .ivtr | .ie0 | .ie1 | .ie2 | .ie3 | .ie4 | .tpdr | .tsp | .prr => some 0x04#8

/-- The extension `ZEXT` performs (`ZEXT_MODE`, R171). -/
def zextByte (b : Byte) : Word :=
  match Config.zextMode with
  | .zero => b.setWidth 32
  | .sign => b.signExtend 32

/-- What `ZEXT` reads: the class of the field first, then the mode's right to it (R126 steps 4 and 5, R171). -/
def readForZext (s : State) (n : Nat) : Act Byte :=
  match specialOfNumber n with
  | none => .error (integrityFault 0x03#8)
  | some r =>
    match readSpecial8 s r with
    | none => .error (integrityFault 0x03#8)
    | some b => if decide (s.mode = .user) && !userReads r then .error (integrityFault 0x03#8) else .ok b

/-- What `MFS` reads (R126 steps 4 and 5, R172). -/
def readForMfs (s : State) (n : Nat) : Act Word :=
  match specialOfNumber n with
  | none => .error (integrityFault 0x03#8)
  | some r =>
    match readSpecial32 s r with
    | none => .error (integrityFault 0x03#8)
    | some v => if decide (s.mode = .user) && !userReads r then .error (integrityFault 0x03#8) else .ok v

/-- What `MTS` does: both fields' classes first, then the mode's right to the destination (R126 steps 4 and 5,
R173). -/
def moveToSpecial (s : State) (rd rs : Nat) : Act State :=
  match specialOfNumber rd with
  | none => .error (integrityFault 0x03#8)
  | some r => do
    let g ← gpr rs
    match writeSpecial s r (s.reg g) with
    | none => .error (integrityFault 0x03#8)
    | some t =>
      match s.mode, userWriteFault r with
      | .user, some code => .error (integrityFault code)
      | _, _ => .ok t

/-! ### Ports (R90, R92) -/

/-- `io_permitted(mode, port)`: always in supervisor mode; in user mode as the platform says (R92). -/
def ioPermitted (s : State) (port : Word) : Bool :=
  match s.mode with
  | .supervisor => true
  | .user => inRanges s.plat.userPorts port.toNat

/-- The check of R126 step 6. -/
def requirePort (s : State) (port : Word) : Act Unit :=
  if ioPermitted s port then .ok () else .error (integrityFault 0x01#8)

/-- The first answer lined up for a port. -/
def findAnswer : List (Word × Word) → Word → Option Word
  | [], _ => none
  | (p, v) :: rest, port => if p = port then some v else findAnswer rest port

/-- The answers with the first one for the port taken out. -/
def dropAnswer : List (Word × Word) → Word → List (Word × Word)
  | [], _ => []
  | (p, v) :: rest, port => if p = port then rest else (p, v) :: dropAnswer rest port

/-- The value a port read answers: the platform's, or a free value where none is lined up (R92, log 18). -/
def portAnswer (p : Platform) (port : Word) : Word := (findAnswer p.portAnswers port).getD (Config.portValue p.ioLog port)

/-- `PortRead(p)` (R92): the value, and the state after the platform has answered. -/
def portRead (s : State) (port : Word) : Word × State :=
  let v := portAnswer s.plat port
  (v, s.setPlat { s.plat with portAnswers := dropAnswer s.plat.portAnswers port, ioLog := .portRead port v :: s.plat.ioLog })

/-- `PortWrite(p, v)` (R92): the platform is told. -/
def portWrite (s : State) (port v : Word) : State := s.tell [.portWrite port v]

/-! ### Taking an interrupt (R250 to R256) and returning from one (R228) -/

/-- Steps 1 and 2 of entry: the context saved, `FR` and `MSR` at their defaults, the processor running (R250). -/
def saveContext (code : Byte) (s : State) : State :=
  { s with
    ie0 := code, ie1 := s.i0, ie2 := s.s0, ie3 := s.fr, ie4 := s.msr, fr := 0x00#8, msr := 0x80000000#32, run := .running,
    intTaken := true }

/-- `raise NMI(code)`, a failed delivery (R256): `IE1` to `IE4` keep the first entry's values; where vector 3 cannot be
delivered either, the processor is dead. The entry is read once (log 37). -/
def raiseNmi (code : Byte) (s : State) : Host.Outcome State Fault Refusal :=
  let t := { s with ie0 := code }
  match physRead32 t (t.ivtr + 12#32) with
  | none => .next (t.setRun .dead)
  | some (isr, u) => if isr = 0#32 then .next (u.setRun .dead) else .next (u.setI0 isr)

/-- `deliver(n)` (R255): the entry's address is physical, not translated; any present entry is read, a device's too
(R62, R70). -/
def deliver (n : Word) (s : State) : Host.Outcome State Fault Refusal :=
  match physRead32 s (s.ivtr + 4#32 * n) with
  | none => raiseNmi 0x00#8 s
  | some (isr, u) => if isr = 0#32 then raiseNmi 0x01#8 u else .next (u.setI0 isr)

/-- `enter(n, c)` (R250). -/
def enter (n : Word) (code : Byte) (s : State) : Host.Outcome State Fault Refusal := deliver n (saveContext code s)

/-- What `IRET` restores (R228, R272). -/
def restoreContext (s : State) : State := { s with s0 := s.ie2, fr := s.ie3, msr := s.ie4, i0 := s.ie1 }

/-- The end of an instruction that began in `s`: its effect, or the interrupt it raised. An interrupt is entered from
`s` itself, so the instruction has written nothing (R253). -/
def finish (s : State) (r : Act State) : Host.Outcome State Fault Refusal :=
  match r with
  | .ok t => .next t
  | .error (.interrupt n code) => enter n code s
  | .error (.fault f) => .fault f

end Sys2Proof.Machine
end

