-- ==== Sys2Proof/Machine/Cycle.lean ====
section
/-! DEFINITION. The frame every instruction runs inside (spec/60_exceptions.md R240, R262, R264), and what a loader puts in memory
(spec/70_reset_and_hazards.md R291). `run` stands for the dispatch of an instruction to its meaning. -/

namespace Sys2Proof.Machine

/-- What the platform presents at this boundary (R240, `irq`). -/
def presentedIrq (s : State) : Option Word := s.plat.irqInputs.head?.join

/-- The state once the boundary's input has been looked at and no interrupt has been entered yet. -/
def beginStep (s : State) : State :=
  (s.setPlat { s.plat with irqInputs := s.plat.irqInputs.tail }).setIntTaken false

/-- Is what is presented taken now (R240, R262, `HLT_WAKES_ON_INTERRUPT`)? -/
def acceptedIrq (irq : Option Word) (s : State) : Option Word :=
  if s.flag .i && (decide (s.run = .running) || Config.hltWakesOnInterrupt) then irq else none

/-- The state between two steps holds no trace of the entry. -/
def closeStep (o : Host.Outcome State Fault Refusal) : Host.Outcome State Fault Refusal :=
  match o with
  | .next s => .next (s.setIntTaken false)
  | .fault f => .fault f
  | .refused r => .refused r

/-- `BRK` after an instruction that began with T set and entered no interrupt (R264). -/
def trapAfter (t : Bool) (o : Host.Outcome State Fault Refusal) : Host.Outcome State Fault Refusal :=
  match o with
  | .next s => if t && !s.intTaken then enter 4#32 0x00#8 s else .next s
  | .fault f => .fault f
  | .refused r => .refused r

/-- `I0 <- (A + 8) mod 2^32` (R25). -/
def advance (s : State) : State := s.setI0 (s.i0 + 8#32)

/-- Fetch, advance, decode, execute, trap (R240). `IOP` is taken after the fetch, so with `I0` advanced (R122). -/
def fetchExecute (run : Instr → State → Host.Outcome State Fault Refusal) (s : State) : Host.Outcome State Fault Refusal :=
  match memFetch s s.i0 with
  | .error e => finish s (.error e)
  | .ok (w, u) =>
    match decode w with
    | .error _ => enter 0#32 0x00#8 (advance u)
    | .ok i => trapAfter (s.flag .t) (run i (advance u))

/-- One step (R240). A dead processor does nothing (R256); a halted one only takes an interrupt (R230). -/
def cycle (run : Instr → State → Host.Outcome State Fault Refusal) (s : State) : Host.Outcome State Fault Refusal :=
  let b := beginStep s
  if b.run = .dead then .next b
  else
    match acceptedIrq (presentedIrq s) b with
    | some n => closeStep (enter n 0x00#8 b)
    | none => if b.run = .halted then .next b else closeStep (fetchExecute run b)

/-! ### Loading (log 21) -/

/-- The start of the page the directory begins in, plus `k` pages: where a loader may put a page table or a frame that
the directory, at most two pages long, does not touch. -/
def loaderPage (s : State) (k : Word) : Word := (s.tpdr &&& 0xFFFFF000#32) + 0x1000#32 * k

/-- A mapping of the page of `la` put into physical memory: the directory entry points to the loader's page table, whose
entry gives the frame: present, writable, user, accessed and dirty. -/
def mapPage (s : State) (la frame : Word) : State :=
  let table := loaderPage s 2#32
  let dir := s.mem.writeWord (s.tpdr + 4#32 * (directoryIndex la).setWidth 32) table
  s.setMem (dir.writeWord (table + 4#32 * (tableIndex la).setWidth 32) (frame ||| 0xC31#32))

/-- The pages of the eight bytes at `I0` mapped. -/
def mapCode (s : State) : State :=
  mapPage (mapPage s s.i0 (loaderPage s 3#32)) (s.i0 + 7#32) (loaderPage s (if pageOffset s.i0 ≤ 0xFF8#12 then 3#32 else 4#32))

/-- An instruction word stored where the next step fetches: at the linear addresses `I0` to `I0 + 7`, mapped if they are
not. -/
def placeWord (s : State) (w : InstrWord) : State :=
  let store (u : State) : Option State :=
    match translateFrom u .fetch u.i0 8 with
    | .error _ => none
    | .ok ws => (writeWalks ws (instrBytes w) u).toOption
  match store s with
  | some t => t
  | none => (store (mapCode s)).getD s

/-- The processor ready to fetch at the next step: running, nothing presented at this boundary. -/
def readyToFetch (s : State) : State :=
  (s.setRun .running).setPlat
    { s.plat with irqInputs := match s.plat.irqInputs with
                               | [] => []
                               | _ :: rest => none :: rest }

/-- The state whose next step fetches and runs the instruction of `nbits` bits `w`. -/
def placeTableWord (s : State) (nbits w : Nat) : State :=
  placeWord (readyToFetch s) (BitVec.ofNat 64 (w % 2 ^ min nbits 64))

end Sys2Proof.Machine
end

