-- ==== Sys2Proof/Machine/Operands.lean ====
section
/-! DEFINITION. The operand forms of spec/30_encoding.md R106 to R114, and the shapes the instructions share: what is checked, what is
read, and only then what is written (R126, R140, R253). -/

namespace Sys2Proof.Machine

/-- `operand_rri` (R112): the value, and the state after reading it (the `Addr` form may mark a page table entry). -/
def sourceValue (s : State) : Source → Act (Word × State)
  | .reg rs => do
    let r ← gpr rs.toNat
    .ok (s.reg r, s)
  | .imm i => .ok (i, s)
  | .addr i => memRead s i

/-- The operand of `PUSH`, `KPUSH`, `SWI`, `IN`, `OUT`: `R[rs]` or `i` (R211, R226, R235). -/
def regImmValue (s : State) : RegImm → Act Word
  | .reg rs => do
    let r ← gpr rs.toNat
    .ok (s.reg r)
  | .imm i => .ok i

/-- `target_ri` (R114): base, plus `R[ro]` modulo 2^32 where `am[1]` is set. -/
def targetValue (s : State) : Target → Act Word
  | .reg rs => do
    let r ← gpr rs.toNat
    .ok (s.reg r)
  | .imm i => .ok i
  | .regOff rs ro => do
    let r ← gpr rs.toNat
    let o ← gpr ro.toNat
    .ok (s.reg r + s.reg o)
  | .immOff i ro => do
    let o ← gpr ro.toNat
    .ok (i + s.reg o)

/-- The template of R140 for the ten instructions that write `R[rd]`. -/
def arith (op : Word → Word → Byte → Word × Byte) (rd : BitVec 8) (src : Source) (s : State) : Act State := do
  let d ← gpr rd.toNat
  let b ← sourceValue s src
  let r := op (s.reg d) b.1 s.fr
  .ok ((b.2.setReg d r.1).setFr r.2)

/-- The template of R140 for `CMP`, which writes flags only. -/
def compare (op : Word → Word → Byte → Byte) (rd : BitVec 8) (src : Source) (s : State) : Act State := do
  let d ← gpr rd.toNat
  let b ← sourceValue s src
  .ok (b.2.setFr (op (s.reg d) b.1 s.fr))

/-- The template of R190: the target is checked and computed whether or not the transfer is made. -/
def branchIf (cond : Bool) (tgt : Target) (s : State) : Act State := do
  let t ← targetValue s tgt
  .ok (if cond then s.setI0 t else s)

/-- `CALL`, `KCALL` (R199, R200): the target, then the push of the return address, then the transfer. -/
def callOn (p : StackPtr) (tgt : Target) (s : State) : Act State := do
  let t ← targetValue s tgt
  let u ← push s p s.i0
  .ok (u.setI0 t)

/-- `RET`, `KRET` (R201, R202). -/
def returnOn (p : StackPtr) (s : State) : Act State := do
  let r ← pop s p
  .ok (r.2.setI0 r.1)

/-- `PUSH`, `KPUSH` (R211, R213). -/
def pushOn (p : StackPtr) (src : RegImm) (s : State) : Act State := do
  let v ← regImmValue s src
  push s p v

/-- `POP`, `KPOP` (R212, R214): the register number is checked before the access. -/
def popOn (p : StackPtr) (rs : Word) (s : State) : Act State := do
  let d ← gpr rs.toNat
  let r ← pop s p
  .ok (r.2.setReg d r.1)

/-- `INC`, `DEC` (R220): no flag. -/
def stepReg (delta : Word) (rs : Word) (s : State) : Act State := do
  let r ← gpr rs.toNat
  .ok (s.setReg r (s.reg r + delta))

end Sys2Proof.Machine
end

