-- ==== Sys2Proof/Machine/Alu.lean ====
section
/-! DEFINITION. `ADD` to `MOV` (spec/40_alu.md). -/

namespace Sys2Proof.Machine

/-- `ADD` (R141): adds the operand into `R[rd]`. -/
def execAdd (rd : BitVec 8) (src : Source) (s : State) : Host.Outcome State Fault Refusal := finish s (arith addOp rd src s)

/-- `SUB` (R142): subtracts the operand from `R[rd]`. -/
def execSub (rd : BitVec 8) (src : Source) (s : State) : Host.Outcome State Fault Refusal := finish s (arith subOp rd src s)

/-- `MUL` (R143): multiplies `R[rd]`, keeping 32 bits. -/
def execMul (rd : BitVec 8) (src : Source) (s : State) : Host.Outcome State Fault Refusal := finish s (arith mulOp rd src s)

/-- `DIV` (R144): divides `R[rd]`; by zero only sets E. -/
def execDiv (rd : BitVec 8) (src : Source) (s : State) : Host.Outcome State Fault Refusal := finish s (arith divOp rd src s)

/-- `AND` (R145): bitwise. -/
def execAnd (rd : BitVec 8) (src : Source) (s : State) : Host.Outcome State Fault Refusal := finish s (arith andOp rd src s)

/-- `OR` (R146): bitwise. -/
def execOr (rd : BitVec 8) (src : Source) (s : State) : Host.Outcome State Fault Refusal := finish s (arith orOp rd src s)

/-- `XOR` (R147): bitwise. -/
def execXor (rd : BitVec 8) (src : Source) (s : State) : Host.Outcome State Fault Refusal := finish s (arith xorOp rd src s)

/-- `LSL` (R148): shifts `R[rd]` left. -/
def execLsl (rd : BitVec 8) (src : Source) (s : State) : Host.Outcome State Fault Refusal := finish s (arith lslOp rd src s)

/-- `LSR` (R149): shifts `R[rd]` right, zeros entering. -/
def execLsr (rd : BitVec 8) (src : Source) (s : State) : Host.Outcome State Fault Refusal := finish s (arith lsrOp rd src s)

/-- `CMP` (R150): flags only. -/
def execCmp (rd : BitVec 8) (src : Source) (s : State) : Host.Outcome State Fault Refusal := finish s (compare cmpFlags rd src s)

/-- `MOV` (R151): copies the operand into `R[rd]`. -/
def execMov (rd : BitVec 8) (src : Source) (s : State) : Host.Outcome State Fault Refusal := finish s (arith movOp rd src s)

end Sys2Proof.Machine
end

