-- ==== Sys2Proof/Machine/Control.lean ====
section
/-! DEFINITION. Jumps, branches, calls and returns (spec/43_control_transfer.md). `I0` already holds the address of the next
instruction (R25, R190). -/

namespace Sys2Proof.Machine

/-- `JMP` (R191). -/
def execJmp (tgt : Target) (s : State) : Host.Outcome State Fault Refusal := finish s (branchIf true tgt s)

/-- `JAR` (R192): the target is computed from the old registers, then `R31` takes the return address. -/
def execJar (tgt : Target) (s : State) : Host.Outcome State Fault Refusal :=
  finish s (do
    let t ← targetValue s tgt
    .ok ((s.setReg 31 s.i0).setI0 t))

/-- `BEQ` (R193): if C is set. -/
def execBeq (tgt : Target) (s : State) : Host.Outcome State Fault Refusal := finish s (branchIf (s.flag .c) tgt s)

/-- `BNE` (R194): if C is clear. -/
def execBne (tgt : Target) (s : State) : Host.Outcome State Fault Refusal := finish s (branchIf (!s.flag .c) tgt s)

/-- `BZ` (R195): if Z is set. -/
def execBz (tgt : Target) (s : State) : Host.Outcome State Fault Refusal := finish s (branchIf (s.flag .z) tgt s)

/-- `BNZ` (R196): if Z is clear. -/
def execBnz (tgt : Target) (s : State) : Host.Outcome State Fault Refusal := finish s (branchIf (!s.flag .z) tgt s)

/-- `BG` (R197): if E is set. -/
def execBg (tgt : Target) (s : State) : Host.Outcome State Fault Refusal := finish s (branchIf (s.flag .e) tgt s)

/-- `BL` (R198): if E is clear. -/
def execBl (tgt : Target) (s : State) : Host.Outcome State Fault Refusal := finish s (branchIf (!s.flag .e) tgt s)

/-- `CALL` (R199): on the user stack, in either mode. -/
def execCall (tgt : Target) (s : State) : Host.Outcome State Fault Refusal := finish s (callOn .user tgt s)

/-- `KCALL` (R200): on the kernel stack, supervisor mode only. -/
def execKcall (tgt : Target) (s : State) : Host.Outcome State Fault Refusal :=
  finish s (do
    requireSupervisor s
    callOn .kernel tgt s)

/-- `RET` (R201). -/
def execRet (s : State) : Host.Outcome State Fault Refusal := finish s (returnOn .user s)

/-- `KRET` (R202): supervisor mode only. -/
def execKret (s : State) : Host.Outcome State Fault Refusal :=
  finish s (do
    requireSupervisor s
    returnOn .kernel s)

end Sys2Proof.Machine
end

