-- ==== Sys2Proof/Machine/IncDec.lean ====
section
/-! DEFINITION. `INC`, `DEC` (spec/45_inc_dec.md). -/

namespace Sys2Proof.Machine

/-- `INC` (R221). -/
def execInc (rs : Word) (s : State) : Host.Outcome State Fault Refusal := finish s (stepReg 1#32 rs s)

/-- `DEC` (R222): adding 2^32 - 1 is subtracting 1 modulo 2^32. -/
def execDec (rs : Word) (s : State) : Host.Outcome State Fault Refusal := finish s (stepReg (-1#32) rs s)

end Sys2Proof.Machine
end

