-- ==== Sys2Proof/Machine/LoadStore.lean ====
section
/-! DEFINITION. `LDR`, `STR` (spec/42_load_store.md). -/

namespace Sys2Proof.Machine

/-- `LDR` (R181): the word at the effective address, with Z and S from it. -/
def execLdr (rd : BitVec 8) (ea : Target) (s : State) : Host.Outcome State Fault Refusal :=
  finish s (do
    let d ← gpr rd.toNat
    let a ← targetValue s ea
    let r ← memRead s a
    .ok ((r.2.setReg d r.1).setFr (putS (putZ s.fr r.1) r.1)))

/-- `STR` (R182): `R[rd]` to the effective address; no flag. -/
def execStr (rd : BitVec 8) (ea : Target) (s : State) : Host.Outcome State Fault Refusal :=
  finish s (do
    let d ← gpr rd.toNat
    let a ← targetValue s ea
    memWrite s a (s.reg d))

end Sys2Proof.Machine
end

