-- ==== Sys2Proof/Machine/PortIo.lean ====
section
/-! DEFINITION. `IN`, `OUT` (spec/47_port_io.md). -/

namespace Sys2Proof.Machine

/-- `IN` (R236): no flag. -/
def execIn (rd : BitVec 8) (port : RegImm) (s : State) : Host.Outcome State Fault Refusal :=
  finish s (do
    let d ← gpr rd.toNat
    let p ← regImmValue s port
    requirePort s p
    .ok ((portRead s p).2.setReg d (portRead s p).1))

/-- `OUT` (R237): `R[rd]` is read; no register changes. -/
def execOut (rd : BitVec 8) (port : RegImm) (s : State) : Host.Outcome State Fault Refusal :=
  finish s (do
    let d ← gpr rd.toNat
    let p ← regImmValue s port
    requirePort s p
    .ok (portWrite s p (s.reg d)))

end Sys2Proof.Machine
end

