-- ==== Sys2Proof/Machine/SpecialMoves.lean ====
section
/-! DEFINITION. `ZEXT`, `MFS`, `MTS` (spec/41_special_register_moves.md). -/

namespace Sys2Proof.Machine

/-- `ZEXT` (R171): an 8-bit special register, extended; no flag. -/
def execZext (rd : BitVec 8) (rs : Word) (s : State) : Host.Outcome State Fault Refusal :=
  finish s (do
    let d ← gpr rd.toNat
    let b ← readForZext s rs.toNat
    .ok (s.setReg d (zextByte b)))

/-- `MFS` (R172): a 32-bit special register; no flag. -/
def execMfs (rd : BitVec 8) (rs : Word) (s : State) : Host.Outcome State Fault Refusal :=
  finish s (do
    let d ← gpr rd.toNat
    let v ← readForMfs s rs.toNat
    .ok (s.setReg d v))

/-- `MTS` (R173): `R[rs]` into a special register. -/
def execMts (rd : BitVec 8) (rs : Word) (s : State) : Host.Outcome State Fault Refusal := finish s (moveToSpecial s rd.toNat rs.toNat)

end Sys2Proof.Machine
end

