-- ==== Sys2Proof/Machine/Stack.lean ====
section
/-! DEFINITION. `PUSH`, `POP`, `KPUSH`, `KPOP` (spec/44_stack.md). -/

namespace Sys2Proof.Machine

/-- `PUSH` (R211). -/
def execPush (src : RegImm) (s : State) : Host.Outcome State Fault Refusal := finish s (pushOn .user src s)

/-- `POP` (R212): no flag. -/
def execPop (rs : Word) (s : State) : Host.Outcome State Fault Refusal := finish s (popOn .user rs s)

/-- `KPUSH` (R213): supervisor mode only. -/
def execKpush (src : RegImm) (s : State) : Host.Outcome State Fault Refusal :=
  finish s (do
    requireSupervisor s
    pushOn .kernel src s)

/-- `KPOP` (R214): supervisor mode only. -/
def execKpop (rs : Word) (s : State) : Host.Outcome State Fault Refusal :=
  finish s (do
    requireSupervisor s
    popOn .kernel rs s)

end Sys2Proof.Machine
end

