-- ==== Sys2Proof/Machine/System.lean ====
section
/-! DEFINITION. `SWI`, `IRET`, `NOP`, `HLT` (spec/46_system.md). -/

namespace Sys2Proof.Machine

/-- `SWI` (R226): enters the vector its operand gives, error code 0, in either mode, whatever `FR.I` is. -/
def execSwi (src : RegImm) (s : State) : Host.Outcome State Fault Refusal :=
  finish s (do
    let n ← regImmValue s src
    .error (.interrupt n 0x00#8))

/-- `IRET` (R228): supervisor mode only. -/
def execIret (s : State) : Host.Outcome State Fault Refusal :=
  finish s (do
    requireSupervisor s
    .ok (restoreContext s))

/-- `NOP` (R229). -/
def execNop (s : State) : Host.Outcome State Fault Refusal := finish s (.ok s)

/-- `HLT` (R230): in either mode; `I0` stays at the next instruction. -/
def execHlt (s : State) : Host.Outcome State Fault Refusal := finish s (.ok (s.setRun .halted))

end Sys2Proof.Machine
end

