-- ==== Sys2Proof/Machine/Dispatch.lean ====
section
/-! DEFINITION. Each instruction to its meaning (spec/30_encoding.md R120). -/

namespace Sys2Proof.Machine

def exec (i : Instr) (s : State) : Host.Outcome State Fault Refusal :=
  match i with
  | .add rd src => Sys2Proof.Machine.execAdd rd src s
  | .sub rd src => Sys2Proof.Machine.execSub rd src s
  | .mul rd src => Sys2Proof.Machine.execMul rd src s
  | .div rd src => Sys2Proof.Machine.execDiv rd src s
  | .and rd src => Sys2Proof.Machine.execAnd rd src s
  | .or rd src => Sys2Proof.Machine.execOr rd src s
  | .xor rd src => Sys2Proof.Machine.execXor rd src s
  | .lsl rd src => Sys2Proof.Machine.execLsl rd src s
  | .lsr rd src => Sys2Proof.Machine.execLsr rd src s
  | .cmp rd src => Sys2Proof.Machine.execCmp rd src s
  | .mov rd src => Sys2Proof.Machine.execMov rd src s
  | .zext rd rs => Sys2Proof.Machine.execZext rd rs s
  | .mfs rd rs => Sys2Proof.Machine.execMfs rd rs s
  | .mts rd rs => Sys2Proof.Machine.execMts rd rs s
  | .ldr rd ea => Sys2Proof.Machine.execLdr rd ea s
  | .str rd ea => Sys2Proof.Machine.execStr rd ea s
  | .jmp tgt => Sys2Proof.Machine.execJmp tgt s
  | .jar tgt => Sys2Proof.Machine.execJar tgt s
  | .beq tgt => Sys2Proof.Machine.execBeq tgt s
  | .bne tgt => Sys2Proof.Machine.execBne tgt s
  | .bz tgt => Sys2Proof.Machine.execBz tgt s
  | .bnz tgt => Sys2Proof.Machine.execBnz tgt s
  | .bg tgt => Sys2Proof.Machine.execBg tgt s
  | .bl tgt => Sys2Proof.Machine.execBl tgt s
  | .call tgt => Sys2Proof.Machine.execCall tgt s
  | .kcall tgt => Sys2Proof.Machine.execKcall tgt s
  | .push src => Sys2Proof.Machine.execPush src s
  | .pop rs => Sys2Proof.Machine.execPop rs s
  | .kpush src => Sys2Proof.Machine.execKpush src s
  | .kpop rs => Sys2Proof.Machine.execKpop rs s
  | .swi src => Sys2Proof.Machine.execSwi src s
  | .inc rs => Sys2Proof.Machine.execInc rs s
  | .dec rs => Sys2Proof.Machine.execDec rs s
  | .ret => Sys2Proof.Machine.execRet s
  | .kret => Sys2Proof.Machine.execKret s
  | .iret => Sys2Proof.Machine.execIret s
  | .nop => Sys2Proof.Machine.execNop s
  | .hlt => Sys2Proof.Machine.execHlt s
  | .portIn rd port => Sys2Proof.Machine.execIn rd port s
  | .portOut rd port => Sys2Proof.Machine.execOut rd port s

end Sys2Proof.Machine
end

