-- ==== Sys2Proof/Machine/Step.lean ====
section
/-! DEFINITION. One step of the machine (spec/60_exceptions.md R240) and the placing of an instruction where it fetches. -/

namespace Sys2Proof.Machine

/-- One step: the frame of R240 around the meaning of each instruction. -/
def step (s : State) : Host.Outcome State Fault Refusal := cycle exec s

/-- The state whose very next step fetches and runs that instruction (log 21). -/
def State.withFetchWord (s : State) (nbits w : Nat) : State := placeTableWord s nbits w

end Sys2Proof.Machine
end

