-- ==== Sys2Proof/Safety.lean ====
section
/-! DEFINITION. What the claims about this machine call safe: the data invariant, steps and runs that do not stop, and platforms on
which nothing can stop. -/

namespace Sys2Proof.Machine

/-- The data invariant of every state between two steps: memory in its canonical form, and no trace of an interrupt
entry left behind. -/
def State.WellFormed (s : State) : Prop := s.mem.wf = true ∧ s.intTaken = false

/-- The step goes on: it neither faults nor is refused. -/
def Proceeds (o : Host.Outcome State Fault Refusal) : Prop := ∃ t, o = .next t

/-- A run of `n` steps goes on. -/
def RunsFor (n : Nat) (s : State) : Prop := ∃ t, Sys2Proof.core.run n s = .next t

/-- A platform whose whole physical address space is memory or devices: no access of R70 is without a result. -/
def Platform.AllPresent (p : Platform) : Prop := p.absent = []

/-- The installed platform and the inputs still to come are the same. -/
def SamePlatformMap (p q : Platform) : Prop :=
  q.absent = p.absent ∧ q.devices = p.devices ∧ q.userPorts = p.userPorts ∧ q.portAnswers = p.portAnswers ∧
    q.irqInputs = p.irqInputs

/-- Nothing but memory and the platform's records differs: no register does. -/
def OnlyMemory (s t : State) : Prop := t = { s with mem := t.mem, plat := t.plat } ∧ SamePlatformMap s.plat t.plat

/-- The bytes of the page table entries that the walks used (R85). -/
def entryBytes (ws : List Walk) : List Nat :=
  ws.flatMap fun w =>
    match w.entry with
    | none => []
    | some e => wordAddrs e.ptea

/-- The physical bytes the walks lead to. -/
def walkBytes (ws : List Walk) : List Nat := ws.map fun w => w.pa.toNat

/-- A value marking may leave in an entry it used: A (bit 10) set, D (bit 11) set or as it was, every other bit kept
(R85). -/
def MarkedValue (pte e : Word) : Prop := e = pte ||| 0x400#32 ∨ e = pte ||| 0xC00#32

/-- `m` is `s` with every entry written back at a marked value, in order (R85). -/
def WritesMarks : List EntryUse → State → State → Prop
  | [], s, m => m = s
  | e :: es, s, m => ∃ v, MarkedValue e.pte v ∧ WritesMarks es (physWrite32 s e.ptea v) m

/-- `m` is `s` between the translations of an access and its transfer: the platform has been told what the walks read,
and every entry used has been marked once (R72, R73, R85). -/
def Marked (ws : List Walk) (s m : State) : Prop :=
  OnlyMemory s m ∧
    ∃ k, WritesMarks (usedEntries ws) (s.tell (tableReads s (usedEntries ws))) k ∧ m.mem = k.mem ∧
      m.plat.ioLog = k.plat.ioLog

/-- What a successful access does to the state: no register changes; no byte of memory but those it stores to and those
of the page table entries it used; those entries gain their marks and nothing else; and where no byte leads to a device,
the transfer tells the platform nothing (R72, R73, R85). -/
def AccessFrame (ws : List Walk) (stored : List Nat) (s t : State) : Prop :=
  OnlyMemory s t ∧ (∀ p, p ∉ stored → p ∉ entryBytes ws → t.mem.read p = s.mem.read p) ∧
    ∃ m, Marked ws s m ∧ (∀ p, p ∉ stored → t.mem.read p = m.mem.read p) ∧
      ((∀ w ∈ ws, regionOf s.plat w.pa ≠ .device) → t.plat.ioLog = m.plat.ioLog)

/-- The bytes of a transfer that lead to device windows, in order (R62). -/
def deviceBytes (p : Platform) (ws : List Walk) (bs : List Byte) : List (Word × Byte) :=
  ((ws.map Walk.pa).zip bs).filter fun x => decide (regionOf p x.1 = .device)

/-- What a read transfers, from the marked state `m`: memory answers its bytes, and a device what the platform is then
told it answered, byte by byte (R62, R72, log 34). -/
def Transfers (ws : List Walk) (m : State) (bs : List Byte) (t : State) : Prop :=
  bs.length = ws.length ∧
    (∀ x ∈ (ws.map Walk.pa).zip bs, regionOf m.plat x.1 = .ram → x.2 = m.mem.read x.1.toNat) ∧
    t = m.tell ((deviceBytes m.plat ws bs).map fun x => IoEvent.memRead x.1 x.2).reverse

/-- What a write transfers, from the marked state `m`: no byte of memory but those it stores to changes; each of its bytes
that leads to memory stands there afterwards, whatever the others lead to; and the platform is told what its devices are
given, byte by byte (R62, R73, log 34). -/
def Stores (ws : List Walk) (m : State) (bs : List Byte) (t : State) : Prop :=
  (∀ p, p ∉ walkBytes (ws.filter fun w => decide (regionOf m.plat w.pa = .ram)) → t.mem.read p = m.mem.read p) ∧
    (m.mem.wf = true → ∀ x ∈ (ws.map Walk.pa).zip bs, regionOf m.plat x.1 = .ram → t.mem.read x.1.toNat = x.2) ∧
    t = (m.setMem t.mem).tell ((deviceBytes m.plat ws bs).map fun x => IoEvent.memWrite x.1 x.2).reverse

/-- Every table entry the walks used stands in memory. -/
def TablesInMemory (p : Platform) (ws : List Walk) : Prop :=
  ∀ e ∈ usedEntries ws, entryRegion p e.pdea = .ram ∧ entryRegion p e.ptea = .ram

/-- The word a read gives is the one in the bytes its walks lead to, where all of them are memory (R72). -/
def LoadedWord (ws : List Walk) (u : State) (v : Word) : Prop :=
  (∀ w ∈ ws, regionOf u.plat w.pa = .ram) → v = wordOfBytes ((walkBytes ws).map u.mem.read)

/-- The bytes a write's walks lead to hold the word afterwards, lowest address first in the order of log 1, where all of
them are memory (R73). -/
def StoredWord (ws : List Walk) (s u : State) (v : Word) : Prop :=
  s.mem.wf = true → (∀ w ∈ ws, regionOf s.plat w.pa = .ram) → (walkBytes ws).map u.mem.read = wordBytes v

/-- What no instruction of user mode may change (R33, R42, R283): the system registers and the high flags. -/
def SameSystemState (s t : State) : Prop :=
  t.msr = s.msr ∧ t.s1 = s.s1 ∧ t.ivtr = s.ivtr ∧ t.tpdr = s.tpdr ∧ t.tsp = s.tsp ∧
    t.ie0 = s.ie0 ∧ t.ie1 = s.ie1 ∧ t.ie2 = s.ie2 ∧ t.ie3 = s.ie3 ∧ t.ie4 = s.ie4 ∧
    ∀ f ∈ [Flag.i, Flag.g, Flag.t], t.flag f = s.flag f

/-- The eight bits of a value of `FR`, from C (bit 0) to T (bit 7) (R30). -/
def FlagsAre (f : Byte) (c z s v e i g t : Bool) : Prop :=
  f.getLsbD 0 = c ∧ f.getLsbD 1 = z ∧ f.getLsbD 2 = s ∧ f.getLsbD 3 = v ∧ f.getLsbD 4 = e ∧ f.getLsbD 5 = i ∧
    f.getLsbD 6 = g ∧ f.getLsbD 7 = t

/-- The flags an instruction's own effect may write: the affected-flags column of the ISA table, and all eight for
`MTS FR` and `IRET` (R31, R32). -/
def listedFlags : Instr → List Flag
  | .add _ _ => [.c, .z, .s, .v]
  | .sub _ _ => [.z, .s, .v]
  | .mul _ _ => [.c, .z, .s, .v]
  | .div _ _ => [.z, .s, .e]
  | .and _ _ => [.z]
  | .or _ _ => [.z]
  | .xor _ _ => [.z]
  | .lsl _ _ => [.c, .z]
  | .lsr _ _ => [.c, .z]
  | .cmp _ _ => [.c, .z, .s, .e]
  | .mov _ _ => [.z, .s]
  | .zext _ _ => []
  | .mfs _ _ => []
  | .mts rd _ => if rd = 0x23#8 then [.c, .z, .s, .v, .e, .i, .g, .t] else []
  | .ldr _ _ => [.z, .s]
  | .str _ _ => []
  | .jmp _ => []
  | .jar _ => []
  | .beq _ => []
  | .bne _ => []
  | .bz _ => []
  | .bnz _ => []
  | .bg _ => []
  | .bl _ => []
  | .call _ => []
  | .kcall _ => []
  | .push _ => []
  | .pop _ => []
  | .kpush _ => []
  | .kpop _ => []
  | .swi _ => []
  | .inc _ => []
  | .dec _ => []
  | .ret => []
  | .kret => []
  | .iret => [.c, .z, .s, .v, .e, .i, .g, .t]
  | .nop => []
  | .hlt => []
  | .portIn _ _ => []
  | .portOut _ _ => []

/-- What reading the operand of `ADD` to `MOV` does to the state: nothing, but for the `Addr` form, which may mark the
page table entries it used (R85, R112). -/
def SourceFrame (src : Source) (s u : State) : Prop :=
  match src with
  | .reg _ => u = s
  | .imm _ => u = s
  | .addr i => ∃ ws, translateFrom s .read i 4 = .ok ws ∧ AccessFrame ws [] s u

/-- The instruction completes: `R[d]` is `r`, `FR` is `f`, and nothing else differs from the state after the operand was
read (R140). -/
def ArithWrites (i : Instr) (d : Fin 32) (src : Source) (s u : State) (r : Word) (f : Byte) : Prop :=
  SourceFrame src s u ∧ exec i s = .next { u with regs := u.regs.set d.val r d.isLt, fr := f }

/-- The encoding a rule gives for an instruction: `match` under the mask of R120. -/
def HasOpcode (i : Instr) (m : InstrWord) : Prop := encode i &&& 0xFC00000000000000#64 = m

/-- The `match` column of the table of the 40 opcodes, row by row as R120 prints it. -/
def tableMatch : Instr → InstrWord
  | .add _ _ => 0x0400000000000000#64
  | .sub _ _ => 0x0800000000000000#64
  | .mul _ _ => 0x0C00000000000000#64
  | .div _ _ => 0x1000000000000000#64
  | .and _ _ => 0x1400000000000000#64
  | .or _ _ => 0x1800000000000000#64
  | .xor _ _ => 0x1C00000000000000#64
  | .lsl _ _ => 0x2000000000000000#64
  | .lsr _ _ => 0x2400000000000000#64
  | .cmp _ _ => 0x2800000000000000#64
  | .mov _ _ => 0x2C00000000000000#64
  | .zext _ _ => 0x3000000000000000#64
  | .mfs _ _ => 0x3400000000000000#64
  | .mts _ _ => 0x3800000000000000#64
  | .ldr _ _ => 0x3C00000000000000#64
  | .str _ _ => 0x4000000000000000#64
  | .jmp _ => 0x4400000000000000#64
  | .jar _ => 0x4800000000000000#64
  | .beq _ => 0x4C00000000000000#64
  | .bne _ => 0x5000000000000000#64
  | .bz _ => 0x5400000000000000#64
  | .bnz _ => 0x5800000000000000#64
  | .bg _ => 0x5C00000000000000#64
  | .bl _ => 0x6000000000000000#64
  | .call _ => 0x6400000000000000#64
  | .kcall _ => 0x6800000000000000#64
  | .push _ => 0x6C00000000000000#64
  | .pop _ => 0x7000000000000000#64
  | .kpush _ => 0x7400000000000000#64
  | .kpop _ => 0x7800000000000000#64
  | .swi _ => 0x7C00000000000000#64
  | .inc _ => 0x8000000000000000#64
  | .dec _ => 0x8400000000000000#64
  | .ret => 0x8800000000000000#64
  | .kret => 0x8C00000000000000#64
  | .iret => 0x9000000000000000#64
  | .nop => 0x9400000000000000#64
  | .hlt => 0x9800000000000000#64
  | .portIn _ _ => 0x9C00000000000000#64
  | .portOut _ _ => 0xA000000000000000#64

/-- A word with the opcode is an instruction exactly when its `am` (bits 57:56) is one of the modes (R108). -/
def DecodesOnlyIn (op : Nat) (modes : List Nat) : Prop :=
  ∀ w : InstrWord, (w >>> 58).toNat = op → ((∃ i, decode w = .ok i) ↔ (w >>> 56).toNat % 4 ∈ modes)

/-- The instruction turns the page fault of its one memory access into entry from the state it began in: nothing was
written (R251, R253). -/
def FaultsWith (i : Instr) (s : State) (codes : List Byte) (n : Word) (code : Byte) : Prop :=
  n = 1#32 ∧ code ∈ codes ∧ exec i s = enter 1#32 code s

end Sys2Proof.Machine
end

