-- ==== Sys2Proof/Certificates/Slice0/Obligations.lean ====
section
/-! DEFINITION. The statements about the XR-32 model that are to be proved. A docstring names the rule of spec/ a statement
formalises; where a clause rests on a decision of spec/92_eei_decisions.md (D<n>) or on a choice of the model (log n), it
says so. -/

open Sys2Proof Sys2Proof.Machine

/-! ### Encoding -/

/-- Every instruction, with every operand at every value its encoding admits, decodes from its own encoding, and its
eight bytes in memory order decode to it with whatever follows left over (30_encoding.md sections 1 to 3; field
positions D5 to D8, byte order log 1). -/
def Obligations.DecodeOfEncodeIsTheInstruction : Prop :=
  ∀ i : Instr, decode (encode i) = .ok i ∧
    ∀ rest : List Byte, decodeBytes (instrBytes (encode i) ++ rest) = .ok (i, rest)

/-- No examined bit is dropped: a word that decodes is the encoding of its instruction on every bit that is neither
reserved nor unused (30_encoding.md section 2; that those bits are ignored is D9). -/
def Obligations.DecodedWordReencodes : Prop :=
  ∀ (w : InstrWord) (i : Instr), decode w = .ok i → encode i = w &&& examinedMask i

/-- The instruction is selected by bits 63:58 alone, by the table of the 40 opcodes (30_encoding.md sections 1 and 3):
a word that decodes has its instruction's `match` under the mask, every encoding has it, and whether the opcode is
invalid depends on those bits only. -/
def Obligations.OpcodeIsTopSixBits : Prop :=
  (∀ (w : InstrWord) (i : Instr), decode w = .ok i →
      w &&& 0xFC00000000000000#64 = tableMatch i ∧ opcodeOf i = w.extractLsb' 58 6) ∧
    (∀ i : Instr, HasOpcode i (tableMatch i)) ∧
    ∀ (w : InstrWord) (op : BitVec 6), decode w = .error (.invalidOpcode op) → op = w.extractLsb' 58 6 ∧
      ∀ v : InstrWord, v.extractLsb' 58 6 = op → decode v = .error (.invalidOpcode op)

/-- Which words are instructions: the allowed modes of each opcode, and a step on any other word takes `IOP`
(30_encoding.md section 2, "Addressing modes allowed per instruction"; the meaning of the modes is D7, that a disallowed
mode is as an invalid opcode D10). -/
def Obligations.OnlyAllowedModesAreInstructions : Prop :=
  (∀ w : InstrWord, (∃ i, decode w = .ok i) ↔
    let op := (w >>> 58).toNat
    let am := (w >>> 56).toNat % 4
    (0x01 ≤ op ∧ op ≤ 0x0B ∧ am ≠ 2) ∨ (0x0C ≤ op ∧ op ≤ 0x0E ∧ am = 0) ∨ (0x0F ≤ op ∧ op ≤ 0x1A) ∨
      ((op = 0x1B ∨ op = 0x1D ∨ op = 0x1F) ∧ am ≤ 1) ∨ ((op = 0x1C ∨ op = 0x1E ∨ op = 0x20 ∨ op = 0x21) ∧ am = 0) ∨
      (0x22 ≤ op ∧ op ≤ 0x26) ∨ ((op = 0x27 ∨ op = 0x28) ∧ am ≤ 1)) ∧
    ∀ (s u : State) (w : InstrWord), s.run = .running → acceptedIrq (presentedIrq s) (beginStep s) = none →
      memFetch (beginStep s) s.i0 = .ok (w, u) → (∀ i, decode w ≠ .ok i) →
      step s = closeStep (enter 0#32 0x00#8 { u with i0 := s.i0 + 8#32 }) ∧
        ∀ t, step s = .next t → t.ie1 = s.i0 + 8#32

/-- Eight words, one a family, decode to what they stand for: seven are worked encodings of 30_encoding.md section 5, and
`INC R2` is the encoding of 45_inc_dec.md. -/
def Obligations.WorkedWordsDecode : Prop :=
  decode 0x0703000010000000#64 = .ok (.add 3#8 (.addr 0x1000#32)) ∧
    decode 0x3002000000230000#64 = .ok (.zext 2#8 0x23#32) ∧
    decode 0x3E00000005060400#64 = .ok (.ldr 4#8 (.regOff 5#32 6#8)) ∧
    decode 0x4E00000003040000#64 = .ok (.beq (.regOff 3#32 4#8)) ∧
    decode 0x6DDEADBEEF000000#64 = .ok (.push (.imm 0xDEADBEEF#32)) ∧
    decode 0x8000000002000000#64 = .ok (.inc 2#32) ∧
    decode 0x9800000000000000#64 = .ok .hlt ∧
    decode 0x9D01000003F80000#64 = .ok (.portIn 1#8 (.imm 0x3F8#32))

/-! ### The step -/

/-- A step runs the instruction its fetch decodes to, with `I0` moved past it; the trap of T follows
(60_exceptions.md section 1; the order fetch, increment, execute is D3). The fetch itself changes nothing but marks in the
page table entries it used. -/
def Obligations.StepRunsTheDecodedInstruction : Prop :=
  ∀ (s u : State) (w : InstrWord) (i : Instr), s.run = .running →
    acceptedIrq (presentedIrq s) (beginStep s) = none → memFetch (beginStep s) s.i0 = .ok (w, u) → decode w = .ok i →
    (∃ ws, translateFrom (beginStep s) .fetch s.i0 8 = .ok ws ∧ AccessFrame ws [] (beginStep s) u) ∧
      step s = closeStep (trapAfter (s.fr.getLsbD 7) (exec i { u with i0 := s.i0 + 8#32 }))

/-- An undefined opcode raises `IOP` with no error code and `I0` advanced (R122): the 24 opcode values are no
instruction's, the all-zero word among them; the step enters vector 0 and `IE1` is the word's address plus 8. -/
def Obligations.InvalidOpcodeTakesIop : Prop :=
  (∀ i : Instr, opcodeOf i ≠ 0#6 ∧ (opcodeOf i).toNat < 0x29) ∧
    decode 0#64 = .error (.invalidOpcode 0#6) ∧
    ∀ (s u : State) (w : InstrWord), s.run = .running → acceptedIrq (presentedIrq s) (beginStep s) = none →
      memFetch (beginStep s) s.i0 = .ok (w, u) → ((w >>> 58).toNat = 0 ∨ 0x29 ≤ (w >>> 58).toNat) →
      (∀ i, decode w ≠ .ok i) ∧
        step s = closeStep (enter 0#32 0x00#8 { u with i0 := s.i0 + 8#32 }) ∧
        (∀ t, step s = .next t → t.ie1 = s.i0 + 8#32) ∧
        (entryRegion u.plat u.ivtr = .ram → u.mem.readWord u.ivtr ≠ 0#32 →
          ∃ t, step s = .next t ∧ t.i0 = u.mem.readWord u.ivtr ∧ t.ie0 = 0x00#8)

/-- The trap: an instruction that began with T set and entered no interrupt is followed by `BRK` from the state it left;
an instruction that entered one, or began with T clear, is not (60_exceptions.md section 4; decision D25). -/
def Obligations.TracedInstructionIsFollowedByBrk : Prop :=
  ∀ (s u t : State) (w : InstrWord) (i : Instr), s.run = .running →
    acceptedIrq (presentedIrq s) (beginStep s) = none → memFetch (beginStep s) s.i0 = .ok (w, u) → decode w = .ok i →
    exec i { u with i0 := s.i0 + 8#32 } = .next t →
    (s.fr.getLsbD 7 = true → t.intTaken = false → step s = closeStep (enter 4#32 0x00#8 t)) ∧
      (s.fr.getLsbD 7 = false ∨ t.intTaken = true → step s = .next { t with intTaken := false })

/-- A page fault of the fetch is entered with `I0` not advanced (60_exceptions.md section 3; decision D3). -/
def Obligations.FetchFaultSavesTheFetchAddress : Prop :=
  ∀ (s : State) (n : Word) (code : Byte), s.run = .running → acceptedIrq (presentedIrq s) (beginStep s) = none →
    memFetch (beginStep s) s.i0 = .error (.interrupt n code) →
    n = 1#32 ∧ code ∈ [0x00#8, 0x03#8, 0x02#8] ∧ step s = closeStep (enter 1#32 code (beginStep s)) ∧
      ∀ t, step s = .next t → t.ie1 = s.i0

/-- An external interrupt presented with I set is taken instead of an instruction, running or halted; with I clear what
is presented makes no difference (60_exceptions.md sections 1 and 4; decisions D24, D33, logs 19, 20). None is taken exactly
where none is presented at this boundary or I is clear, and then a running processor fetches and executes. -/
def Obligations.ExternalInterruptTakenOrMasked : Prop :=
  (∀ (s : State) (n : Word), presentedIrq s = some n → s.fr.getLsbD 5 = true → s.run ≠ .dead →
      step s = closeStep (enter n 0x00#8 (beginStep s))) ∧
    (∀ s : State, s.fr.getLsbD 5 = false →
      step s = step { s with plat := { s.plat with irqInputs := none :: s.plat.irqInputs.tail } }) ∧
    (∀ (s : State) (n : Word), presentedIrq s = some n ↔ ∃ rest, s.plat.irqInputs = some n :: rest) ∧
    (∀ s : State, acceptedIrq (presentedIrq s) (beginStep s) = none ↔ presentedIrq s = none ∨ s.fr.getLsbD 5 = false) ∧
    ∀ s : State, s.run = .running → (presentedIrq s = none ∨ s.fr.getLsbD 5 = false) →
      step s = closeStep (fetchExecute exec (beginStep s))

/-- A dead processor, and a halted one that takes no interrupt, changes nothing (60_exceptions.md section 3,
46_system.md; decisions D27, D33): only the boundary's input is used up. -/
def Obligations.HaltedAndDeadProcessorsWait : Prop :=
  ∀ s : State, (s.run = .dead ∨ (s.run = .halted ∧ acceptedIrq (presentedIrq s) (beginStep s) = none)) →
    step s = .next { s with plat := { s.plat with irqInputs := s.plat.irqInputs.tail }, intTaken := false }

/-! ### Invariants and rules over the whole machine -/

/-- Every step keeps the data invariant: memory in its canonical form, no trace of an entry (20_memory.md section 3;
the form is the model's, log 14). -/
def Obligations.EveryStepKeepsTheDataInvariant : Prop :=
  ∀ s t : State, s.WellFormed → step s = .next t → t.WellFormed

/-- Reset satisfies the data invariant, and leaves the defaults of interrupt entry (10_state.md section 8; decision
D34). -/
def Obligations.ResetIsWellFormedWithDefaults : Prop :=
  State.reset.WellFormed ∧ State.reset.fr = 0x00#8 ∧ State.reset.msr = 0x80000000#32 ∧ State.reset.run = .running ∧
    State.reset.mode = .supervisor

/-- On a platform whose whole physical space is memory or devices no run ever stops: every word is an instruction or
`IOP`, every failed check an interrupt, every failed delivery an `NMI` or the dead state (60_exceptions.md sections 1 to 3,
20_memory.md section 3). -/
def Obligations.FullyBackedPlatformNeverStops : Prop :=
  ∀ (n : Nat) (s : State), s.plat.AllPresent → ∃ t, Sys2Proof.core.run n s = .next t ∧ t.plat.AllPresent

/-- A step from user mode leaves the system registers and I, G, T as they are, or it entered an interrupt, which saved
them and gave control to supervisor mode (10_state.md section 4, 60_exceptions.md section 6). -/
def Obligations.UserModeKeepsSystemState : Prop :=
  ∀ s t : State, s.mode = .user → step s = .next t →
    SameSystemState s t ∨
      (t.msr = 0x80000000#32 ∧ t.fr = 0x00#8 ∧ t.s1 = s.s1 ∧ t.ivtr = s.ivtr ∧ t.tpdr = s.tpdr ∧ t.tsp = s.tsp ∧
        t.ie4 = s.msr ∧ t.ie2 = t.s0 ∧ ∀ f ∈ [Flag.i, Flag.g, Flag.t], getFlag t.ie3 f = s.flag f)

/-- How the mode changes, in an instruction and in a whole step with its fetch, trap and external interrupt: up only by an
interrupt entry, which saves the user `MSR`; down only by `IRET` of a user `IE4` or `MTS` of a user value to `MSR`
(60_exceptions.md section 6, changing mode). -/
def Obligations.ModeChangesOnlyByEntryIretOrMts : Prop :=
  (∀ (i : Instr) (s t : State), s.intTaken = false → exec i s = .next t →
    (s.mode = .user → t.mode = .supervisor → t.intTaken = true ∧ t.msr = 0x80000000#32) ∧
      (s.mode = .supervisor → t.mode = .user →
        (i = .iret ∧ s.ie4.getLsbD 31 = false) ∨
          ∃ (rs : Word) (r : Fin 32), i = .mts 0x2C#8 rs ∧ rs.toNat = r.val ∧ (s.reg r).getLsbD 31 = false)) ∧
    ∀ s t : State, step s = .next t →
      (s.mode = .user → t.mode = .supervisor →
        t.ie4 = s.msr ∧ t.fr = 0x00#8 ∧ t.msr = 0x80000000#32 ∧
          ∃ (n : Word) (c : Byte) (u : State), u.mode = .user ∧ step s = closeStep (enter n c u)) ∧
        (s.mode = .supervisor → t.mode = .user →
          s.run = .running ∧ acceptedIrq (presentedIrq s) (beginStep s) = none ∧
            ∃ (w : InstrWord) (u : State), memFetch (beginStep s) s.i0 = .ok (w, u) ∧
              ((decode w = .ok .iret ∧ s.ie4.getLsbD 31 = false) ∨
                ∃ (rs : Word) (r : Fin 32), decode w = .ok (.mts 0x2C#8 rs) ∧ rs.toNat = r.val ∧
                  (s.reg r).getLsbD 31 = false))

/-- A flag changes only by an instruction the affected-flags column lists it for, by `IRET` or `MTS FR`, or by an
interrupt entry (10_state.md section 4, what writes each flag). So for an instruction, and for a whole step with its fetch,
trap and external interrupt: where the step ran no instruction that lists the flag, the flag is as before, or an entry has
cleared it and saved it in `IE3`. -/
def Obligations.FlagsChangeOnlyAsListed : Prop :=
  (∀ (i : Instr) (s t : State) (f : Flag), s.intTaken = false → exec i s = .next t → t.intTaken = false →
    t.flag f ≠ s.flag f →
    f ∈ listedFlags i) ∧
    ∀ (s t : State) (f : Flag), step s = .next t →
      (∀ (w : InstrWord) (u : State) (i : Instr), s.run = .running →
        acceptedIrq (presentedIrq s) (beginStep s) = none → memFetch (beginStep s) s.i0 = .ok (w, u) →
        decode w = .ok i → f ∉ listedFlags i) →
      t.flag f = s.flag f ∨
        (t.fr = 0x00#8 ∧ t.msr = 0x80000000#32 ∧ getFlag t.ie3 f = s.flag f ∧
          ∃ (n : Word) (c : Byte) (u : State), step s = closeStep (enter n c u))

/-- An instruction that entered an interrupt wrote nothing but what entry writes: no general register, no memory byte, no
port (60_exceptions.md section 3, precision; decision D23). The platform is told at most what reading the IVT gave in a
device window (log 34). -/
def Obligations.InterruptedInstructionWroteNothing : Prop :=
  ∀ (i : Instr) (s t : State), s.intTaken = false → exec i s = .next t → t.intTaken = true →
    ∃ es : List IoEvent, (∀ e ∈ es, ∃ (pa : Word) (b : Byte), e = .memRead pa b ∧ regionOf s.plat pa = .device) ∧
      t = { s with
        ie0 := t.ie0, ie1 := s.i0, ie2 := s.s0, ie3 := s.fr, ie4 := s.msr, fr := 0x00#8, msr := 0x80000000#32,
        run := t.run, i0 := t.i0, intTaken := true, plat := { s.plat with ioLog := es ++ s.plat.ioLog } }

/-- What user mode runs neither depends on `S1` and `TSP` nor changes them: two states that differ only there go to
states that differ only there, by an instruction and by a whole step with its fetch, trap and external interrupt, or stop
alike (60_exceptions.md section 6, what user mode may and may not do). -/
def Obligations.UserModeBlindToKernelStackAndTask : Prop :=
  ∀ (s : State) (a b : Word), s.mode = .user →
    (∀ i : Instr,
      (∀ t, exec i s = .next t → exec i { s with s1 := a, tsp := b } = .next { t with s1 := a, tsp := b }) ∧
        (∀ t, exec i s = .next t → t.s1 = s.s1 ∧ t.tsp = s.tsp) ∧
        ∀ f, exec i s = .fault f → exec i { s with s1 := a, tsp := b } = .fault f) ∧
      (∀ t, step s = .next t →
        step { s with s1 := a, tsp := b } = .next { t with s1 := a, tsp := b } ∧ t.s1 = s.s1 ∧ t.tsp = s.tsp) ∧
      ∀ f, step s = .fault f → step { s with s1 := a, tsp := b } = .fault f

/-- A register field outside its class raises `IPF(0x03)` and nothing is written, in either mode (a privileged
instruction only in supervisor mode) (30_encoding.md section 2, register-field validity; decision D11). -/
def Obligations.IllFormedInstructionRaisesIpf3 : Prop :=
  ∀ (i : Instr) (s : State), i.wellFormed = false →
    (s.mode = .supervisor ∨ ((∀ tgt, i ≠ .kcall tgt) ∧ (∀ src, i ≠ .kpush src) ∧ ∀ rs, i ≠ .kpop rs)) →
    exec i s = enter 2#32 0x03#8 s

/-! ### Interrupt entry and return -/

/-- Interrupt entry: the context saved in `IE0` to `IE4`, `FR` and `MSR` at their defaults, then delivery: `I0` from the
IVT entry at `IVTR + 4n`, whatever present bytes it stands in, a device's too; no stack, `S0`, `S1`, `IVTR`, `TPDR`, `TSP`,
general register or byte of memory changes (60_exceptions.md sections 2 to 4). And the vector each cause is entered by:
`IOP` 0 for every word that is no instruction, one in a disallowed mode too (decision D10); `PF` 1, `IPF` 2, `BRK` 4, `SWI`
its own; a device the one it presents with I set (decision D24), which stands in the model's field of log 19. An entry in a device window is
the model's: its bytes are free values (log 16), told to the platform byte by byte (log 34). -/
def Obligations.EntrySavesContextAndJumps : Prop :=
  (∀ (n : Word) (code : Byte) (s : State),
    let saved : State :=
      { s with
        ie0 := code, ie1 := s.i0, ie2 := s.s0, ie3 := s.fr, ie4 := s.msr, fr := 0x00#8, msr := 0x80000000#32,
        run := .running, intTaken := true }
    let ea := s.ivtr + 4#32 * n
    enter n code s = deliver n saved ∧
      (entryRegion s.plat ea = .ram → s.mem.readWord ea ≠ 0#32 →
        enter n code s = .next { saved with i0 := s.mem.readWord ea }) ∧
      (entryRegion s.plat ea ≠ .absent → physWord s ea ≠ 0#32 →
        enter n code s = .next
          { saved with
            i0 := physWord s ea
            plat := { s.plat with ioLog := readEvents s ea ++ s.plat.ioLog } })) ∧
    (∀ (s u : State) (w : InstrWord) (e : DecodeError), memFetch s s.i0 = .ok (w, u) → decode w = .error e →
      fetchExecute exec s = enter 0#32 0x00#8 { u with i0 := s.i0 + 8#32 }) ∧
    (∀ (code : Byte) (s : State), finish s (.error (pageFault code)) = enter 1#32 code s) ∧
    (∀ (code : Byte) (s : State), finish s (.error (integrityFault code)) = enter 2#32 code s) ∧
    (∀ s : State, s.intTaken = false → trapAfter true (.next s) = enter 4#32 0x00#8 s) ∧
    (∀ (n : Word) (s : State), exec (.swi (.imm n)) s = enter n 0x00#8 s) ∧
    ∀ (n : Word) (s : State), presentedIrq s = some n → s.flag .i = true → s.run = .running →
      step s = closeStep (enter n 0x00#8 (beginStep s))

/-- A delivery that fails (60_exceptions.md section 3; decisions D27, D28; that vector 3 is read once is log 37): the entry
absent gives `NMI(0x00)`, the entry zero `NMI(0x01)`, through vector 3, with `IE1` to `IE4` as the first entry saved them;
where vector 3 is absent or zero too, the processor is dead. Entries in memory tell the platform nothing; the bytes of
entries in device windows are free values (log 16), told to the platform byte by byte (log 34), which is the model's. -/
def Obligations.FailedDeliveryIsNmiOrDeath : Prop :=
  ∀ (n : Word) (code c : Byte) (s : State) (es : List IoEvent),
    let ea := s.ivtr + 4#32 * n
    let nmi := s.ivtr + 12#32
    ((entryRegion s.plat ea = .absent ∧ c = 0x00#8 ∧ es = []) ∨
      (entryRegion s.plat ea ≠ .absent ∧ physWord s ea = 0#32 ∧ c = 0x01#8 ∧ es = readEvents s ea)) →
    let saved : State :=
      { s with
        ie0 := c, ie1 := s.i0, ie2 := s.s0, ie3 := s.fr, ie4 := s.msr, fr := 0x00#8, msr := 0x80000000#32, run := .running,
        intTaken := true, plat := { s.plat with ioLog := es ++ s.plat.ioLog } }
    let told := { s.plat with ioLog := readEvents saved nmi ++ (es ++ s.plat.ioLog) }
    (entryRegion s.plat nmi ≠ .absent → physWord saved nmi ≠ 0#32 →
        enter n code s = .next { saved with i0 := physWord saved nmi, plat := told }) ∧
      (entryRegion s.plat nmi = .absent → enter n code s = .next { saved with run := .dead }) ∧
      (entryRegion s.plat nmi ≠ .absent → physWord saved nmi = 0#32 →
        enter n code s = .next { saved with run := .dead, plat := told }) ∧
      ∀ a, entryRegion s.plat a = .ram → physWord saved a = s.mem.readWord a ∧ readEvents saved a = []

/-- `IRET` in supervisor mode restores `S0`, `FR`, `MSR`, `I0` from `IE2`, `IE3`, `IE4`, `IE1` and changes nothing else
(46_system.md; what it restores is decision D39). -/
def Obligations.IretRestoresTheSavedState : Prop :=
  ∀ s : State, s.mode = .supervisor →
    exec .iret s = .next { s with s0 := s.ie2, fr := s.ie3, msr := s.ie4, i0 := s.ie1 }

/-- The five privileged instructions raise `IPF(0x00)` in user mode, whatever their operands, with nothing written
(60_exceptions.md section 6). `HLT`, `SWI`, `IN` and `OUT` are not privileged: `HLT` halts (decision D33), `SWI` enters its
vector (decision D38), and `IN` and `OUT` of a port that the model's field of log 17 opens to user mode (decision D32)
complete and enter no interrupt; of any other port they raise `IPF(0x01)`. -/
def Obligations.PrivilegedInstructionsFaultInUserMode : Prop :=
  ∀ s : State, s.mode = .user →
    (∀ tgt, exec (.kcall tgt) s = enter 2#32 0x00#8 s) ∧ (∀ src, exec (.kpush src) s = enter 2#32 0x00#8 s) ∧
      (∀ rs, exec (.kpop rs) s = enter 2#32 0x00#8 s) ∧ exec .kret s = enter 2#32 0x00#8 s ∧
      exec .iret s = enter 2#32 0x00#8 s ∧
      exec .hlt s = .next { s with run := .halted } ∧
      (∀ n, exec (.swi (.imm n)) s = enter n 0x00#8 s) ∧
      (∀ (rd : BitVec 8) (p : Word), rd.toNat < 32 → inRanges s.plat.userPorts p.toNat = true →
        ∀ i ∈ [Instr.portIn rd (.imm p), .portOut rd (.imm p)],
          ∃ t, exec i s = .next t ∧ t.intTaken = s.intTaken ∧ t.msr = s.msr ∧ t.i0 = s.i0) ∧
      ∀ (rd : BitVec 8) (p : Word), rd.toNat < 32 → inRanges s.plat.userPorts p.toNat = false →
        ∀ i ∈ [Instr.portIn rd (.imm p), .portOut rd (.imm p)], exec i s = enter 2#32 0x01#8 s

/-- `SWI` completes by entering its vector with error code 0 from the state it began in, in either mode and whatever I
is (46_system.md; decision D38): all 32 bits of the operand are the vector, and any present IVT entry that is not zero is
jumped to. The bytes of an entry in a device window are free values (log 16), told to the platform byte by byte (log 34):
the model's choice. -/
def Obligations.SwiEntersItsVector : Prop :=
  ∀ (src : RegImm) (n : Word) (s : State), regImmValue s src = .ok n →
    let ea := s.ivtr + 4#32 * n
    exec (.swi src) s = enter n 0x00#8 s ∧
      (entryRegion s.plat ea ≠ .absent → physWord s ea ≠ 0#32 →
        exec (.swi src) s = .next
          { s with
            ie0 := 0x00#8, ie1 := s.i0, ie2 := s.s0, ie3 := s.fr, ie4 := s.msr, fr := 0x00#8, msr := 0x80000000#32,
            run := .running, intTaken := true, i0 := physWord s ea
            plat := { s.plat with ioLog := readEvents s ea ++ s.plat.ioLog } }) ∧
      (entryRegion s.plat ea = .ram → physWord s ea = s.mem.readWord ea ∧ readEvents s ea = [])

/-! ### Memory and translation -/

/-- Physical accesses (20_memory.md sections 2 and 3). Memory: a byte written reads back and leaves every other byte
alone; so does a word, at any address, wrapping at the top of the space, its low byte at the lowest address (log 1), and
the canonical form is kept (the form is the model's, log 14). `PhysRead32` of present bytes is a word of memory's bytes and
of what the platform is told its devices answered (logs 16, 34); in memory it is the word there. -/
def Obligations.WrittenBytesAndWordsReadBack : Prop :=
  (∀ m : Memory, m.wf = true →
    (∀ (a p : Nat) (b : Byte), (m.write a b).read p = if p = a then b else m.read p) ∧
      (∀ (a : Nat) (b : Byte), a < 2 ^ 32 → (m.write a b).wf = true) ∧
      ∀ pa v : Word, (m.writeWord pa v).readWord pa = v ∧ (m.writeWord pa v).wf = true ∧
        (∀ k : Nat, k < 4 → (m.writeWord pa v).read (pa + BitVec.ofNat 32 k).toNat = v.extractLsb' (8 * k) 8) ∧
        ∀ p, p ∉ [pa.toNat, (pa + 1#32).toNat, (pa + 2#32).toNat, (pa + 3#32).toNat] →
          (m.writeWord pa v).read p = m.read p) ∧
    ∀ (s : State) (pa : Word),
      (entryRegion s.plat pa = .absent → physRead32 s pa = none) ∧
        (entryRegion s.plat pa = .ram → physRead32 s pa = some (s.mem.readWord pa, s)) ∧
        (entryRegion s.plat pa ≠ .absent →
          ∃ b0 b1 b2 b3 : Byte,
            let read := [(pa, b0), (pa + 1#32, b1), (pa + 2#32, b2), (pa + 3#32, b3)]
            (∀ x ∈ read, regionOf s.plat x.1 = .ram → x.2 = s.mem.read x.1.toNat) ∧
              physRead32 s pa =
                some (wordOfBytes [b0, b1, b2, b3],
                  { s with
                    plat := { s.plat with
                      ioLog := ((read.filter fun x => decide (regionOf s.plat x.1 = .device)).map fun x =>
                        IoEvent.memRead x.1 x.2).reverse ++ s.plat.ioLog } }))

/-- Translation (20_memory.md section 6; check order and unaligned bases are decision D30, the modes D31, paging
always on log 2): the directory entry at `TPDR + 4 la[31:22]`, the table entry at its value `+ 4 la[21:12]`, the
checks P, reserved bits 1 and 6, U/S, R/W in that order with codes 0, 3, 2, 1, and the frame joined to the offset. An entry
is read wherever its bytes are present, in a device window too (log 16); where a byte of one is absent the walk has no
result and stops, and never gives a value (log 15). -/
def Obligations.TranslationFollowsTheTables : Prop :=
  ∀ (s : State) (kind : AccessKind) (la : Word),
    let pdea := s.tpdr + 4#32 * (la >>> 22)
    let ptea := physWord s pdea + 4#32 * (la >>> 12 &&& 0x3FF#32)
    let pte := physWord s ptea
    (entryRegion s.plat pdea = .absent ∨ entryRegion s.plat ptea = .absent →
      translate s kind la = .error (.fault .absentMemory)) ∧
      (entryRegion s.plat pdea ≠ .absent → entryRegion s.plat ptea ≠ .absent →
        translate s kind la =
          if pte &&& 0x01#32 = 0#32 then .error (.interrupt 1#32 0x00#8)
          else if pte &&& 0x42#32 ≠ 0#32 then .error (.interrupt 1#32 0x03#8)
          else if s.msr.getLsbD 31 = false ∧ pte &&& 0x20#32 = 0#32 then .error (.interrupt 1#32 0x02#8)
          else if kind = .write ∧ pte &&& 0x10#32 = 0#32 then .error (.interrupt 1#32 0x01#8)
          else
            .ok
              { pa := (pte &&& 0xFFFFF000#32) ||| (la &&& 0xFFF#32)
                entry := some { pdea := pdea, ptea := ptea, pte := pte } }) ∧
      ∀ a, entryRegion s.plat a = .ram → physWord s a = s.mem.readWord a

/-- An access that touches a physical address with neither memory nor a device has no result: the walk of a byte whose
earlier bytes translate, the data access or the fetch stops, and so does the instruction or the step that makes it, never
going on with a value (20_memory.md section 3; decision D40, log 15). No step is refused. -/
def Obligations.AccessesToNothingStop : Prop :=
  ∀ s : State,
    (∀ (kind : AccessKind) (la : Word) (k n : Nat), k < n →
      (∀ j, j < k → ∃ w, translate s kind (la + BitVec.ofNat 32 j) = .ok w) →
      translate s kind (la + BitVec.ofNat 32 k) = .error (.fault .absentMemory) →
      translateFrom s kind la n = .error (.fault .absentMemory)) ∧
      (∀ (la v : Word),
        (translateFrom s .read la 4 = .error (.fault .absentMemory) → memRead s la = .error (.fault .absentMemory)) ∧
        (translateFrom s .write la 4 = .error (.fault .absentMemory) → memWrite s la v = .error (.fault .absentMemory)) ∧
        (translateFrom s .fetch la 8 = .error (.fault .absentMemory) → memFetch s la = .error (.fault .absentMemory)) ∧
        ∀ ws : List Walk, (∃ w ∈ ws, regionOf s.plat w.pa = .absent) →
          (translateFrom s .read la 4 = .ok ws → memRead s la = .error (.fault .absentMemory)) ∧
            (translateFrom s .write la 4 = .ok ws → memWrite s la v = .error (.fault .absentMemory)) ∧
            (translateFrom s .fetch la 8 = .ok ws → memFetch s la = .error (.fault .absentMemory))) ∧
      (∀ (f : Fault) (a : Word), memRead s a = .error (.fault f) →
        (∀ (rd : BitVec 8) (ea : Target), rd.toNat < 32 → targetValue s ea = .ok a → exec (.ldr rd ea) s = .fault f) ∧
          (∀ rd : BitVec 8, rd.toNat < 32 →
            ∀ i ∈ [Instr.add rd (.addr a), .sub rd (.addr a), .mul rd (.addr a), .div rd (.addr a), .and rd (.addr a),
                .or rd (.addr a), .xor rd (.addr a), .lsl rd (.addr a), .lsr rd (.addr a), .cmp rd (.addr a),
                .mov rd (.addr a)],
              exec i s = .fault f) ∧
          (a = s.s0 → exec .ret s = .fault f ∧ ∀ rs : Word, rs.toNat < 32 → exec (.pop rs) s = .fault f) ∧
          (a = s.s1 → s.mode = .supervisor →
            exec .kret s = .fault f ∧ ∀ rs : Word, rs.toNat < 32 → exec (.kpop rs) s = .fault f)) ∧
      (∀ (f : Fault) (a v : Word), memWrite s a v = .error (.fault f) →
        (∀ (rd : BitVec 8) (d : Fin 32) (ea : Target), rd.toNat = d.val → v = s.reg d → targetValue s ea = .ok a →
            exec (.str rd ea) s = .fault f) ∧
          (a = pushAddr s .user →
            (∀ (tgt : Target) (t : Word), targetValue s tgt = .ok t → v = s.i0 → exec (.call tgt) s = .fault f) ∧
              ∀ src : RegImm, regImmValue s src = .ok v → exec (.push src) s = .fault f) ∧
          (a = pushAddr s .kernel → s.mode = .supervisor →
            (∀ (tgt : Target) (t : Word), targetValue s tgt = .ok t → v = s.i0 → exec (.kcall tgt) s = .fault f) ∧
              ∀ src : RegImm, regImmValue s src = .ok v → exec (.kpush src) s = .fault f)) ∧
      (∀ f : Fault, s.run = .running → acceptedIrq (presentedIrq s) (beginStep s) = none →
        memFetch (beginStep s) s.i0 = .error (.fault f) → step s = .fault f) ∧
      ∀ r : Refusal, step s ≠ .refused r

/-- An access of four bytes, and a fetch of eight, translates each on its own, in ascending order modulo 2^32, and where all
of them lead to memory or to device windows it completes (20_memory.md sections 1 to 4; decisions D1, D3, D4). A read gives
the word in those bytes; a fetch the instruction word in them, the byte at the lowest address its bits 7 to 0 (log 1); a
write leaves its byte in each of those that are memory, whatever the others are, and changes no other byte of memory, none
at all where all four are a device's; what devices answer or are given is told to the platform byte by byte (logs 16, 34); nothing else changes but
page table entries the access used. An access to memory through tables in memory tells the platform nothing. -/
def Obligations.MappedAccessesComplete : Prop :=
  ∀ s : State,
    let present (ws : List Walk) := ∀ w ∈ ws, regionOf s.plat w.pa ≠ .absent
    let inMemory (ws : List Walk) := ∀ w ∈ ws, regionOf s.plat w.pa = .ram
    let silent (ws : List Walk) (u : State) := TablesInMemory s.plat ws → inMemory ws → u.plat.ioLog = s.plat.ioLog
    (∀ (la v : Word) (w0 w1 w2 w3 : Walk), present [w0, w1, w2, w3] →
      let ws := [w0, w1, w2, w3]
      (translate s .read la = .ok w0 → translate s .read (la + 1#32) = .ok w1 → translate s .read (la + 2#32) = .ok w2 →
        translate s .read (la + 3#32) = .ok w3 →
        translateFrom s .read la 4 = .ok ws ∧
          ∃ (bs : List Byte) (m u : State), memRead s la = .ok (wordOfBytes bs, u) ∧ Marked ws s m ∧ Transfers ws m bs u ∧
            AccessFrame ws [] s u ∧ LoadedWord ws u (wordOfBytes bs) ∧ silent ws u) ∧
        (translate s .write la = .ok w0 → translate s .write (la + 1#32) = .ok w1 →
          translate s .write (la + 2#32) = .ok w2 → translate s .write (la + 3#32) = .ok w3 →
          translateFrom s .write la 4 = .ok ws ∧
            ∃ m u : State, memWrite s la v = .ok u ∧ Marked ws s m ∧ Stores ws m (wordBytes v) u ∧
              (s.mem.wf = true → m.mem.wf = true) ∧
              AccessFrame ws (walkBytes ws) s u ∧ StoredWord ws s u v ∧ silent ws u)) ∧
      ∀ (la : Word) (ws : List Walk), ws.length = 8 → present ws →
        (∀ (k : Nat) (w : Walk), ws[k]? = some w → translate s .fetch (la + BitVec.ofNat 32 k) = .ok w) →
        translateFrom s .fetch la 8 = .ok ws ∧
          ∃ (bs : List Byte) (m u : State), memFetch s la = .ok (instrOfBytes bs, u) ∧ Marked ws s m ∧ Transfers ws m bs u ∧
            AccessFrame ws [] s u ∧ (inMemory ws → bs = (walkBytes ws).map u.mem.read) ∧
            (∀ (k : Nat) (b : Byte), bs[k]? = some b → (instrOfBytes bs).extractLsb' (8 * k) 8 = b) ∧ silent ws u

/-- What an access leaves in the page table entries it used (20_memory.md sections 3 and 6; the Accessed bit is log 3, the
Dirty bit, whichever of the two it is, log 4): each gains A, may gain D, and loses nothing. First, a data read within one
page of memory is one translation in effect, and the word is read from the memory so marked. Then, for every read, fetch
and write, over two pages too: the frame, and what each entry in memory holds afterwards where no other entry used and no
stored byte overlaps it. -/
def Obligations.AccessesMarkTheirEntries : Prop :=
  (∀ (s : State) (la pa pdea ptea pte : Word), s.mem.wf = true →
    translate s .read la = .ok { pa := pa, entry := some { pdea := pdea, ptea := ptea, pte := pte } } →
    (la &&& 0xFFF#32).toNat ≤ 0xFFC → entryRegion s.plat pa = .ram → entryRegion s.plat ptea = .ram →
    ∃ (e : Word) (q : Platform), MarkedValue pte e ∧ SamePlatformMap s.plat q ∧
      memRead s la =
        .ok ((s.mem.writeWord ptea e).readWord pa, { s with mem := s.mem.writeWord ptea e, plat := q })) ∧
    ∀ (s t : State) (la : Word) (ws : List Walk) (stored : List Nat),
      ((∃ v, translateFrom s .read la 4 = .ok ws ∧ memRead s la = .ok (v, t) ∧ stored = []) ∨
        (∃ w, translateFrom s .fetch la 8 = .ok ws ∧ memFetch s la = .ok (w, t) ∧ stored = []) ∨
        (∃ v, translateFrom s .write la 4 = .ok ws ∧ memWrite s la v = .ok t ∧ stored = walkBytes ws)) →
      AccessFrame ws stored s t ∧
        (s.mem.wf = true →
          ∀ e ∈ usedEntries ws, entryRegion s.plat e.ptea = .ram →
            (∀ e' ∈ usedEntries ws, e'.ptea = e.ptea ∨ ∀ a ∈ wordAddrs e.ptea, a ∉ wordAddrs e'.ptea) →
            (∀ a ∈ wordAddrs e.ptea, a ∉ stored) →
            e.pte = s.mem.readWord e.ptea ∧ MarkedValue e.pte (t.mem.readWord e.ptea))

/-! ### Operands -/

/-- The operand of `ADD` to `MOV` (R112): `R[rs]`, `i`, or the word read at linear address `i`, which may page-fault; a
number above 31 is no register. -/
def Obligations.OperandFormsOfArithmetic : Prop :=
  ∀ s : State,
    (∀ (rs : Word) (r : Fin 32), rs.toNat = r.val → sourceValue s (.reg rs) = .ok (s.reg r, s)) ∧
      (∀ rs : Word, 32 ≤ rs.toNat → sourceValue s (.reg rs) = .error (.interrupt 2#32 0x03#8)) ∧
      (∀ i : Word, sourceValue s (.imm i) = .ok (i, s)) ∧
      (∀ i : Word, sourceValue s (.addr i) = memRead s i) ∧
      (∀ (i v : Word) (u : State) (ws : List Walk), translateFrom s .read i 4 = .ok ws → memRead s i = .ok (v, u) →
        AccessFrame ws [] s u ∧ LoadedWord ws u v) ∧
      ∀ (i n : Word) (c : Byte), memRead s i = .error (.interrupt n c) → n = 1#32 ∧ c ∈ [0x00#8, 0x03#8, 0x02#8]

/-- The address operand of `LDR` to `KCALL` (30_encoding.md section 2; that `ro` names a register is decision D8): base,
plus `R[ro]` modulo 2^32 where the mode has an offset; a number above 31 in a used field is `IPF(0x03)`. -/
def Obligations.TargetForms : Prop :=
  ∀ (s : State) (rs i : Word) (ro : BitVec 8),
    (∀ r : Fin 32, rs.toNat = r.val → targetValue s (.reg rs) = .ok (s.reg r)) ∧
      targetValue s (.imm i) = .ok i ∧
      (∀ r o : Fin 32, rs.toNat = r.val → ro.toNat = o.val →
        targetValue s (.regOff rs ro) = .ok (s.reg r + s.reg o)) ∧
      (∀ o : Fin 32, ro.toNat = o.val → targetValue s (.immOff i ro) = .ok (i + s.reg o)) ∧
      (32 ≤ rs.toNat → targetValue s (.reg rs) = .error (.interrupt 2#32 0x03#8)) ∧
      (32 ≤ rs.toNat ∨ 32 ≤ ro.toNat → targetValue s (.regOff rs ro) = .error (.interrupt 2#32 0x03#8)) ∧
      (32 ≤ ro.toNat → targetValue s (.immOff i ro) = .error (.interrupt 2#32 0x03#8))

/-! ### Arithmetic, logic, shift, compare, move -/

/-- `ADD` (40_alu.md section 2; C and V are decision D13): the sum modulo 2^32; C the carry out, V both signs equal
and the result's different, E, I, G, T kept. -/
def Obligations.AddResultAndFlags : Prop :=
  ∀ (s u : State) (rd : BitVec 8) (d : Fin 32) (src : Source) (b : Word), rd.toNat = d.val →
    sourceValue s src = .ok (b, u) →
    let a := s.reg d
    let r := a + b
    ∃ f, ArithWrites (.add rd src) d src s u r f ∧
      FlagsAre f (decide (2 ^ 32 ≤ a.toNat + b.toNat)) (decide (r = 0#32)) r.msb
        (decide (a.msb = b.msb ∧ r.msb ≠ a.msb)) (s.fr.getLsbD 4) (s.fr.getLsbD 5) (s.fr.getLsbD 6) (s.fr.getLsbD 7)

/-- `SUB` (40_alu.md section 2; V is decision D14): C is kept. -/
def Obligations.SubResultAndFlags : Prop :=
  ∀ (s u : State) (rd : BitVec 8) (d : Fin 32) (src : Source) (b : Word), rd.toNat = d.val →
    sourceValue s src = .ok (b, u) →
    let a := s.reg d
    let r := a - b
    ∃ f, ArithWrites (.sub rd src) d src s u r f ∧
      FlagsAre f (s.fr.getLsbD 0) (decide (r = 0#32)) r.msb (decide (a.msb ≠ b.msb ∧ r.msb ≠ a.msb))
        (s.fr.getLsbD 4) (s.fr.getLsbD 5) (s.fr.getLsbD 6) (s.fr.getLsbD 7)

/-- `MUL` (40_alu.md section 2; C and V are decision D15): the low 32 bits; C the unsigned product does not fit, V the
signed product does not fit. -/
def Obligations.MulResultAndFlags : Prop :=
  ∀ (s u : State) (rd : BitVec 8) (d : Fin 32) (src : Source) (b : Word), rd.toNat = d.val →
    sourceValue s src = .ok (b, u) →
    let a := s.reg d
    let r := a * b
    ∃ f, ArithWrites (.mul rd src) d src s u r f ∧
      FlagsAre f (decide ((a.setWidth 64 * b.setWidth 64).extractLsb' 32 32 ≠ 0#32)) (decide (r = 0#32)) r.msb
        (decide (a.toInt * b.toInt < -(2 ^ 31) ∨ 2 ^ 31 - 1 < a.toInt * b.toInt))
        (s.fr.getLsbD 4) (s.fr.getLsbD 5) (s.fr.getLsbD 6) (s.fr.getLsbD 7)

/-- `DIV` (40_alu.md section 2; decision D16 and log 7): the signed quotient rounded toward zero, -2^31 / -1 wrapping;
by zero E is set and `R[rd]`, Z, S are kept. -/
def Obligations.DivResultAndFlags : Prop :=
  ∀ (s u : State) (rd : BitVec 8) (d : Fin 32) (src : Source) (b : Word), rd.toNat = d.val →
    sourceValue s src = .ok (b, u) →
    let a := s.reg d
    let r := if b = 0#32 then a else a.sdiv b
    ∃ f, ArithWrites (.div rd src) d src s u r f ∧
      FlagsAre f (s.fr.getLsbD 0) (if b = 0#32 then s.fr.getLsbD 1 else decide (r = 0#32))
        (if b = 0#32 then s.fr.getLsbD 2 else r.msb) (s.fr.getLsbD 3) (decide (b = 0#32)) (s.fr.getLsbD 5)
        (s.fr.getLsbD 6) (s.fr.getLsbD 7)

/-- `AND`, `OR`, `XOR` (R145, R146, R147): the bitwise result, Z from it, every other flag kept; a register number above
31 raises `IPF(0x03)` and a page fault of the operand its own code, with nothing written; mode 10 is no instruction. -/
def Obligations.LogicResultsAndFlags : Prop :=
  ∀ (s : State) (rd : BitVec 8) (src : Source),
    (∀ (u : State) (d : Fin 32) (b : Word), rd.toNat = d.val → sourceValue s src = .ok (b, u) →
      let flags (f : Byte) (r : Word) := FlagsAre f (s.fr.getLsbD 0) (decide (r = 0#32)) (s.fr.getLsbD 2)
        (s.fr.getLsbD 3) (s.fr.getLsbD 4) (s.fr.getLsbD 5) (s.fr.getLsbD 6) (s.fr.getLsbD 7)
      (∃ f, ArithWrites (.and rd src) d src s u (s.reg d &&& b) f ∧ flags f (s.reg d &&& b)) ∧
        (∃ f, ArithWrites (.or rd src) d src s u (s.reg d ||| b) f ∧ flags f (s.reg d ||| b)) ∧
        ∃ f, ArithWrites (.xor rd src) d src s u (s.reg d ^^^ b) f ∧ flags f (s.reg d ^^^ b)) ∧
      (∀ i ∈ [Instr.and rd src, .or rd src, .xor rd src],
        (32 ≤ rd.toNat → exec i s = enter 2#32 0x03#8 s) ∧
          ∀ (n : Word) (c : Byte), rd.toNat < 32 → sourceValue s src = .error (.interrupt n c) →
            exec i s = enter n c s) ∧
      DecodesOnlyIn 0x05 [0, 1, 3] ∧ DecodesOnlyIn 0x06 [0, 1, 3] ∧ DecodesOnlyIn 0x07 [0, 1, 3] ∧
      HasOpcode (.and rd src) 0x1400000000000000#64 ∧ HasOpcode (.or rd src) 0x1800000000000000#64 ∧
      HasOpcode (.xor rd src) 0x1C00000000000000#64

/-- `LSL` and `LSR` (40_alu.md section 2; decision D17 and log 8): as many single-bit shifts as all 32 bits of the
operand say, zeros entering, C each time the bit that leaves (bit 31 to the left, bit 0 to the right), so an amount of
0 keeps C. -/
def Obligations.ShiftsAreRepeatedSingleShifts : Prop :=
  ∀ (s u : State) (rd : BitVec 8) (d : Fin 32) (src : Source) (b : Word), rd.toNat = d.val →
    sourceValue s src = .ok (b, u) →
    let left := (fun p : Word × Bool => (p.1 <<< 1, p.1.msb))^[b.toNat] (s.reg d, s.fr.getLsbD 0)
    let right := (fun p : Word × Bool => (p.1 >>> 1, p.1.getLsbD 0))^[b.toNat] (s.reg d, s.fr.getLsbD 0)
    let flags (f : Byte) (p : Word × Bool) := FlagsAre f p.2 (decide (p.1 = 0#32)) (s.fr.getLsbD 2) (s.fr.getLsbD 3)
      (s.fr.getLsbD 4) (s.fr.getLsbD 5) (s.fr.getLsbD 6) (s.fr.getLsbD 7)
    (∃ f, ArithWrites (.lsl rd src) d src s u left.1 f ∧ flags f left) ∧
      ∃ f, ArithWrites (.lsr rd src) d src s u right.1 f ∧ flags f right

/-- `CMP` (40_alu.md section 2; the signed order and E on equality are decision D18 and log 6): no register changes; C
equal, Z either is zero, S both negative, E greater, kept when equal. -/
def Obligations.CmpWritesFlagsOnly : Prop :=
  ∀ (s u : State) (rd : BitVec 8) (d : Fin 32) (src : Source) (b : Word), rd.toNat = d.val →
    sourceValue s src = .ok (b, u) →
    let a := s.reg d
    ∃ f, SourceFrame src s u ∧ exec (.cmp rd src) s = .next { u with fr := f } ∧
      FlagsAre f (decide (a = b)) (decide (a = 0#32 ∨ b = 0#32)) (a.msb && b.msb) (s.fr.getLsbD 3)
        (if a = b then s.fr.getLsbD 4 else b.slt a) (s.fr.getLsbD 5) (s.fr.getLsbD 6) (s.fr.getLsbD 7)

/-- The eleven instructions `ADD` to `MOV` raise `IPF(0x03)` for a register number above 31 and the page fault of the
operand's read, with nothing written; mode 10 is no instruction (40_alu.md section 1; decisions D10, D11, D23). -/
def Obligations.ArithmeticFaultsWriteNothing : Prop :=
  ∀ (s : State) (rd : BitVec 8) (src : Source),
    (∀ i ∈ [Instr.add rd src, .sub rd src, .mul rd src, .div rd src, .and rd src, .or rd src, .xor rd src, .lsl rd src,
        .lsr rd src, .cmp rd src, .mov rd src],
      (32 ≤ rd.toNat → exec i s = enter 2#32 0x03#8 s) ∧
        ∀ (n : Word) (c : Byte), rd.toNat < 32 → sourceValue s src = .error (.interrupt n c) →
          exec i s = enter n c s ∧ ((n = 2#32 ∧ c = 0x03#8) ∨ (n = 1#32 ∧ c ∈ [0x00#8, 0x03#8, 0x02#8]))) ∧
      ∀ op, 0x01 ≤ op → op ≤ 0x0B → DecodesOnlyIn op [0, 1, 3]

/-- `MOV` (R151): the operand into `R[rd]`, Z and S from it, every other flag kept; faults as for the logic
instructions. -/
def Obligations.MovCopiesTheOperand : Prop :=
  ∀ (s : State) (rd : BitVec 8) (src : Source),
    (∀ (u : State) (d : Fin 32) (b : Word), rd.toNat = d.val → sourceValue s src = .ok (b, u) →
      ∃ f, ArithWrites (.mov rd src) d src s u b f ∧
        FlagsAre f (s.fr.getLsbD 0) (decide (b = 0#32)) b.msb (s.fr.getLsbD 3) (s.fr.getLsbD 4) (s.fr.getLsbD 5)
          (s.fr.getLsbD 6) (s.fr.getLsbD 7)) ∧
      (32 ≤ rd.toNat → exec (.mov rd src) s = enter 2#32 0x03#8 s) ∧
      (∀ (n : Word) (c : Byte), rd.toNat < 32 → sourceValue s src = .error (.interrupt n c) →
        exec (.mov rd src) s = enter n c s) ∧
      DecodesOnlyIn 0x0B [0, 1, 3] ∧ HasOpcode (.mov rd src) 0x2C00000000000000#64

/-! ### Special registers -/

/-- `ZEXT` (41_special_register_moves.md; which registers and the extension are decision D19 and log 9): `FR` and `PRR`,
which is 0x41, in either mode; `IE0` and `IE3` in supervisor mode; every other number raises `IPF(0x03)`; nothing but
`R[rd]` changes. -/
def Obligations.ZextReadsTheByteRegisters : Prop :=
  ∀ (s : State) (rd : BitVec 8) (d : Fin 32) (rs : Word), rd.toNat = d.val →
    exec (.zext rd rs) s =
      let write (b : Byte) : Host.Outcome State Fault Refusal :=
        .next { s with regs := s.regs.set d.val (BitVec.ofNat 32 b.toNat) d.isLt }
      if rs = 0x23#32 then write s.fr
      else if rs = 0x2B#32 then write 0x41#8
      else if rs = 0x25#32 ∧ s.mode = .supervisor then write s.ie0
      else if rs = 0x28#32 ∧ s.mode = .supervisor then write s.ie3
      else enter 2#32 0x03#8 s

/-- `MFS` (41_special_register_moves.md; the faults are decision D20): `S0` and `MSR` in either mode, the other 32-bit
special registers in supervisor mode; every other number, `I0` and the 8-bit registers among them, raises `IPF(0x03)`;
nothing but `R[rd]` changes (`IE4` has no number, log 10). -/
def Obligations.MfsReadsTheWordRegisters : Prop :=
  ∀ (s : State) (rd : BitVec 8) (d : Fin 32) (rs : Word), rd.toNat = d.val →
    exec (.mfs rd rs) s =
      let write (v : Word) : Host.Outcome State Fault Refusal := .next { s with regs := s.regs.set d.val v d.isLt }
      if rs = 0x21#32 then write s.s0
      else if rs = 0x2C#32 then write s.msr
      else if s.mode = .user then enter 2#32 0x03#8 s
      else if rs = 0x22#32 then write s.s1
      else if rs = 0x24#32 then write s.ivtr
      else if rs = 0x26#32 then write s.ie1
      else if rs = 0x27#32 then write s.ie2
      else if rs = 0x29#32 then write s.tpdr
      else if rs = 0x2A#32 then write s.tsp
      else enter 2#32 0x03#8 s

/-- `MTS` (41_special_register_moves.md; the codes are decision D20 and log 11): `S0` in either mode, the other
special registers in supervisor mode, an 8-bit one taking the low byte; from user mode `IPF(0x04)`; `I0`, `PRR` and
numbers of no special register `IPF(0x03)` in both, every number above 0x2C among them because `IE4` has none (log 10,
the model's choice of `IE4_REGNUM`); nothing but the destination changes. -/
def Obligations.MtsWritesTheSpecialRegister : Prop :=
  ∀ (s : State) (rd : BitVec 8) (rs : Word) (r : Fin 32), rs.toNat = r.val →
    let v := s.reg r
    let b := BitVec.ofNat 8 (s.reg r).toNat
    exec (.mts rd rs) s =
      if rd = 0x21#8 then .next { s with s0 := v }
      else if rd.toNat < 0x22 ∨ rd = 0x2B#8 ∨ 0x2C < rd.toNat then enter 2#32 0x03#8 s
      else if s.mode = .user then enter 2#32 0x04#8 s
      else if rd = 0x22#8 then .next { s with s1 := v }
      else if rd = 0x23#8 then .next { s with fr := b }
      else if rd = 0x24#8 then .next { s with ivtr := v }
      else if rd = 0x25#8 then .next { s with ie0 := b }
      else if rd = 0x26#8 then .next { s with ie1 := v }
      else if rd = 0x27#8 then .next { s with ie2 := v }
      else if rd = 0x28#8 then .next { s with ie3 := b }
      else if rd = 0x29#8 then .next { s with tpdr := v }
      else if rd = 0x2A#8 then .next { s with tsp := v }
      else .next { s with msr := v }

/-! ### Loads and stores -/

/-- `LDR` (R181): the word at the effective address into `R[rd]`, Z and S from it, every other flag kept; of memory
only page table entries the read used may differ; a bad register number raises `IPF(0x03)`, a page fault of the read
its code, with nothing written. -/
def Obligations.LdrLoadsTheWord : Prop :=
  ∀ (s : State) (rd : BitVec 8) (d : Fin 32) (ea : Target), rd.toNat = d.val →
    (∀ (a v : Word) (u : State) (ws : List Walk), targetValue s ea = .ok a → translateFrom s .read a 4 = .ok ws →
      memRead s a = .ok (v, u) →
      ∃ f, exec (.ldr rd ea) s = .next { u with regs := u.regs.set d.val v d.isLt, fr := f } ∧ AccessFrame ws [] s u ∧
        LoadedWord ws u v ∧
        FlagsAre f (s.fr.getLsbD 0) (decide (v = 0#32)) v.msb (s.fr.getLsbD 3) (s.fr.getLsbD 4) (s.fr.getLsbD 5)
          (s.fr.getLsbD 6) (s.fr.getLsbD 7)) ∧
      (∀ (a n : Word) (c : Byte), targetValue s ea = .ok a → memRead s a = .error (.interrupt n c) →
        FaultsWith (.ldr rd ea) s [0x00#8, 0x03#8, 0x02#8] n c) ∧
      (∀ e, targetValue s ea = .error e → exec (.ldr rd ea) s = enter 2#32 0x03#8 s) ∧
      (∀ r : BitVec 8, 32 ≤ r.toNat → exec (.ldr r ea) s = enter 2#32 0x03#8 s) ∧
      HasOpcode (.ldr rd ea) 0x3C00000000000000#64

/-- `STR` (42_load_store.md; the place of `rd` in the word is decision D5): `R[rd]` to the four bytes at the effective
address, in the byte order of log 1; every other byte but those of page table entries the write used, and every register
and flag, is unchanged; a page fault is entered with nothing written. -/
def Obligations.StrStoresTheWord : Prop :=
  ∀ (s : State) (rd : BitVec 8) (d : Fin 32) (ea : Target) (a : Word), rd.toNat = d.val → targetValue s ea = .ok a →
    (∀ (u : State) (ws : List Walk), translateFrom s .write a 4 = .ok ws → memWrite s a (s.reg d) = .ok u →
      exec (.str rd ea) s = .next u ∧ AccessFrame ws (walkBytes ws) s u ∧ StoredWord ws s u (s.reg d)) ∧
      (∀ (n : Word) (c : Byte), memWrite s a (s.reg d) = .error (.interrupt n c) →
        FaultsWith (.str rd ea) s [0x00#8, 0x03#8, 0x02#8, 0x01#8] n c)

/-! ### Control transfer -/

/-- `JMP` (R191): `I0` becomes the target and nothing else changes; a bad register number raises `IPF(0x03)`. -/
def Obligations.JmpJumps : Prop :=
  ∀ (tgt : Target) (s : State),
    (∀ t, targetValue s tgt = .ok t → exec (.jmp tgt) s = .next { s with i0 := t }) ∧
      (∀ e, targetValue s tgt = .error e → exec (.jmp tgt) s = enter 2#32 0x03#8 s) ∧
      HasOpcode (.jmp tgt) 0x4400000000000000#64

/-- `JAR` (43_control_transfer.md section 2; reading before writing is decision D23): the target is computed from the
old registers, `R31` takes the address of the next instruction, and nothing else changes. -/
def Obligations.JarSavesTheReturnAddress : Prop :=
  ∀ (tgt : Target) (s : State) (t : Word), targetValue s tgt = .ok t →
    exec (.jar tgt) s = .next { s with regs := s.regs.set 31 s.i0 (by decide), i0 := t }

/-- The conditional branches (43_control_transfer.md section 3; that `BNZ` asks for Z clear is the resolution of conflict
C5, the spec's reading and not the source's letter): each goes to the target
exactly when its one flag is as it asks, else on; no flag or register changes; the register check is made either way. -/
def Obligations.BranchesTestOneFlag : Prop :=
  ∀ (tgt : Target) (s : State),
    (∀ t, targetValue s tgt = .ok t →
      let go (b : Bool) : Host.Outcome State Fault Refusal := .next { s with i0 := if b then t else s.i0 }
      exec (.beq tgt) s = go (s.fr.getLsbD 0) ∧ exec (.bne tgt) s = go (!s.fr.getLsbD 0) ∧
        exec (.bz tgt) s = go (s.fr.getLsbD 1) ∧ exec (.bnz tgt) s = go (!s.fr.getLsbD 1) ∧
        exec (.bg tgt) s = go (s.fr.getLsbD 4) ∧ exec (.bl tgt) s = go (!s.fr.getLsbD 4)) ∧
      (∀ e, targetValue s tgt = .error e →
        ∀ i ∈ [Instr.beq tgt, .bne tgt, .bz tgt, .bnz tgt, .bg tgt, .bl tgt], exec i s = enter 2#32 0x03#8 s) ∧
      HasOpcode (.beq tgt) 0x4C00000000000000#64 ∧ HasOpcode (.bne tgt) 0x5000000000000000#64 ∧
      HasOpcode (.bz tgt) 0x5400000000000000#64 ∧ HasOpcode (.bnz tgt) 0x5800000000000000#64 ∧
      HasOpcode (.bg tgt) 0x5C00000000000000#64 ∧ HasOpcode (.bl tgt) 0x6000000000000000#64

/-- `CALL` (R199): the return address is stored at the new top of the user stack, `S0` moves there, `I0` becomes the
target; in either mode; a bad register number or a page fault of the push changes nothing. -/
def Obligations.CallPushesTheReturnAddress : Prop :=
  ∀ (tgt : Target) (s : State),
    (∀ (t : Word) (u : State) (ws : List Walk), targetValue s tgt = .ok t →
      translateFrom s .write (pushAddr s .user) 4 = .ok ws → memWrite s (pushAddr s .user) s.i0 = .ok u →
      exec (.call tgt) s = .next { u with s0 := pushAddr s .user, i0 := t } ∧
        AccessFrame ws (walkBytes ws) s u ∧ StoredWord ws s u s.i0) ∧
      (∀ (t n : Word) (c : Byte), targetValue s tgt = .ok t →
        memWrite s (pushAddr s .user) s.i0 = .error (.interrupt n c) →
        FaultsWith (.call tgt) s [0x00#8, 0x03#8, 0x02#8, 0x01#8] n c) ∧
      (∀ e, targetValue s tgt = .error e → exec (.call tgt) s = enter 2#32 0x03#8 s) ∧
      HasOpcode (.call tgt) 0x6400000000000000#64

/-- `KCALL` (43_control_transfer.md section 4; the direction of `S1` is decision D22 and log 5): as `CALL` on the kernel
stack, in supervisor mode. -/
def Obligations.KcallPushesOnTheKernelStack : Prop :=
  ∀ (tgt : Target) (s : State), s.mode = .supervisor →
    (∀ (t : Word) (u : State) (ws : List Walk), targetValue s tgt = .ok t →
      translateFrom s .write (pushAddr s .kernel) 4 = .ok ws → memWrite s (pushAddr s .kernel) s.i0 = .ok u →
      exec (.kcall tgt) s = .next { u with s1 := pushAddr s .kernel, i0 := t } ∧
        AccessFrame ws (walkBytes ws) s u ∧ StoredWord ws s u s.i0) ∧
      (∀ (t n : Word) (c : Byte), targetValue s tgt = .ok t →
        memWrite s (pushAddr s .kernel) s.i0 = .error (.interrupt n c) →
        FaultsWith (.kcall tgt) s [0x00#8, 0x03#8, 0x02#8, 0x01#8] n c)

/-- `RET` and `KRET` (R201, R202): the word at the stack pointer into `I0`, and the pointer moves off it; `KRET` raises
`IPF(0x00)` in user mode; a page fault of the pop changes nothing. -/
def Obligations.ReturnsPopAndJump : Prop :=
  ∀ s : State,
    (∀ (v : Word) (u : State) (ws : List Walk), translateFrom s .read s.s0 4 = .ok ws → memRead s s.s0 = .ok (v, u) →
      exec .ret s = .next { u with s0 := popNext s .user, i0 := v } ∧
        AccessFrame ws [] s u ∧ LoadedWord ws u v) ∧
      (∀ (n : Word) (c : Byte), memRead s s.s0 = .error (.interrupt n c) →
        FaultsWith .ret s [0x00#8, 0x03#8, 0x02#8] n c) ∧
      (∀ (v : Word) (u : State) (ws : List Walk), s.mode = .supervisor → translateFrom s .read s.s1 4 = .ok ws →
        memRead s s.s1 = .ok (v, u) →
        exec .kret s = .next { u with s1 := popNext s .kernel, i0 := v } ∧
        AccessFrame ws [] s u ∧ LoadedWord ws u v) ∧
      (∀ (n : Word) (c : Byte), s.mode = .supervisor → memRead s s.s1 = .error (.interrupt n c) →
        FaultsWith .kret s [0x00#8, 0x03#8, 0x02#8] n c) ∧
      (s.mode = .user → exec .kret s = enter 2#32 0x00#8 s) ∧
      HasOpcode .ret 0x8800000000000000#64 ∧ HasOpcode .kret 0x8C00000000000000#64

/-! ### Stacks -/

/-- The stack discipline (44_stack.md section 1; decision D22 and log 5): four-byte elements, the pointer at the top
element; G set grows down, G clear up, for both stacks; a pop right after a push moves the pointer back to where the push
began and, where the pages used are memory and marking the entries the pop uses touches no byte of the element, gives the
value pushed. -/
def Obligations.StackMovesByGrowthFlag : Prop :=
  ∀ s : State,
    pushAddr s .user = (if s.fr.getLsbD 6 then s.s0 - 4#32 else s.s0 + 4#32) ∧
      pushAddr s .kernel = (if s.fr.getLsbD 6 then s.s1 - 4#32 else s.s1 + 4#32) ∧
      popNext s .user = (if s.fr.getLsbD 6 then s.s0 + 4#32 else s.s0 - 4#32) ∧
      popNext s .kernel = (if s.fr.getLsbD 6 then s.s1 + 4#32 else s.s1 - 4#32) ∧
      ∀ (p : StackPtr) (v : Word) (t : State), push s p v = .ok t →
        t.sp p = pushAddr s p ∧ popNext t p = s.sp p ∧
          ∀ ws ws' : List Walk, s.mem.wf = true → translateFrom s .write (pushAddr s p) 4 = .ok ws →
            (∀ w ∈ ws, regionOf s.plat w.pa = .ram) → translateFrom t .read (pushAddr s p) 4 = .ok ws' →
            walkBytes ws' = walkBytes ws → (∀ a ∈ walkBytes ws', a ∉ entryBytes ws') →
            ∃ u, pop t p = .ok (v, u) ∧ u.sp p = s.sp p

/-- `PUSH` and `KPUSH` (R211, R213): the operand stored at the new top, the pointer moved there, nothing else changed;
`KPUSH` raises `IPF(0x00)` in user mode; a page fault of the write, or a bad register number, changes nothing; the modes
10 and 11 are no instruction. -/
def Obligations.PushesStoreAtTheNewTop : Prop :=
  ∀ (src : RegImm) (s : State),
    (∀ (v : Word) (u : State) (ws : List Walk), regImmValue s src = .ok v →
      translateFrom s .write (pushAddr s .user) 4 = .ok ws → memWrite s (pushAddr s .user) v = .ok u →
      exec (.push src) s = .next { u with s0 := pushAddr s .user } ∧
        AccessFrame ws (walkBytes ws) s u ∧ StoredWord ws s u v) ∧
      (∀ (v n : Word) (c : Byte), regImmValue s src = .ok v →
        memWrite s (pushAddr s .user) v = .error (.interrupt n c) →
        FaultsWith (.push src) s [0x00#8, 0x03#8, 0x02#8, 0x01#8] n c) ∧
      (∀ e, regImmValue s src = .error e → exec (.push src) s = enter 2#32 0x03#8 s) ∧
      (s.mode = .supervisor →
        (∀ (v : Word) (u : State) (ws : List Walk), regImmValue s src = .ok v →
          translateFrom s .write (pushAddr s .kernel) 4 = .ok ws → memWrite s (pushAddr s .kernel) v = .ok u →
          exec (.kpush src) s = .next { u with s1 := pushAddr s .kernel } ∧
            AccessFrame ws (walkBytes ws) s u ∧ StoredWord ws s u v) ∧
          (∀ (v n : Word) (c : Byte), regImmValue s src = .ok v →
            memWrite s (pushAddr s .kernel) v = .error (.interrupt n c) →
            FaultsWith (.kpush src) s [0x00#8, 0x03#8, 0x02#8, 0x01#8] n c) ∧
          ∀ e, regImmValue s src = .error e → exec (.kpush src) s = enter 2#32 0x03#8 s) ∧
      (s.mode = .user → exec (.kpush src) s = enter 2#32 0x00#8 s) ∧
      (∀ (rs i : Word) (r : Fin 32), (rs.toNat = r.val → regImmValue s (.reg rs) = .ok (s.reg r)) ∧
        regImmValue s (.imm i) = .ok i ∧
        (32 ≤ rs.toNat → regImmValue s (.reg rs) = .error (.interrupt 2#32 0x03#8))) ∧
      DecodesOnlyIn 0x1B [0, 1] ∧ DecodesOnlyIn 0x1D [0, 1] ∧
      HasOpcode (.push src) 0x6C00000000000000#64 ∧ HasOpcode (.kpush src) 0x7400000000000000#64

/-- `POP` and `KPOP` (R212, R214): the word at the stack pointer into `R[rs]`, the pointer moved off it, no flag
changed; the register number is checked before the access; `KPOP` raises `IPF(0x00)` in user mode; only mode 00 is an
instruction. -/
def Obligations.PopsLoadFromTheTop : Prop :=
  ∀ (rs : Word) (s : State),
    (∀ (d : Fin 32) (v : Word) (u : State) (ws : List Walk), rs.toNat = d.val →
      translateFrom s .read s.s0 4 = .ok ws → memRead s s.s0 = .ok (v, u) →
      exec (.pop rs) s = .next { u with s0 := popNext s .user, regs := u.regs.set d.val v d.isLt } ∧
        AccessFrame ws [] s u ∧ LoadedWord ws u v) ∧
      (∀ (n : Word) (c : Byte), rs.toNat < 32 → memRead s s.s0 = .error (.interrupt n c) →
        FaultsWith (.pop rs) s [0x00#8, 0x03#8, 0x02#8] n c) ∧
      (32 ≤ rs.toNat → exec (.pop rs) s = enter 2#32 0x03#8 s) ∧
      (s.mode = .supervisor →
        (∀ (d : Fin 32) (v : Word) (u : State) (ws : List Walk), rs.toNat = d.val →
          translateFrom s .read s.s1 4 = .ok ws → memRead s s.s1 = .ok (v, u) →
          exec (.kpop rs) s = .next { u with s1 := popNext s .kernel, regs := u.regs.set d.val v d.isLt } ∧
            AccessFrame ws [] s u ∧ LoadedWord ws u v) ∧
          (∀ (n : Word) (c : Byte), rs.toNat < 32 → memRead s s.s1 = .error (.interrupt n c) →
            FaultsWith (.kpop rs) s [0x00#8, 0x03#8, 0x02#8] n c) ∧
          (32 ≤ rs.toNat → exec (.kpop rs) s = enter 2#32 0x03#8 s)) ∧
      (s.mode = .user → exec (.kpop rs) s = enter 2#32 0x00#8 s) ∧
      DecodesOnlyIn 0x1C [0] ∧ DecodesOnlyIn 0x1E [0] ∧
      HasOpcode (.pop rs) 0x7000000000000000#64 ∧ HasOpcode (.kpop rs) 0x7800000000000000#64

/-! ### Increment and decrement, system, ports -/

/-- `INC` and `DEC` (R221, R222): one more or one less modulo 2^32, no flag or anything else changed; a number above 31
raises `IPF(0x03)`; only mode 00 is an instruction. -/
def Obligations.IncAndDecWrapWithoutFlags : Prop :=
  ∀ (rs : Word) (s : State),
    (∀ r : Fin 32, rs.toNat = r.val →
      exec (.inc rs) s = .next { s with regs := s.regs.set r.val (BitVec.ofNat 32 ((s.reg r).toNat + 1)) r.isLt } ∧
        exec (.dec rs) s = .next { s with regs := s.regs.set r.val (s.reg r - 1#32) r.isLt }) ∧
      (32 ≤ rs.toNat → exec (.inc rs) s = enter 2#32 0x03#8 s ∧ exec (.dec rs) s = enter 2#32 0x03#8 s) ∧
      DecodesOnlyIn 0x20 [0] ∧ DecodesOnlyIn 0x21 [0] ∧
      HasOpcode (.inc rs) 0x8000000000000000#64 ∧ HasOpcode (.dec rs) 0x8400000000000000#64

/-- `NOP` (R229): no effect; in a step `I0` is the next instruction's address, and the trap follows when T is set. -/
def Obligations.NopDoesNothing : Prop :=
  encode .nop = 0x9400000000000000#64 ∧ (∀ s, exec .nop s = .next s) ∧
    ∀ (s u : State) (w : InstrWord), s.run = .running → acceptedIrq (presentedIrq s) (beginStep s) = none →
      memFetch (beginStep s) s.i0 = .ok (w, u) → w.extractLsb' 58 6 = 0x25#6 →
      (s.fr.getLsbD 7 = false → step s = .next { u with i0 := s.i0 + 8#32 }) ∧
        (s.fr.getLsbD 7 = true → step s = closeStep (enter 4#32 0x00#8 { u with i0 := s.i0 + 8#32 }))

/-- `HLT` (46_system.md; decision D33): in either mode the processor is halted and nothing else changes. -/
def Obligations.HltHaltsInEitherMode : Prop := ∀ s : State, exec .hlt s = .next { s with run := .halted }

/-- `IN` (47_port_io.md; the platform's answers and its log are the model's fields, log 18): `R[rd]` takes the value
the platform answers for the port, whatever it is: where answers for the port are lined up, the first of them, wherever it stands in the
line, which is used up; no other register and no flag changes, and the platform's log says what was read; a port not
permitted raises `IPF(0x01)`, a bad register number `IPF(0x03)`; modes 10 and 11 are no instruction. Supervisor mode is
permitted every port, user mode exactly those in the ranges of the model's field of log 17. -/
def Obligations.InReadsThePort : Prop :=
  ∀ (s : State) (rd : BitVec 8) (port : RegImm),
    (∀ (d : Fin 32) (p : Word), rd.toNat = d.val → regImmValue s port = .ok p →
      (ioPermitted s p = true →
        ∃ (v : Word) (rest : List (Word × Word)),
          exec (.portIn rd port) s =
            .next
              { s with
                regs := s.regs.set d.val v d.isLt
                plat := { s.plat with portAnswers := rest, ioLog := .portRead p v :: s.plat.ioLog } } ∧
            (∀ pre x more, s.plat.portAnswers = pre ++ (p, x) :: more → (∀ y, (p, y) ∉ pre) → v = x ∧ rest = pre ++ more) ∧
            ((∀ x, (p, x) ∉ s.plat.portAnswers) → rest = s.plat.portAnswers)) ∧
        (ioPermitted s p = false → exec (.portIn rd port) s = enter 2#32 0x01#8 s)) ∧
      (32 ≤ rd.toNat ∨ (∃ e, regImmValue s port = .error e) → exec (.portIn rd port) s = enter 2#32 0x03#8 s) ∧
      (∀ p, s.mode = .supervisor → ioPermitted s p = true) ∧
      (∀ p, s.mode = .user → (ioPermitted s p = true ↔ ∃ r ∈ s.plat.userPorts, r.1 ≤ p.toNat ∧ p.toNat ≤ r.2)) ∧
      DecodesOnlyIn 0x27 [0, 1] ∧ HasOpcode (.portIn rd port) 0x9C00000000000000#64

/-- `OUT` (47_port_io.md; the platform's log is the model's field, log 18): the platform is handed `R[rd]` for the
port and no register of the processor changes; permission (log 17), faults and modes as for `IN`. -/
def Obligations.OutWritesThePort : Prop :=
  ∀ (s : State) (rd : BitVec 8) (port : RegImm),
    (∀ (d : Fin 32) (p : Word), rd.toNat = d.val → regImmValue s port = .ok p →
      (ioPermitted s p = true →
        exec (.portOut rd port) s =
          .next { s with plat := { s.plat with ioLog := .portWrite p (s.reg d) :: s.plat.ioLog } }) ∧
        (ioPermitted s p = false → exec (.portOut rd port) s = enter 2#32 0x01#8 s)) ∧
      (32 ≤ rd.toNat ∨ (∃ e, regImmValue s port = .error e) → exec (.portOut rd port) s = enter 2#32 0x03#8 s) ∧
      (∀ p, s.mode = .supervisor → ioPermitted s p = true) ∧
      (∀ p, s.mode = .user → (ioPermitted s p = true ↔ ∃ r ∈ s.plat.userPorts, r.1 ≤ p.toNat ∧ p.toNat ≤ r.2)) ∧
      DecodesOnlyIn 0x28 [0, 1] ∧ HasOpcode (.portOut rd port) 0xA000000000000000#64
end

