-- ==== Sys2Proof/Laws/Memory.lean ====
section
/-! SUPPORT. Bytes and words, the laws of physical memory, and that every memory operation keeps the canonical form. -/

namespace Sys2Proof

/-- The bytes of a value determine its low bits. -/
theorem valueOf_bytesOf (n v : Nat) : valueOf (bytesOf n v) = v % 256 ^ n := by
  induction n generalizing v with
  | zero => simp [bytesOf, valueOf, Nat.mod_one]
  | succ n ih =>
    simp only [bytesOf, valueOf, ih, BitVec.toNat_ofNat]
    rw [Nat.pow_succ' (m := 256), Nat.mod_mul]

@[simp] theorem length_bytesOf (n v : Nat) : (bytesOf n v).length = n := by
  induction n generalizing v with
  | zero => rfl
  | succ n ih => simp [bytesOf, ih]

/-- The byte order is undone by itself. -/
@[simp] theorem inByteOrder_inByteOrder (bs : List Byte) : inByteOrder (inByteOrder bs) = bs := by
  unfold inByteOrder; cases Config.byteOrder <;> simp

@[simp] theorem length_inByteOrder (bs : List Byte) : (inByteOrder bs).length = bs.length := by
  unfold inByteOrder; cases Config.byteOrder <;> simp

@[simp] theorem length_wordBytes (v : Word) : (wordBytes v).length = 4 := by simp [wordBytes]

@[simp] theorem length_instrBytes (w : InstrWord) : (instrBytes w).length = 8 := by simp [instrBytes]

/-- A word's bytes assemble to the word, in either byte order (R65). -/
@[simp] theorem wordOfBytes_wordBytes (v : Word) : wordOfBytes (wordBytes v) = v := by
  apply BitVec.eq_of_toNat_eq
  have := v.isLt
  simp only [wordOfBytes, wordBytes, inByteOrder_inByteOrder, valueOf_bytesOf, BitVec.toNat_ofNat]
  omega

/-- An instruction's bytes assemble to the instruction, in either byte order (R66). -/
@[simp] theorem instrOfBytes_instrBytes (w : InstrWord) : instrOfBytes (instrBytes w) = w := by
  apply BitVec.eq_of_toNat_eq
  have := w.isLt
  simp only [instrOfBytes, instrBytes, inByteOrder_inByteOrder, valueOf_bytesOf, BitVec.toNat_ofNat]
  omega

namespace Machine

/-! ### One byte -/

/-- A write leaves every other byte alone, in any list. -/
theorem Memory.read_write_other (m : Memory) {a p : Nat} (b : Byte) (h : p ≠ a) : (m.write a b).read p = m.read p := by
  induction m with
  | nil =>
    unfold Memory.write
    split
    · rfl
    · simp [Memory.read, Ne.symm h]
  | cons c rest ih =>
    obtain ⟨k, c⟩ := c
    unfold Memory.write
    split
    · split
      · rfl
      · simp [Memory.read, Ne.symm h]
    · split
      · rename_i hk
        subst hk
        split <;> simp [Memory.read, Ne.symm h]
      · simp [Memory.read, ih]

/-- An address below everything listed reads as unwritten. -/
theorem Memory.read_below {m : Memory} {lo p : Nat} (hm : Memory.wfFrom lo m = true) (hp : p < lo) :
    m.read p = Config.unwrittenByte := by
  induction m generalizing lo with
  | nil => rfl
  | cons c rest ih =>
    obtain ⟨k, c⟩ := c
    simp only [Memory.wfFrom, Bool.and_eq_true, decide_eq_true_eq] at hm
    obtain ⟨⟨⟨h1, -⟩, -⟩, h4⟩ := hm
    have hne : k ≠ p := by omega
    simp only [Memory.read, hne, if_false]
    exact ih h4 (by omega)

/-- A canonical memory reads back what was written. -/
theorem Memory.read_write_same {m : Memory} {lo : Nat} (hm : Memory.wfFrom lo m = true) (a : Nat) (b : Byte) :
    (m.write a b).read a = b := by
  induction m generalizing lo with
  | nil =>
    unfold Memory.write
    split
    · rename_i h; simp [Memory.read, h]
    · simp [Memory.read]
  | cons c rest ih =>
    obtain ⟨k, c⟩ := c
    simp only [Memory.wfFrom, Bool.and_eq_true, decide_eq_true_eq] at hm
    obtain ⟨⟨⟨h1, h2⟩, h3⟩, h4⟩ := hm
    unfold Memory.write
    split
    · rename_i hlt
      split
      · rename_i hb
        have hne : k ≠ a := by omega
        simp only [Memory.read, hne, if_false, hb]
        exact Memory.read_below h4 (by omega)
      · simp [Memory.read]
    · split
      · rename_i hk
        subst hk
        split
        · rename_i hb
          rw [hb]
          exact Memory.read_below h4 (by omega)
        · simp [Memory.read]
      · rename_i hk
        simp only [Memory.read, Ne.symm hk, if_false]
        exact ih h4

/-- A canonical list is canonical from any lower bound. -/
theorem Memory.wfFrom_mono {m : Memory} {lo lo' : Nat} (h : lo' ≤ lo) (hm : Memory.wfFrom lo m = true) :
    Memory.wfFrom lo' m = true := by
  cases m with
  | nil => rfl
  | cons c rest =>
    obtain ⟨k, c⟩ := c
    simp only [Memory.wfFrom, Bool.and_eq_true, decide_eq_true_eq] at hm ⊢
    exact ⟨⟨⟨by omega, hm.1.1.2⟩, hm.1.2⟩, hm.2⟩

theorem Memory.wfFrom_write {m : Memory} {lo a : Nat} (b : Byte) (hm : Memory.wfFrom lo m = true) (hlo : lo ≤ a)
    (ha : a < 2 ^ 32) : Memory.wfFrom lo (m.write a b) = true := by
  induction m generalizing lo with
  | nil =>
    unfold Memory.write
    split
    · rfl
    · rename_i h
      simp only [Memory.wfFrom, Bool.and_eq_true, decide_eq_true_eq, and_true]
      exact ⟨⟨hlo, ha⟩, by simpa using h⟩
  | cons c rest ih =>
    obtain ⟨k, c⟩ := c
    have hm' := hm
    simp only [Memory.wfFrom, Bool.and_eq_true, decide_eq_true_eq] at hm
    obtain ⟨⟨⟨h1, h2⟩, h3⟩, h4⟩ := hm
    unfold Memory.write
    split
    · split
      · exact hm'
      · rename_i hb
        simp only [Memory.wfFrom, Bool.and_eq_true, decide_eq_true_eq]
        exact ⟨⟨⟨hlo, ha⟩, by simpa using hb⟩, ⟨⟨⟨by omega, h2⟩, h3⟩, h4⟩⟩
    · split
      · rename_i hk
        subst hk
        split
        · exact Memory.wfFrom_mono (by omega) h4
        · rename_i hb
          simp only [Memory.wfFrom, Bool.and_eq_true, decide_eq_true_eq]
          exact ⟨⟨⟨h1, ha⟩, by simpa using hb⟩, h4⟩
      · simp only [Memory.wfFrom, Bool.and_eq_true, decide_eq_true_eq]
        exact ⟨⟨⟨h1, h2⟩, h3⟩, ih h4 (by omega)⟩

/-- A byte write keeps the canonical form. -/
theorem Memory.wf_write {m : Memory} {a : Nat} (b : Byte) (hm : m.wf = true) (ha : a < 2 ^ 32) : (m.write a b).wf = true :=
  Memory.wfFrom_write b hm (Nat.zero_le _) ha

/-! ### Equal contents, equal memories -/

theorem Memory.ext_from {m m' : Memory} {lo : Nat} (hm : Memory.wfFrom lo m = true) (hm' : Memory.wfFrom lo m' = true)
    (h : ∀ a, m.read a = m'.read a) : m = m' := by
  induction m generalizing m' lo with
  | nil =>
    cases m' with
    | nil => rfl
    | cons c' rest' =>
      obtain ⟨k', b'⟩ := c'
      simp only [Memory.wfFrom, Bool.and_eq_true, bne_iff_ne] at hm'
      have hk := h k'
      simp only [Memory.read, if_true] at hk
      exact (hm'.1.2 hk.symm).elim
  | cons c rest ih =>
    obtain ⟨k, b⟩ := c
    simp only [Memory.wfFrom, Bool.and_eq_true, bne_iff_ne, decide_eq_true_eq] at hm
    cases m' with
    | nil =>
      have hk := h k
      simp only [Memory.read, if_true] at hk
      exact (hm.1.2 hk).elim
    | cons c' rest' =>
      obtain ⟨k', b'⟩ := c'
      simp only [Memory.wfFrom, Bool.and_eq_true, bne_iff_ne, decide_eq_true_eq] at hm'
      have hk : k = k' := by
        rcases Nat.lt_trichotomy k k' with hlt | heq | hgt
        · have h1 := h k
          rw [Memory.read_below (lo := k') (p := k) (m := (k', b') :: rest')
            (by simpa [Memory.wfFrom, hm'.1.2, hm'.2] using hm'.1.1.2) hlt] at h1
          simp only [Memory.read, if_true] at h1
          exact (hm.1.2 h1).elim
        · exact heq
        · have h1 := h k'
          rw [Memory.read_below (lo := k) (p := k') (m := (k, b) :: rest)
            (by simpa [Memory.wfFrom, hm.1.2, hm.2] using hm.1.1.2) hgt] at h1
          simp only [Memory.read, if_true] at h1
          exact (hm'.1.2 h1.symm).elim
      subst hk
      have hb : b = b' := by simpa [Memory.read] using h k
      subst hb
      congr 1
      apply ih hm.2 hm'.2
      intro a
      by_cases ha : k = a
      · subst ha
        rw [Memory.read_below hm.2 (by omega), Memory.read_below hm'.2 (by omega)]
      · simpa [Memory.read, ha] using h a

/-- Canonical memories that read the same at every address are the same list. -/
theorem Memory.ext_of_read {m m' : Memory} (hm : m.wf = true) (hm' : m'.wf = true) (h : ∀ a, m.read a = m'.read a) :
    m = m' := Memory.ext_from hm hm' h

/-! ### Runs of bytes -/

/-- A run of bytes written keeps the canonical form. -/
theorem Memory.wf_writeFrom {m : Memory} (pa : Word) (bs : List Byte) (hm : m.wf = true) : (m.writeFrom pa bs).wf = true := by
  induction bs generalizing m pa with
  | nil => exact hm
  | cons b bs ih => exact ih _ (Memory.wf_write b hm pa.isLt)

/-- A word written keeps the canonical form. -/
theorem Memory.wf_writeWord {m : Memory} (pa v : Word) (hm : m.wf = true) : (m.writeWord pa v).wf = true :=
  Memory.wf_writeFrom _ _ hm

/-- A run of bytes written leaves the bytes outside it alone. -/
theorem Memory.read_writeFrom_other (m : Memory) (pa : Word) (bs : List Byte) {p : Nat}
    (h : ∀ k, k < bs.length → p ≠ (pa + BitVec.ofNat 32 k).toNat) : (m.writeFrom pa bs).read p = m.read p := by
  induction bs generalizing m pa with
  | nil => rfl
  | cons b bs ih =>
    have h0 : p ≠ pa.toNat := by simpa using h 0 (by simp)
    rw [Memory.writeFrom, ih, Memory.read_write_other _ _ h0]
    intro k hk
    have := h (k + 1) (by simpa using hk)
    rwa [show pa + 1#32 + BitVec.ofNat 32 k = pa + BitVec.ofNat 32 (k + 1) by
      rw [BitVec.add_assoc, BitVec.ofNat_add, BitVec.add_comm 1#32]]

/-- A word written leaves the bytes outside its four alone. -/
theorem Memory.read_writeWord_other (m : Memory) (pa v : Word) {p : Nat} (h : p ∉ wordAddrs pa) :
    (m.writeWord pa v).read p = m.read p := by
  apply Memory.read_writeFrom_other
  intro k hk
  simp only [length_wordBytes] at hk
  simp only [wordAddrs, List.mem_cons, List.not_mem_nil, or_false, not_or] at h
  obtain ⟨h0, h1, h2, h3⟩ := h
  match k, hk with
  | 0, _ => simpa using h0
  | 1, _ => exact h1
  | 2, _ => exact h2
  | 3, _ => exact h3

end Machine

end Sys2Proof
end

