-- ==== Sys2Proof/Laws/State.lean ====
section
/-! SUPPORT. One lemma per field per named update of the state, and what a register reads after a register write. -/

namespace Sys2Proof.Machine

@[simp] theorem State.setI0_regs (s : State) (v : Word) : (s.setI0 v).regs = s.regs := rfl
@[simp] theorem State.setI0_i0 (s : State) (v : Word) : (s.setI0 v).i0 = v := rfl
@[simp] theorem State.setI0_s0 (s : State) (v : Word) : (s.setI0 v).s0 = s.s0 := rfl
@[simp] theorem State.setI0_s1 (s : State) (v : Word) : (s.setI0 v).s1 = s.s1 := rfl
@[simp] theorem State.setI0_fr (s : State) (v : Word) : (s.setI0 v).fr = s.fr := rfl
@[simp] theorem State.setI0_ivtr (s : State) (v : Word) : (s.setI0 v).ivtr = s.ivtr := rfl
@[simp] theorem State.setI0_ie0 (s : State) (v : Word) : (s.setI0 v).ie0 = s.ie0 := rfl
@[simp] theorem State.setI0_ie1 (s : State) (v : Word) : (s.setI0 v).ie1 = s.ie1 := rfl
@[simp] theorem State.setI0_ie2 (s : State) (v : Word) : (s.setI0 v).ie2 = s.ie2 := rfl
@[simp] theorem State.setI0_ie3 (s : State) (v : Word) : (s.setI0 v).ie3 = s.ie3 := rfl
@[simp] theorem State.setI0_ie4 (s : State) (v : Word) : (s.setI0 v).ie4 = s.ie4 := rfl
@[simp] theorem State.setI0_tpdr (s : State) (v : Word) : (s.setI0 v).tpdr = s.tpdr := rfl
@[simp] theorem State.setI0_tsp (s : State) (v : Word) : (s.setI0 v).tsp = s.tsp := rfl
@[simp] theorem State.setI0_msr (s : State) (v : Word) : (s.setI0 v).msr = s.msr := rfl
@[simp] theorem State.setI0_run (s : State) (v : Word) : (s.setI0 v).run = s.run := rfl
@[simp] theorem State.setI0_mem (s : State) (v : Word) : (s.setI0 v).mem = s.mem := rfl
@[simp] theorem State.setI0_plat (s : State) (v : Word) : (s.setI0 v).plat = s.plat := rfl
@[simp] theorem State.setI0_intTaken (s : State) (v : Word) : (s.setI0 v).intTaken = s.intTaken := rfl

@[simp] theorem State.setS0_regs (s : State) (v : Word) : (s.setS0 v).regs = s.regs := rfl
@[simp] theorem State.setS0_i0 (s : State) (v : Word) : (s.setS0 v).i0 = s.i0 := rfl
@[simp] theorem State.setS0_s0 (s : State) (v : Word) : (s.setS0 v).s0 = v := rfl
@[simp] theorem State.setS0_s1 (s : State) (v : Word) : (s.setS0 v).s1 = s.s1 := rfl
@[simp] theorem State.setS0_fr (s : State) (v : Word) : (s.setS0 v).fr = s.fr := rfl
@[simp] theorem State.setS0_ivtr (s : State) (v : Word) : (s.setS0 v).ivtr = s.ivtr := rfl
@[simp] theorem State.setS0_ie0 (s : State) (v : Word) : (s.setS0 v).ie0 = s.ie0 := rfl
@[simp] theorem State.setS0_ie1 (s : State) (v : Word) : (s.setS0 v).ie1 = s.ie1 := rfl
@[simp] theorem State.setS0_ie2 (s : State) (v : Word) : (s.setS0 v).ie2 = s.ie2 := rfl
@[simp] theorem State.setS0_ie3 (s : State) (v : Word) : (s.setS0 v).ie3 = s.ie3 := rfl
@[simp] theorem State.setS0_ie4 (s : State) (v : Word) : (s.setS0 v).ie4 = s.ie4 := rfl
@[simp] theorem State.setS0_tpdr (s : State) (v : Word) : (s.setS0 v).tpdr = s.tpdr := rfl
@[simp] theorem State.setS0_tsp (s : State) (v : Word) : (s.setS0 v).tsp = s.tsp := rfl
@[simp] theorem State.setS0_msr (s : State) (v : Word) : (s.setS0 v).msr = s.msr := rfl
@[simp] theorem State.setS0_run (s : State) (v : Word) : (s.setS0 v).run = s.run := rfl
@[simp] theorem State.setS0_mem (s : State) (v : Word) : (s.setS0 v).mem = s.mem := rfl
@[simp] theorem State.setS0_plat (s : State) (v : Word) : (s.setS0 v).plat = s.plat := rfl
@[simp] theorem State.setS0_intTaken (s : State) (v : Word) : (s.setS0 v).intTaken = s.intTaken := rfl

@[simp] theorem State.setS1_regs (s : State) (v : Word) : (s.setS1 v).regs = s.regs := rfl
@[simp] theorem State.setS1_i0 (s : State) (v : Word) : (s.setS1 v).i0 = s.i0 := rfl
@[simp] theorem State.setS1_s0 (s : State) (v : Word) : (s.setS1 v).s0 = s.s0 := rfl
@[simp] theorem State.setS1_s1 (s : State) (v : Word) : (s.setS1 v).s1 = v := rfl
@[simp] theorem State.setS1_fr (s : State) (v : Word) : (s.setS1 v).fr = s.fr := rfl
@[simp] theorem State.setS1_ivtr (s : State) (v : Word) : (s.setS1 v).ivtr = s.ivtr := rfl
@[simp] theorem State.setS1_ie0 (s : State) (v : Word) : (s.setS1 v).ie0 = s.ie0 := rfl
@[simp] theorem State.setS1_ie1 (s : State) (v : Word) : (s.setS1 v).ie1 = s.ie1 := rfl
@[simp] theorem State.setS1_ie2 (s : State) (v : Word) : (s.setS1 v).ie2 = s.ie2 := rfl
@[simp] theorem State.setS1_ie3 (s : State) (v : Word) : (s.setS1 v).ie3 = s.ie3 := rfl
@[simp] theorem State.setS1_ie4 (s : State) (v : Word) : (s.setS1 v).ie4 = s.ie4 := rfl
@[simp] theorem State.setS1_tpdr (s : State) (v : Word) : (s.setS1 v).tpdr = s.tpdr := rfl
@[simp] theorem State.setS1_tsp (s : State) (v : Word) : (s.setS1 v).tsp = s.tsp := rfl
@[simp] theorem State.setS1_msr (s : State) (v : Word) : (s.setS1 v).msr = s.msr := rfl
@[simp] theorem State.setS1_run (s : State) (v : Word) : (s.setS1 v).run = s.run := rfl
@[simp] theorem State.setS1_mem (s : State) (v : Word) : (s.setS1 v).mem = s.mem := rfl
@[simp] theorem State.setS1_plat (s : State) (v : Word) : (s.setS1 v).plat = s.plat := rfl
@[simp] theorem State.setS1_intTaken (s : State) (v : Word) : (s.setS1 v).intTaken = s.intTaken := rfl

@[simp] theorem State.setFr_regs (s : State) (v : Byte) : (s.setFr v).regs = s.regs := rfl
@[simp] theorem State.setFr_i0 (s : State) (v : Byte) : (s.setFr v).i0 = s.i0 := rfl
@[simp] theorem State.setFr_s0 (s : State) (v : Byte) : (s.setFr v).s0 = s.s0 := rfl
@[simp] theorem State.setFr_s1 (s : State) (v : Byte) : (s.setFr v).s1 = s.s1 := rfl
@[simp] theorem State.setFr_fr (s : State) (v : Byte) : (s.setFr v).fr = v := rfl
@[simp] theorem State.setFr_ivtr (s : State) (v : Byte) : (s.setFr v).ivtr = s.ivtr := rfl
@[simp] theorem State.setFr_ie0 (s : State) (v : Byte) : (s.setFr v).ie0 = s.ie0 := rfl
@[simp] theorem State.setFr_ie1 (s : State) (v : Byte) : (s.setFr v).ie1 = s.ie1 := rfl
@[simp] theorem State.setFr_ie2 (s : State) (v : Byte) : (s.setFr v).ie2 = s.ie2 := rfl
@[simp] theorem State.setFr_ie3 (s : State) (v : Byte) : (s.setFr v).ie3 = s.ie3 := rfl
@[simp] theorem State.setFr_ie4 (s : State) (v : Byte) : (s.setFr v).ie4 = s.ie4 := rfl
@[simp] theorem State.setFr_tpdr (s : State) (v : Byte) : (s.setFr v).tpdr = s.tpdr := rfl
@[simp] theorem State.setFr_tsp (s : State) (v : Byte) : (s.setFr v).tsp = s.tsp := rfl
@[simp] theorem State.setFr_msr (s : State) (v : Byte) : (s.setFr v).msr = s.msr := rfl
@[simp] theorem State.setFr_run (s : State) (v : Byte) : (s.setFr v).run = s.run := rfl
@[simp] theorem State.setFr_mem (s : State) (v : Byte) : (s.setFr v).mem = s.mem := rfl
@[simp] theorem State.setFr_plat (s : State) (v : Byte) : (s.setFr v).plat = s.plat := rfl
@[simp] theorem State.setFr_intTaken (s : State) (v : Byte) : (s.setFr v).intTaken = s.intTaken := rfl

@[simp] theorem State.setRun_regs (s : State) (v : RunState) : (s.setRun v).regs = s.regs := rfl
@[simp] theorem State.setRun_i0 (s : State) (v : RunState) : (s.setRun v).i0 = s.i0 := rfl
@[simp] theorem State.setRun_s0 (s : State) (v : RunState) : (s.setRun v).s0 = s.s0 := rfl
@[simp] theorem State.setRun_s1 (s : State) (v : RunState) : (s.setRun v).s1 = s.s1 := rfl
@[simp] theorem State.setRun_fr (s : State) (v : RunState) : (s.setRun v).fr = s.fr := rfl
@[simp] theorem State.setRun_ivtr (s : State) (v : RunState) : (s.setRun v).ivtr = s.ivtr := rfl
@[simp] theorem State.setRun_ie0 (s : State) (v : RunState) : (s.setRun v).ie0 = s.ie0 := rfl
@[simp] theorem State.setRun_ie1 (s : State) (v : RunState) : (s.setRun v).ie1 = s.ie1 := rfl
@[simp] theorem State.setRun_ie2 (s : State) (v : RunState) : (s.setRun v).ie2 = s.ie2 := rfl
@[simp] theorem State.setRun_ie3 (s : State) (v : RunState) : (s.setRun v).ie3 = s.ie3 := rfl
@[simp] theorem State.setRun_ie4 (s : State) (v : RunState) : (s.setRun v).ie4 = s.ie4 := rfl
@[simp] theorem State.setRun_tpdr (s : State) (v : RunState) : (s.setRun v).tpdr = s.tpdr := rfl
@[simp] theorem State.setRun_tsp (s : State) (v : RunState) : (s.setRun v).tsp = s.tsp := rfl
@[simp] theorem State.setRun_msr (s : State) (v : RunState) : (s.setRun v).msr = s.msr := rfl
@[simp] theorem State.setRun_run (s : State) (v : RunState) : (s.setRun v).run = v := rfl
@[simp] theorem State.setRun_mem (s : State) (v : RunState) : (s.setRun v).mem = s.mem := rfl
@[simp] theorem State.setRun_plat (s : State) (v : RunState) : (s.setRun v).plat = s.plat := rfl
@[simp] theorem State.setRun_intTaken (s : State) (v : RunState) : (s.setRun v).intTaken = s.intTaken := rfl

@[simp] theorem State.setMem_regs (s : State) (m : Memory) : (s.setMem m).regs = s.regs := rfl
@[simp] theorem State.setMem_i0 (s : State) (m : Memory) : (s.setMem m).i0 = s.i0 := rfl
@[simp] theorem State.setMem_s0 (s : State) (m : Memory) : (s.setMem m).s0 = s.s0 := rfl
@[simp] theorem State.setMem_s1 (s : State) (m : Memory) : (s.setMem m).s1 = s.s1 := rfl
@[simp] theorem State.setMem_fr (s : State) (m : Memory) : (s.setMem m).fr = s.fr := rfl
@[simp] theorem State.setMem_ivtr (s : State) (m : Memory) : (s.setMem m).ivtr = s.ivtr := rfl
@[simp] theorem State.setMem_ie0 (s : State) (m : Memory) : (s.setMem m).ie0 = s.ie0 := rfl
@[simp] theorem State.setMem_ie1 (s : State) (m : Memory) : (s.setMem m).ie1 = s.ie1 := rfl
@[simp] theorem State.setMem_ie2 (s : State) (m : Memory) : (s.setMem m).ie2 = s.ie2 := rfl
@[simp] theorem State.setMem_ie3 (s : State) (m : Memory) : (s.setMem m).ie3 = s.ie3 := rfl
@[simp] theorem State.setMem_ie4 (s : State) (m : Memory) : (s.setMem m).ie4 = s.ie4 := rfl
@[simp] theorem State.setMem_tpdr (s : State) (m : Memory) : (s.setMem m).tpdr = s.tpdr := rfl
@[simp] theorem State.setMem_tsp (s : State) (m : Memory) : (s.setMem m).tsp = s.tsp := rfl
@[simp] theorem State.setMem_msr (s : State) (m : Memory) : (s.setMem m).msr = s.msr := rfl
@[simp] theorem State.setMem_run (s : State) (m : Memory) : (s.setMem m).run = s.run := rfl
@[simp] theorem State.setMem_mem (s : State) (m : Memory) : (s.setMem m).mem = m := rfl
@[simp] theorem State.setMem_plat (s : State) (m : Memory) : (s.setMem m).plat = s.plat := rfl
@[simp] theorem State.setMem_intTaken (s : State) (m : Memory) : (s.setMem m).intTaken = s.intTaken := rfl

@[simp] theorem State.setPlat_regs (s : State) (p : Platform) : (s.setPlat p).regs = s.regs := rfl
@[simp] theorem State.setPlat_i0 (s : State) (p : Platform) : (s.setPlat p).i0 = s.i0 := rfl
@[simp] theorem State.setPlat_s0 (s : State) (p : Platform) : (s.setPlat p).s0 = s.s0 := rfl
@[simp] theorem State.setPlat_s1 (s : State) (p : Platform) : (s.setPlat p).s1 = s.s1 := rfl
@[simp] theorem State.setPlat_fr (s : State) (p : Platform) : (s.setPlat p).fr = s.fr := rfl
@[simp] theorem State.setPlat_ivtr (s : State) (p : Platform) : (s.setPlat p).ivtr = s.ivtr := rfl
@[simp] theorem State.setPlat_ie0 (s : State) (p : Platform) : (s.setPlat p).ie0 = s.ie0 := rfl
@[simp] theorem State.setPlat_ie1 (s : State) (p : Platform) : (s.setPlat p).ie1 = s.ie1 := rfl
@[simp] theorem State.setPlat_ie2 (s : State) (p : Platform) : (s.setPlat p).ie2 = s.ie2 := rfl
@[simp] theorem State.setPlat_ie3 (s : State) (p : Platform) : (s.setPlat p).ie3 = s.ie3 := rfl
@[simp] theorem State.setPlat_ie4 (s : State) (p : Platform) : (s.setPlat p).ie4 = s.ie4 := rfl
@[simp] theorem State.setPlat_tpdr (s : State) (p : Platform) : (s.setPlat p).tpdr = s.tpdr := rfl
@[simp] theorem State.setPlat_tsp (s : State) (p : Platform) : (s.setPlat p).tsp = s.tsp := rfl
@[simp] theorem State.setPlat_msr (s : State) (p : Platform) : (s.setPlat p).msr = s.msr := rfl
@[simp] theorem State.setPlat_run (s : State) (p : Platform) : (s.setPlat p).run = s.run := rfl
@[simp] theorem State.setPlat_mem (s : State) (p : Platform) : (s.setPlat p).mem = s.mem := rfl
@[simp] theorem State.setPlat_plat (s : State) (p : Platform) : (s.setPlat p).plat = p := rfl
@[simp] theorem State.setPlat_intTaken (s : State) (p : Platform) : (s.setPlat p).intTaken = s.intTaken := rfl

@[simp] theorem State.setIntTaken_regs (s : State) (b : Bool) : (s.setIntTaken b).regs = s.regs := rfl
@[simp] theorem State.setIntTaken_i0 (s : State) (b : Bool) : (s.setIntTaken b).i0 = s.i0 := rfl
@[simp] theorem State.setIntTaken_s0 (s : State) (b : Bool) : (s.setIntTaken b).s0 = s.s0 := rfl
@[simp] theorem State.setIntTaken_s1 (s : State) (b : Bool) : (s.setIntTaken b).s1 = s.s1 := rfl
@[simp] theorem State.setIntTaken_fr (s : State) (b : Bool) : (s.setIntTaken b).fr = s.fr := rfl
@[simp] theorem State.setIntTaken_ivtr (s : State) (b : Bool) : (s.setIntTaken b).ivtr = s.ivtr := rfl
@[simp] theorem State.setIntTaken_ie0 (s : State) (b : Bool) : (s.setIntTaken b).ie0 = s.ie0 := rfl
@[simp] theorem State.setIntTaken_ie1 (s : State) (b : Bool) : (s.setIntTaken b).ie1 = s.ie1 := rfl
@[simp] theorem State.setIntTaken_ie2 (s : State) (b : Bool) : (s.setIntTaken b).ie2 = s.ie2 := rfl
@[simp] theorem State.setIntTaken_ie3 (s : State) (b : Bool) : (s.setIntTaken b).ie3 = s.ie3 := rfl
@[simp] theorem State.setIntTaken_ie4 (s : State) (b : Bool) : (s.setIntTaken b).ie4 = s.ie4 := rfl
@[simp] theorem State.setIntTaken_tpdr (s : State) (b : Bool) : (s.setIntTaken b).tpdr = s.tpdr := rfl
@[simp] theorem State.setIntTaken_tsp (s : State) (b : Bool) : (s.setIntTaken b).tsp = s.tsp := rfl
@[simp] theorem State.setIntTaken_msr (s : State) (b : Bool) : (s.setIntTaken b).msr = s.msr := rfl
@[simp] theorem State.setIntTaken_run (s : State) (b : Bool) : (s.setIntTaken b).run = s.run := rfl
@[simp] theorem State.setIntTaken_mem (s : State) (b : Bool) : (s.setIntTaken b).mem = s.mem := rfl
@[simp] theorem State.setIntTaken_plat (s : State) (b : Bool) : (s.setIntTaken b).plat = s.plat := rfl
@[simp] theorem State.setIntTaken_intTaken (s : State) (b : Bool) : (s.setIntTaken b).intTaken = b := rfl

@[simp] theorem State.setReg_regs (s : State) (r : Fin 32) (v : Word) : (s.setReg r v).regs = s.regs.set r.val v r.isLt := rfl
@[simp] theorem State.setReg_i0 (s : State) (r : Fin 32) (v : Word) : (s.setReg r v).i0 = s.i0 := rfl
@[simp] theorem State.setReg_s0 (s : State) (r : Fin 32) (v : Word) : (s.setReg r v).s0 = s.s0 := rfl
@[simp] theorem State.setReg_s1 (s : State) (r : Fin 32) (v : Word) : (s.setReg r v).s1 = s.s1 := rfl
@[simp] theorem State.setReg_fr (s : State) (r : Fin 32) (v : Word) : (s.setReg r v).fr = s.fr := rfl
@[simp] theorem State.setReg_ivtr (s : State) (r : Fin 32) (v : Word) : (s.setReg r v).ivtr = s.ivtr := rfl
@[simp] theorem State.setReg_ie0 (s : State) (r : Fin 32) (v : Word) : (s.setReg r v).ie0 = s.ie0 := rfl
@[simp] theorem State.setReg_ie1 (s : State) (r : Fin 32) (v : Word) : (s.setReg r v).ie1 = s.ie1 := rfl
@[simp] theorem State.setReg_ie2 (s : State) (r : Fin 32) (v : Word) : (s.setReg r v).ie2 = s.ie2 := rfl
@[simp] theorem State.setReg_ie3 (s : State) (r : Fin 32) (v : Word) : (s.setReg r v).ie3 = s.ie3 := rfl
@[simp] theorem State.setReg_ie4 (s : State) (r : Fin 32) (v : Word) : (s.setReg r v).ie4 = s.ie4 := rfl
@[simp] theorem State.setReg_tpdr (s : State) (r : Fin 32) (v : Word) : (s.setReg r v).tpdr = s.tpdr := rfl
@[simp] theorem State.setReg_tsp (s : State) (r : Fin 32) (v : Word) : (s.setReg r v).tsp = s.tsp := rfl
@[simp] theorem State.setReg_msr (s : State) (r : Fin 32) (v : Word) : (s.setReg r v).msr = s.msr := rfl
@[simp] theorem State.setReg_run (s : State) (r : Fin 32) (v : Word) : (s.setReg r v).run = s.run := rfl
@[simp] theorem State.setReg_mem (s : State) (r : Fin 32) (v : Word) : (s.setReg r v).mem = s.mem := rfl
@[simp] theorem State.setReg_plat (s : State) (r : Fin 32) (v : Word) : (s.setReg r v).plat = s.plat := rfl
@[simp] theorem State.setReg_intTaken (s : State) (r : Fin 32) (v : Word) : (s.setReg r v).intTaken = s.intTaken := rfl

@[simp] theorem State.tell_regs (s : State) (es : List IoEvent) : (s.tell es).regs = s.regs := rfl
@[simp] theorem State.tell_i0 (s : State) (es : List IoEvent) : (s.tell es).i0 = s.i0 := rfl
@[simp] theorem State.tell_s0 (s : State) (es : List IoEvent) : (s.tell es).s0 = s.s0 := rfl
@[simp] theorem State.tell_s1 (s : State) (es : List IoEvent) : (s.tell es).s1 = s.s1 := rfl
@[simp] theorem State.tell_fr (s : State) (es : List IoEvent) : (s.tell es).fr = s.fr := rfl
@[simp] theorem State.tell_ivtr (s : State) (es : List IoEvent) : (s.tell es).ivtr = s.ivtr := rfl
@[simp] theorem State.tell_ie0 (s : State) (es : List IoEvent) : (s.tell es).ie0 = s.ie0 := rfl
@[simp] theorem State.tell_ie1 (s : State) (es : List IoEvent) : (s.tell es).ie1 = s.ie1 := rfl
@[simp] theorem State.tell_ie2 (s : State) (es : List IoEvent) : (s.tell es).ie2 = s.ie2 := rfl
@[simp] theorem State.tell_ie3 (s : State) (es : List IoEvent) : (s.tell es).ie3 = s.ie3 := rfl
@[simp] theorem State.tell_ie4 (s : State) (es : List IoEvent) : (s.tell es).ie4 = s.ie4 := rfl
@[simp] theorem State.tell_tpdr (s : State) (es : List IoEvent) : (s.tell es).tpdr = s.tpdr := rfl
@[simp] theorem State.tell_tsp (s : State) (es : List IoEvent) : (s.tell es).tsp = s.tsp := rfl
@[simp] theorem State.tell_msr (s : State) (es : List IoEvent) : (s.tell es).msr = s.msr := rfl
@[simp] theorem State.tell_run (s : State) (es : List IoEvent) : (s.tell es).run = s.run := rfl
@[simp] theorem State.tell_mem (s : State) (es : List IoEvent) : (s.tell es).mem = s.mem := rfl
@[simp] theorem State.tell_plat (s : State) (es : List IoEvent) : (s.tell es).plat = { s.plat with ioLog := es ++ s.plat.ioLog } := rfl
@[simp] theorem State.tell_intTaken (s : State) (es : List IoEvent) : (s.tell es).intTaken = s.intTaken := rfl
/-- Telling the platform nothing changes nothing. -/
@[simp] theorem State.tell_nil (s : State) : s.tell [] = s := rfl
/-- Telling the platform twice is telling it both, the later first. -/
theorem State.tell_tell (s : State) (es fs : List IoEvent) : (s.tell es).tell fs = s.tell (fs ++ es) := by
  simp [State.tell, State.setPlat]

/-! ### Interrupt entry and return -/

@[simp] theorem saveContext_regs (code : Byte) (s : State) : (saveContext code s).regs = s.regs := rfl
@[simp] theorem saveContext_i0 (code : Byte) (s : State) : (saveContext code s).i0 = s.i0 := rfl
@[simp] theorem saveContext_s0 (code : Byte) (s : State) : (saveContext code s).s0 = s.s0 := rfl
@[simp] theorem saveContext_s1 (code : Byte) (s : State) : (saveContext code s).s1 = s.s1 := rfl
@[simp] theorem saveContext_fr (code : Byte) (s : State) : (saveContext code s).fr = 0x00#8 := rfl
@[simp] theorem saveContext_ivtr (code : Byte) (s : State) : (saveContext code s).ivtr = s.ivtr := rfl
@[simp] theorem saveContext_ie0 (code : Byte) (s : State) : (saveContext code s).ie0 = code := rfl
@[simp] theorem saveContext_ie1 (code : Byte) (s : State) : (saveContext code s).ie1 = s.i0 := rfl
@[simp] theorem saveContext_ie2 (code : Byte) (s : State) : (saveContext code s).ie2 = s.s0 := rfl
@[simp] theorem saveContext_ie3 (code : Byte) (s : State) : (saveContext code s).ie3 = s.fr := rfl
@[simp] theorem saveContext_ie4 (code : Byte) (s : State) : (saveContext code s).ie4 = s.msr := rfl
@[simp] theorem saveContext_tpdr (code : Byte) (s : State) : (saveContext code s).tpdr = s.tpdr := rfl
@[simp] theorem saveContext_tsp (code : Byte) (s : State) : (saveContext code s).tsp = s.tsp := rfl
@[simp] theorem saveContext_msr (code : Byte) (s : State) : (saveContext code s).msr = 0x80000000#32 := rfl
@[simp] theorem saveContext_run (code : Byte) (s : State) : (saveContext code s).run = .running := rfl
@[simp] theorem saveContext_mem (code : Byte) (s : State) : (saveContext code s).mem = s.mem := rfl
@[simp] theorem saveContext_plat (code : Byte) (s : State) : (saveContext code s).plat = s.plat := rfl
@[simp] theorem saveContext_intTaken (code : Byte) (s : State) : (saveContext code s).intTaken = true := rfl

@[simp] theorem restoreContext_regs (s : State) : (restoreContext s).regs = s.regs := rfl
@[simp] theorem restoreContext_i0 (s : State) : (restoreContext s).i0 = s.ie1 := rfl
@[simp] theorem restoreContext_s0 (s : State) : (restoreContext s).s0 = s.ie2 := rfl
@[simp] theorem restoreContext_s1 (s : State) : (restoreContext s).s1 = s.s1 := rfl
@[simp] theorem restoreContext_fr (s : State) : (restoreContext s).fr = s.ie3 := rfl
@[simp] theorem restoreContext_ivtr (s : State) : (restoreContext s).ivtr = s.ivtr := rfl
@[simp] theorem restoreContext_ie0 (s : State) : (restoreContext s).ie0 = s.ie0 := rfl
@[simp] theorem restoreContext_ie1 (s : State) : (restoreContext s).ie1 = s.ie1 := rfl
@[simp] theorem restoreContext_ie2 (s : State) : (restoreContext s).ie2 = s.ie2 := rfl
@[simp] theorem restoreContext_ie3 (s : State) : (restoreContext s).ie3 = s.ie3 := rfl
@[simp] theorem restoreContext_ie4 (s : State) : (restoreContext s).ie4 = s.ie4 := rfl
@[simp] theorem restoreContext_tpdr (s : State) : (restoreContext s).tpdr = s.tpdr := rfl
@[simp] theorem restoreContext_tsp (s : State) : (restoreContext s).tsp = s.tsp := rfl
@[simp] theorem restoreContext_msr (s : State) : (restoreContext s).msr = s.ie4 := rfl
@[simp] theorem restoreContext_run (s : State) : (restoreContext s).run = s.run := rfl
@[simp] theorem restoreContext_mem (s : State) : (restoreContext s).mem = s.mem := rfl
@[simp] theorem restoreContext_plat (s : State) : (restoreContext s).plat = s.plat := rfl
@[simp] theorem restoreContext_intTaken (s : State) : (restoreContext s).intTaken = s.intTaken := rfl

/-! ### General registers -/

theorem State.reg_setReg (s : State) (d r : Fin 32) (v : Word) : (s.setReg d v).reg r = if d = r then v else s.reg r := by
  simp only [State.reg, State.setReg, Vector.getElem_set, Fin.ext_iff]

@[simp] theorem State.reg_setReg_self (s : State) (d : Fin 32) (v : Word) : (s.setReg d v).reg d = v := by
  simp [State.reg_setReg]

/-- The mode is a function of `MSR` alone (R40). -/
theorem State.mode_congr {s t : State} (h : t.msr = s.msr) : t.mode = s.mode := by simp [State.mode, h]

end Sys2Proof.Machine
end

