-- ==== Sys2Proof/Laws/Ops.lean ====
section
/-! SUPPORT. For each shared operation, what it can do, said once. -/

namespace Sys2Proof.Machine

/-! ### Sequencing -/

/-- A sequence answers what its second part answers on what its first part answered. -/
theorem act_bind_eq_ok {α β : Type} {x : Act α} {f : α → Act β} {b : β} :
    (x >>= f) = .ok b ↔ ∃ a, x = .ok a ∧ f a = .ok b := by
  cases x <;> simp [bind, Except.bind]

/-- A sequence ends early where its first part does, or where its second does. -/
theorem act_bind_eq_error {α β : Type} {x : Act α} {f : α → Act β} {e : Stop} :
    (x >>= f) = .error e ↔ x = .error e ∨ ∃ a, x = .ok a ∧ f a = .error e := by
  cases x <;> simp [bind, Except.bind]

@[simp] theorem act_ok_bind {α β : Type} (a : α) (f : α → Act β) : ((.ok a : Act α) >>= f) = f a := rfl

@[simp] theorem act_error_bind {α β : Type} (e : Stop) (f : α → Act β) : ((.error e : Act α) >>= f) = .error e := rfl

/-! ### Register fields and privilege -/

theorem gpr_eq_ok {n : Nat} {r : Fin 32} : gpr n = .ok r ↔ n = r.val := by
  unfold gpr
  split
  · simp [Fin.ext_iff]
  · simp
    omega

@[simp] theorem gpr_val (r : Fin 32) : gpr r.val = .ok r := gpr_eq_ok.2 rfl

theorem gpr_eq_error {n : Nat} {e : Stop} : gpr n = .error e ↔ 32 ≤ n ∧ e = integrityFault 0x03#8 := by
  unfold gpr
  split
  · simp
    omega
  · simp only [Except.error.injEq]
    exact ⟨fun h => ⟨by omega, h.symm⟩, fun h => h.2.symm⟩

theorem requireSupervisor_eq_ok {s : State} {u : Unit} : requireSupervisor s = .ok u ↔ s.mode = .supervisor := by
  unfold requireSupervisor
  cases s.mode <;> simp

theorem requireSupervisor_of_user {s : State} (h : s.mode = .user) :
    requireSupervisor s = .error (integrityFault 0x00#8) := by simp [requireSupervisor, h]

theorem requireSupervisor_of_supervisor {s : State} (h : s.mode = .supervisor) : requireSupervisor s = .ok () := by
  simp [requireSupervisor, h]

/-! ### Frames -/

theorem SamePlatformMap.refl (p : Platform) : SamePlatformMap p p := ⟨rfl, rfl, rfl, rfl, rfl⟩

theorem SamePlatformMap.trans {p q r : Platform} (h : SamePlatformMap p q) (k : SamePlatformMap q r) :
    SamePlatformMap p r := by
  obtain ⟨a, b, c, d, e⟩ := h
  obtain ⟨a', b', c', d', e'⟩ := k
  exact ⟨a'.trans a, b'.trans b, c'.trans c, d'.trans d, e'.trans e⟩

theorem OnlyMemory.refl (s : State) : OnlyMemory s s := ⟨rfl, SamePlatformMap.refl _⟩

theorem OnlyMemory.trans {s t u : State} (h : OnlyMemory s t) (k : OnlyMemory t u) : OnlyMemory s u := by
  refine ⟨?_, h.2.trans k.2⟩
  have h1 := h.1
  rw [k.1, h1]

theorem OnlyMemory.setMem (s : State) (m : Memory) : OnlyMemory s (s.setMem m) := ⟨rfl, SamePlatformMap.refl _⟩

theorem OnlyMemory.tell (s : State) (es : List IoEvent) : OnlyMemory s (s.tell es) := ⟨rfl, rfl, rfl, rfl, rfl, rfl⟩

/-- What stands behind an address depends on the installed platform alone. -/
theorem regionOf_congr {p q : Platform} (h : SamePlatformMap p q) (a : Word) : regionOf q a = regionOf p a := by
  simp [regionOf, h.1, h.2.1]

theorem entryRegion_congr {p q : Platform} (h : SamePlatformMap p q) (a : Word) : entryRegion q a = entryRegion p a := by
  simp [entryRegion, regionOf_congr h]

/-! ### Physical accesses (R70) -/

/-- The four bytes of a word that stands in memory. -/
theorem entryRegion_eq_ram {p : Platform} {pa : Word} (h : entryRegion p pa = .ram) :
    regionOf p pa = .ram ∧ regionOf p (pa + 1#32) = .ram ∧ regionOf p (pa + 2#32) = .ram ∧ regionOf p (pa + 3#32) = .ram := by
  unfold entryRegion at h
  cases h0 : regionOf p pa <;> cases h1 : regionOf p (pa + 1#32) <;> cases h2 : regionOf p (pa + 2#32) <;>
    cases h3 : regionOf p (pa + 3#32) <;> simp_all

/-- A present byte is memory's or a device's. -/
theorem physByte_ram {s : State} {pa : Word} (h : regionOf s.plat pa = .ram) : physByte s pa = s.mem.read pa.toNat := by
  simp [physByte, h]

/-- A word in memory is read from memory (R70). -/
theorem physWord_ram {s : State} {pa : Word} (h : entryRegion s.plat pa = .ram) : physWord s pa = s.mem.readWord pa := by
  obtain ⟨h0, h1, h2, h3⟩ := entryRegion_eq_ram h
  have e1 : pa + 1#32 + 1#32 = pa + 2#32 := by rw [BitVec.add_assoc]; rfl
  have e2 : pa + 2#32 + 1#32 = pa + 3#32 := by rw [BitVec.add_assoc]; rfl
  simp only [physWord, physByte_ram h0, physByte_ram h1, physByte_ram h2, physByte_ram h3, Memory.readWord, Memory.readFrom,
    e1, e2]

/-- The read of a word in memory tells the platform nothing. -/
theorem readEvents_ram {s : State} {pa : Word} (h : entryRegion s.plat pa = .ram) : readEvents s pa = [] := by
  obtain ⟨h0, h1, h2, h3⟩ := entryRegion_eq_ram h
  simp [readEvents, h0, h1, h2, h3]

/-- What `PhysRead32` does: it answers the word of present bytes and tells the platform of those that are devices'. -/
theorem physRead32_spec (s : State) (pa : Word) :
    (entryRegion s.plat pa = .absent ∧ physRead32 s pa = none) ∨
      (entryRegion s.plat pa ≠ .absent ∧ physRead32 s pa = some (physWord s pa, s.tell (readEvents s pa))) := by
  unfold physRead32
  cases h : entryRegion s.plat pa <;> simp

/-- The read of a word in memory is the word, and the state is as before. -/
theorem physRead32_ram {s : State} {pa : Word} (h : entryRegion s.plat pa = .ram) :
    physRead32 s pa = some (s.mem.readWord pa, s) := by
  simp [physRead32, h, physWord_ram h, readEvents_ram h]

/-- What `PhysWrite8` does: no register changes, the canonical form is kept, and every other byte stays. -/
theorem physWrite8_spec (s : State) (pa : Word) (b : Byte) :
    OnlyMemory s (physWrite8 s pa b) ∧ (s.mem.wf = true → (physWrite8 s pa b).mem.wf = true) ∧
      ∀ p, p ≠ pa.toNat → (physWrite8 s pa b).mem.read p = s.mem.read p := by
  unfold physWrite8
  split
  · exact ⟨OnlyMemory.setMem s _, fun hm => Memory.wf_write b hm pa.isLt, fun p hp => Memory.read_write_other _ _ hp⟩
  · exact ⟨OnlyMemory.tell s _, id, fun _ _ => rfl⟩
  · exact ⟨OnlyMemory.refl s, id, fun _ _ => rfl⟩

/-- What a run of bytes written does. -/
theorem physWriteFrom_spec (s : State) (pa : Word) (bs : List Byte) :
    OnlyMemory s (physWriteFrom s pa bs) ∧ (s.mem.wf = true → (physWriteFrom s pa bs).mem.wf = true) ∧
      ∀ p, (∀ k, k < bs.length → p ≠ (pa + BitVec.ofNat 32 k).toNat) →
        (physWriteFrom s pa bs).mem.read p = s.mem.read p := by
  induction bs generalizing s pa with
  | nil => exact ⟨OnlyMemory.refl s, id, fun _ _ => rfl⟩
  | cons b bs ih =>
    obtain ⟨h1, h2, h3⟩ := physWrite8_spec s pa b
    obtain ⟨k1, k2, k3⟩ := ih (physWrite8 s pa b) (pa + 1#32)
    refine ⟨h1.trans k1, fun hm => k2 (h2 hm), fun p hp => ?_⟩
    rw [physWriteFrom, k3 p ?_, h3 p (by simpa using hp 0 (by simp))]
    intro k hk
    have := hp (k + 1) (by simpa using hk)
    rwa [show pa + 1#32 + BitVec.ofNat 32 k = pa + BitVec.ofNat 32 (k + 1) by
      rw [BitVec.add_assoc, BitVec.ofNat_add, BitVec.add_comm 1#32]]

/-- What `PhysWrite32` does: no register changes, the canonical form is kept, and every byte outside its four stays. -/
theorem physWrite32_spec (s : State) (pa v : Word) :
    OnlyMemory s (physWrite32 s pa v) ∧ (s.mem.wf = true → (physWrite32 s pa v).mem.wf = true) ∧
      ∀ p, p ∉ wordAddrs pa → (physWrite32 s pa v).mem.read p = s.mem.read p := by
  obtain ⟨h1, h2, h3⟩ := physWriteFrom_spec s pa (wordBytes v)
  refine ⟨h1, h2, fun p hp => h3 p fun k hk => ?_⟩
  simp only [length_wordBytes] at hk
  simp only [wordAddrs, List.mem_cons, List.not_mem_nil, or_false, not_or] at hp
  obtain ⟨p0, p1, p2, p3⟩ := hp
  match k, hk with
  | 0, _ => simpa using p0
  | 1, _ => exact p1
  | 2, _ => exact p2
  | 3, _ => exact p3

/-- A run of bytes written where all of them are memory is the run written to memory. -/
theorem physWriteFrom_ram {s : State} {pa : Word} {bs : List Byte}
    (h : ∀ k, k < bs.length → regionOf s.plat (pa + BitVec.ofNat 32 k) = .ram) :
    physWriteFrom s pa bs = s.setMem (s.mem.writeFrom pa bs) := by
  induction bs generalizing s pa with
  | nil => rfl
  | cons b bs ih =>
    have h0 : regionOf s.plat pa = .ram := by simpa using h 0 (by simp)
    rw [physWriteFrom, physWrite8, h0, ih]
    · rfl
    intro k hk
    have := h (k + 1) (by simpa using hk)
    rwa [show pa + 1#32 + BitVec.ofNat 32 k = pa + BitVec.ofNat 32 (k + 1) by
      rw [BitVec.add_assoc, BitVec.ofNat_add, BitVec.add_comm 1#32]]

/-- A word written where it stands in memory is written to memory. -/
theorem physWrite32_ram {s : State} {pa : Word} (v : Word) (h : entryRegion s.plat pa = .ram) :
    physWrite32 s pa v = s.setMem (s.mem.writeWord pa v) := by
  obtain ⟨h0, h1, h2, h3⟩ := entryRegion_eq_ram h
  apply physWriteFrom_ram
  intro k hk
  simp only [length_wordBytes] at hk
  match k, hk with
  | 0, _ => simpa using h0
  | 1, _ => exact h1
  | 2, _ => exact h2
  | 3, _ => exact h3

/-! ### Translation -/

theorem translateFrom_length {s : State} {kind : AccessKind} {la : Word} {n : Nat} {ws : List Walk}
    (h : translateFrom s kind la n = .ok ws) : ws.length = n := by
  induction n generalizing la ws with
  | zero =>
    cases h
    rfl
  | succ n ih =>
    simp only [translateFrom, act_bind_eq_ok] at h
    obtain ⟨w, -, ws', h', h''⟩ := h
    cases h''
    simp [ih h']

/-- Translation keeps the offset in the page (R80). -/
theorem translate_offset {s : State} {kind : AccessKind} {la : Word} {w : Walk} (h : translate s kind la = .ok w) :
    w.pa.toNat % 4096 = la.toNat % 4096 := by
  unfold translate at h
  simp only [pagingActive, Config.pagingAlways, if_true, act_bind_eq_ok] at h
  obtain ⟨a, -, b, -, h⟩ := h
  split at h
  · cases h
  · cases h
    simp only [BitVec.toNat_append, pageOffset, BitVec.extractLsb'_toNat]
    have : la.toNat >>> 0 % 2 ^ 12 < 2 ^ 12 := Nat.mod_lt _ (by norm_num)
    rw [← Nat.shiftLeft_add_eq_or_of_lt this, Nat.shiftLeft_eq]
    simp

/-- The offsets of the bytes of an access. -/
theorem translateFrom_offset {s : State} {kind : AccessKind} {la : Word} {n : Nat} {ws : List Walk}
    (h : translateFrom s kind la n = .ok ws) : ∀ p ∈ walkBytes ws, ∃ k, k < n ∧ p % 4096 = (la.toNat + k) % 4096 := by
  induction n generalizing la ws with
  | zero =>
    cases h
    simp [walkBytes]
  | succ n ih =>
    simp only [translateFrom, act_bind_eq_ok] at h
    obtain ⟨w, hw, ws', h', h''⟩ := h
    cases h''
    intro p hp
    simp only [walkBytes, List.map_cons, List.mem_cons] at hp
    rcases hp with rfl | hp
    · exact ⟨0, by omega, translate_offset hw⟩
    · obtain ⟨k, hk, hkp⟩ := ih h' p hp
      refine ⟨k + 1, by omega, ?_⟩
      rw [hkp]
      simp only [BitVec.toNat_add, BitVec.toNat_ofNat]
      omega

/-- The bytes of an access shorter than a page lie at different physical addresses. -/
theorem walkBytes_nodup {s : State} {kind : AccessKind} {la : Word} {n : Nat} {ws : List Walk} (hn : n ≤ 4096)
    (h : translateFrom s kind la n = .ok ws) : (walkBytes ws).Nodup := by
  induction n generalizing la ws with
  | zero =>
    cases h
    simp [walkBytes]
  | succ n ih =>
    simp only [translateFrom, act_bind_eq_ok] at h
    obtain ⟨w, hw, ws', h', h''⟩ := h
    cases h''
    simp only [walkBytes, List.map_cons, List.nodup_cons]
    refine ⟨fun hc => ?_, ih (by omega) h'⟩
    obtain ⟨k, hk, hkp⟩ := translateFrom_offset h' _ hc
    rw [translate_offset hw] at hkp
    simp only [BitVec.toNat_add, BitVec.toNat_ofNat] at hkp
    omega

/-- An entry used is some walk's. -/
theorem mem_usedEntries {ws : List Walk} {e : EntryUse} : e ∈ usedEntries ws ↔ ∃ w ∈ ws, w.entry = some e := by
  simp [usedEntries]

/-- The bytes of an entry used are among those of the entries used. -/
theorem mem_entryBytes {ws : List Walk} {e : EntryUse} {a : Nat} (he : e ∈ usedEntries ws) (ha : a ∈ wordAddrs e.ptea) :
    a ∈ entryBytes ws := by
  obtain ⟨w, hw, h⟩ := mem_usedEntries.1 he
  simp only [entryBytes, List.mem_flatMap]
  exact ⟨w, hw, by rw [h]; exact ha⟩

/-- The marked value keeps every bit, sets A, and D is open (R85). -/
theorem usedEntry_marked (p : Platform) (ptea pte : Word) : MarkedValue pte (usedEntry p ptea pte) := by
  unfold usedEntry MarkedValue
  split
  · exact .inl rfl
  · split
    · exact .inr rfl
    · exact .inl rfl

/-- Marking writes each entry back at a marked value. -/
theorem markEntries_writes (p : Platform) (es : List EntryUse) (s : State) : WritesMarks es s (markEntries p es s) := by
  induction es generalizing s with
  | nil => rfl
  | cons e es ih => exact ⟨_, usedEntry_marked p _ _, ih _⟩

/-- What writing marks does: no register changes, the canonical form is kept, and only the entries differ. -/
theorem WritesMarks.spec {es : List EntryUse} {s m : State} (h : WritesMarks es s m) :
    OnlyMemory s m ∧ (s.mem.wf = true → m.mem.wf = true) ∧
      ∀ p, (∀ e ∈ es, p ∉ wordAddrs e.ptea) → m.mem.read p = s.mem.read p := by
  induction es generalizing s with
  | nil =>
    cases h
    exact ⟨OnlyMemory.refl _, id, fun _ _ => rfl⟩
  | cons e es ih =>
    obtain ⟨v, -, h⟩ := h
    obtain ⟨h1, h2, h3⟩ := physWrite32_spec s e.ptea v
    obtain ⟨k1, k2, k3⟩ := ih h
    refine ⟨h1.trans k1, fun hm => k2 (h2 hm), fun p hp => ?_⟩
    rw [k3 p fun x hx => hp x (by simp [hx]), h3 p (hp e (by simp))]

/-- Marks in memory tell the platform nothing. -/
theorem WritesMarks.ioLog {es : List EntryUse} {s m : State} (h : WritesMarks es s m)
    (hr : ∀ e ∈ es, entryRegion s.plat e.ptea = .ram) : m.plat.ioLog = s.plat.ioLog := by
  induction es generalizing s with
  | nil =>
    cases h
    rfl
  | cons e es ih =>
    obtain ⟨v, -, h⟩ := h
    have he := hr e (by simp)
    rw [physWrite32_ram v he] at h
    exact ih (s := s.setMem (s.mem.writeWord e.ptea v)) h fun x hx => hr x (by simp [hx])

/-- Table reads in memory tell the platform nothing. -/
theorem tableReads_ram {s : State} {es : List EntryUse}
    (h : ∀ e ∈ es, entryRegion s.plat e.pdea = .ram ∧ entryRegion s.plat e.ptea = .ram) : tableReads s es = [] := by
  induction es with
  | nil => rfl
  | cons e es ih =>
    obtain ⟨h1, h2⟩ := h e (by simp)
    simp [tableReads, ih fun x hx => h x (by simp [hx]), readEvents_ram h1, readEvents_ram h2]

/-- What marking does (R85): the state `Marked` names, the canonical form kept. -/
theorem markUsed_spec (ws : List Walk) (s : State) :
    Marked ws s (markUsed ws s) ∧ (s.mem.wf = true → (markUsed ws s).mem.wf = true) := by
  have hw := markEntries_writes s.plat (usedEntries ws) (s.tell (tableReads s (usedEntries ws)))
  obtain ⟨h1, h2, -⟩ := hw.spec
  have hm := (OnlyMemory.tell s (tableReads s (usedEntries ws))).trans h1
  refine ⟨⟨hm.trans ⟨rfl, rfl, rfl, rfl, rfl, rfl⟩, _, hw, rfl, rfl⟩, h2⟩

/-- Of memory, marking changes only the entries used. -/
theorem Marked.read {ws : List Walk} {s m : State} (h : Marked ws s m) {a : Nat} (ha : a ∉ entryBytes ws) :
    m.mem.read a = s.mem.read a := by
  obtain ⟨-, k, hk, hm, -⟩ := h
  rw [hm, hk.spec.2.2 a fun e he hc => ha (mem_entryBytes he hc)]
  rfl

/-- Where the tables stand in memory, marking tells the platform nothing. -/
theorem Marked.ioLog {ws : List Walk} {s m : State} (h : Marked ws s m) (ht : TablesInMemory s.plat ws) :
    m.plat.ioLog = s.plat.ioLog := by
  obtain ⟨-, k, hk, -, hl⟩ := h
  rw [tableReads_ram ht, State.tell_nil] at hk
  rw [hl, hk.ioLog fun e he => (ht e he).2]

/-! ### Accesses -/

/-- What a byte read does: memory answers its byte; a device answers what the platform is then told. -/
theorem readByte_spec {s : State} {pa : Word} {r : Byte × State} (h : readByte s pa = .ok r) :
    (regionOf s.plat pa = .ram ∧ r = (s.mem.read pa.toNat, s)) ∨
      (regionOf s.plat pa = .device ∧ r.2 = s.tell [.memRead pa r.1]) := by
  unfold readByte at h
  split at h
  · rename_i hr
    cases h
    exact .inl ⟨hr, by rw [physByte_ram hr]⟩
  · rename_i hr
    cases h
    exact .inr ⟨hr, rfl⟩
  · cases h

/-- A byte write is the physical write of a present byte. -/
theorem writeByte_spec {s t : State} {pa : Word} {b : Byte} (h : writeByte s pa b = .ok t) :
    regionOf s.plat pa ≠ .absent ∧ t = physWrite8 s pa b := by
  unfold writeByte at h
  cases hr : regionOf s.plat pa <;> simp only [hr] at h <;> cases h <;> simp

/-- What reading the bytes behind the walks does. -/
theorem readWalks_spec {ws : List Walk} {s : State} {r : List Byte × State} (h : readWalks ws s = .ok r) :
    Transfers ws s r.1 r.2 := by
  induction ws generalizing s r with
  | nil =>
    cases h
    exact ⟨rfl, by simp, rfl⟩
  | cons w ws ih =>
    simp only [readWalks, act_bind_eq_ok] at h
    obtain ⟨⟨b, u⟩, hx, ⟨bs, t⟩, hy, h⟩ := h
    cases h
    obtain ⟨h1, h2, h3⟩ := ih hy
    rcases readByte_spec hx with ⟨hr, hb⟩ | ⟨hr, hb⟩
    · cases hb
      refine ⟨by simpa using h1, ?_, ?_⟩
      · intro x hx
        simp only [List.map_cons, List.zip_cons_cons, List.mem_cons] at hx
        rcases hx with rfl | hx
        · exact fun _ => rfl
        · exact h2 x hx
      · simp only at h3
        simp [h3, deviceBytes, hr]
    · simp only at hb h1 h2 h3
      subst hb
      refine ⟨by simpa using h1, ?_, ?_⟩
      · intro x hx
        simp only [List.map_cons, List.zip_cons_cons, List.mem_cons] at hx
        rcases hx with rfl | hx
        · intro hc
          rw [hr] at hc
          cases hc
        · exact h2 x hx
      · have hd : ∀ q : Platform, deviceBytes { q with ioLog := [.memRead w.pa b] ++ q.ioLog } ws bs = deviceBytes q ws bs :=
          fun _ => rfl
        simp only [State.tell_plat, hd] at h3
        simp only [h3, State.tell_tell, deviceBytes, List.map_cons, List.zip_cons_cons]
        rw [List.filter_cons_of_pos (by simpa using hr)]
        simp

theorem Transfers.onlyMemory {ws : List Walk} {s t : State} {bs : List Byte} (h : Transfers ws s bs t) :
    OnlyMemory s t ∧ t.mem = s.mem := by
  obtain ⟨-, -, rfl⟩ := h
  exact ⟨OnlyMemory.tell s _, rfl⟩

/-- Where no byte leads to a device, no device byte is transferred. -/
theorem deviceBytes_eq_nil {p : Platform} {ws : List Walk} {bs : List Byte} (h : ∀ w ∈ ws, regionOf p w.pa ≠ .device) :
    deviceBytes p ws bs = [] := by
  simp only [deviceBytes, List.filter_eq_nil_iff, decide_eq_true_eq]
  intro x hx
  obtain ⟨w, hw, he⟩ := List.mem_map.1 (List.of_mem_zip hx).1
  rw [← he]
  exact h w hw

/-- What writing the bytes behind walks that lead to different addresses does. -/
theorem writeWalks_spec {ws : List Walk} {bs : List Byte} {s t : State} (hn : (walkBytes ws).Nodup) (h : writeWalks ws bs s = .ok t) :
    Stores ws s bs t ∧ (s.mem.wf = true → t.mem.wf = true) := by
  induction ws generalizing bs s t with
  | nil =>
    simp only [writeWalks] at h
    cases h
    exact ⟨⟨fun _ _ => rfl, by simp, by simp [deviceBytes]; rfl⟩, id⟩
  | cons w ws ih =>
    cases bs with
    | nil =>
      simp only [writeWalks] at h
      cases h
      exact ⟨⟨fun _ _ => rfl, by simp, by simp [deviceBytes]; rfl⟩, id⟩
    | cons b bs =>
      simp only [writeWalks, act_bind_eq_ok] at h
      obtain ⟨u, hu, h⟩ := h
      obtain ⟨hp, rfl⟩ := writeByte_spec hu
      obtain ⟨a, b', c⟩ := physWrite8_spec s w.pa b
      simp only [walkBytes, List.map_cons, List.nodup_cons] at hn
      obtain ⟨⟨d, g, e⟩, f⟩ := ih hn.2 h
      have hq : ∀ x : Walk, decide (regionOf (physWrite8 s w.pa b).plat x.pa = .ram) = decide (regionOf s.plat x.pa = .ram) :=
        fun x => by rw [regionOf_congr a.2]
      simp only [hq] at d
      refine ⟨⟨fun p hp' => ?_, fun hm x hx hr => ?_, ?_⟩, fun hm => f (b' hm)⟩
      · simp only [walkBytes, List.filter_cons] at hp'
        cases hr : regionOf s.plat w.pa with
        | ram =>
          simp only [hr, decide_true, if_true, List.map_cons, List.mem_cons, not_or] at hp'
          rw [d p hp'.2, c p hp'.1]
        | device =>
          simp only [hr, reduceCtorEq, decide_false, Bool.false_eq_true, if_false] at hp'
          rw [d p hp', physWrite8, hr]
          rfl
        | absent => exact (hp hr).elim
      · simp only [List.map_cons, List.zip_cons_cons, List.mem_cons] at hx
        rcases hx with rfl | hx
        · have hs : t.mem.read w.pa.toNat = (physWrite8 s w.pa b).mem.read w.pa.toNat := d _ fun hc => hn.1 (by
            simp only [walkBytes, List.mem_map, List.mem_filter] at hc ⊢
            obtain ⟨y, ⟨hy, -⟩, he⟩ := hc
            exact ⟨y, hy, he⟩)
          rw [hs, physWrite8, hr]
          exact Memory.read_write_same hm _ _
        · exact g (b' hm) x hx ((regionOf_congr a.2 x.1).trans hr)
      · cases hr : regionOf s.plat w.pa with
        | ram =>
          have hw8 : physWrite8 s w.pa b = s.setMem (s.mem.write w.pa.toNat b) := by simp [physWrite8, hr]
          rw [hw8] at e
          rw [e]
          simp only [deviceBytes, List.map_cons, List.zip_cons_cons]
          rw [List.filter_cons_of_neg (by simp [hr])]
          rfl
        | device =>
          have hw8 : physWrite8 s w.pa b = s.tell [.memWrite w.pa b] := by simp [physWrite8, hr]
          rw [hw8] at e
          rw [e]
          simp only [deviceBytes, List.map_cons, List.zip_cons_cons]
          rw [List.filter_cons_of_pos (by simpa using hr)]
          simp only [List.map_cons, List.reverse_cons]
          rw [← State.tell_tell]
          rfl
        | absent => exact (hp hr).elim

theorem Stores.onlyMemory {ws : List Walk} {s t : State} {bs : List Byte} (h : Stores ws s bs t) : OnlyMemory s t := by
  rw [h.2.2]
  exact (OnlyMemory.setMem s _).trans (OnlyMemory.tell _ _)

/-- A read whose walks all lead to memory gives the bytes there and leaves the state alone. -/
theorem readWalks_ram {ws : List Walk} {s : State} (h : ∀ w ∈ ws, regionOf s.plat w.pa = .ram) :
    readWalks ws s = .ok (ws.map fun w => s.mem.read w.pa.toNat, s) := by
  induction ws with
  | nil => rfl
  | cons w ws ih =>
    have h1 : readByte s w.pa = .ok (s.mem.read w.pa.toNat, s) := by
      simp [readByte, physByte_ram (h w (by simp)), h w (by simp)]
    simp [readWalks, h1, ih fun x hx => h x (by simp [hx])]

/-- A read is made where every byte is present, and stops where one is not (R70). -/
theorem readWalks_present {ws : List Walk} {s : State} (h : ∀ w ∈ ws, regionOf s.plat w.pa ≠ .absent) :
    ∃ r, readWalks ws s = .ok r := by
  induction ws generalizing s with
  | nil => exact ⟨_, rfl⟩
  | cons w ws ih =>
    have hw := h w (by simp)
    have h1 : ∃ b es, readByte s w.pa = .ok (b, s.tell es) := by
      unfold readByte
      cases hr : regionOf s.plat w.pa with
      | ram => exact ⟨_, [], rfl⟩
      | device => exact ⟨_, _, rfl⟩
      | absent => exact (hw hr).elim
    obtain ⟨b, es, h1⟩ := h1
    obtain ⟨r, hr⟩ := ih (s := s.tell es) fun x hx => h x (by simp [hx])
    exact ⟨_, by rw [readWalks, h1, act_ok_bind, hr]; rfl⟩

theorem readWalks_absent {ws : List Walk} {s : State} (h : ∃ w ∈ ws, regionOf s.plat w.pa = .absent) :
    readWalks ws s = .error (.fault .absentMemory) := by
  induction ws generalizing s with
  | nil => simp at h
  | cons w ws ih =>
    rw [readWalks]
    have h' (hr : regionOf s.plat w.pa ≠ .absent) : ∃ x ∈ ws, regionOf s.plat x.pa = .absent := by
      obtain ⟨x, hx, hxa⟩ := h
      rcases List.mem_cons.1 hx with rfl | hx
      · exact (hr hxa).elim
      · exact ⟨x, hx, hxa⟩
    cases hr : regionOf s.plat w.pa with
    | absent => simp [readByte, hr]
    | ram =>
      simp [readByte, hr, ih (h' (by simp [hr]))]
    | device =>
      simp only [readByte, hr, act_ok_bind]
      rw [ih (s := s.tell _) (h' (by simp [hr]))]
      rfl

/-- A write is made where every byte is present, and stops where one is not (R70). -/
theorem writeWalks_present {ws : List Walk} {bs : List Byte} {s : State} (h : ∀ w ∈ ws, regionOf s.plat w.pa ≠ .absent) :
    ∃ t, writeWalks ws bs s = .ok t := by
  induction ws generalizing bs s with
  | nil => exact ⟨s, by cases bs <;> rfl⟩
  | cons w ws ih =>
    cases bs with
    | nil => exact ⟨s, rfl⟩
    | cons b bs =>
      have h1 : writeByte s w.pa b = .ok (physWrite8 s w.pa b) := by
        unfold writeByte
        cases hr : regionOf s.plat w.pa with
        | ram => rfl
        | device => rfl
        | absent => exact (h w (by simp) hr).elim
      obtain ⟨t, ht⟩ := ih (bs := bs) (s := physWrite8 s w.pa b) fun x hx => by
        rw [regionOf_congr (physWrite8_spec s w.pa b).1.2]
        exact h x (by simp [hx])
      exact ⟨t, by rw [writeWalks, h1, act_ok_bind, ht]⟩

theorem writeWalks_absent {ws : List Walk} {bs : List Byte} {s : State} (hl : bs.length = ws.length)
    (h : ∃ w ∈ ws, regionOf s.plat w.pa = .absent) : writeWalks ws bs s = .error (.fault .absentMemory) := by
  induction ws generalizing bs s with
  | nil => simp at h
  | cons w ws ih =>
    cases bs with
    | nil => simp at hl
    | cons b bs =>
      rw [writeWalks]
      by_cases hw : regionOf s.plat w.pa = .absent
      · simp [writeByte, hw]
      · have h' : ∃ x ∈ ws, regionOf (physWrite8 s w.pa b).plat x.pa = .absent := by
          obtain ⟨x, hx, hxa⟩ := h
          rcases List.mem_cons.1 hx with rfl | hx
          · exact (hw hxa).elim
          · exact ⟨x, hx, by rw [regionOf_congr (physWrite8_spec s w.pa b).1.2]; exact hxa⟩
        have h1 : writeByte s w.pa b = .ok (physWrite8 s w.pa b) := by
          unfold writeByte
          cases hr : regionOf s.plat w.pa with
          | ram => rfl
          | device => rfl
          | absent => exact (hw hr).elim
        rw [h1, act_ok_bind, ih (by simpa using hl) h']

/-- The frame of an access that transferred bytes out of memory or devices. -/
theorem Transfers.frame {ws : List Walk} {s m t : State} {bs : List Byte} (hm : Marked ws s m) (h : Transfers ws m bs t) :
    AccessFrame ws [] s t := by
  obtain ⟨h1, h2⟩ := h.onlyMemory
  refine ⟨hm.1.trans h1, fun p _ hp => by rw [h2]; exact hm.read hp, m, hm, fun p _ => by rw [h2], fun hd => ?_⟩
  rw [h.2.2, deviceBytes_eq_nil fun w hw => by rw [regionOf_congr hm.1.2]; exact hd w hw]
  rfl

/-- The frame of an access that stored bytes. -/
theorem Stores.frame {ws : List Walk} {s m t : State} {bs : List Byte} (hm : Marked ws s m) (h : Stores ws m bs t) :
    AccessFrame ws (walkBytes ws) s t := by
  have hs : ∀ p, p ∉ walkBytes ws → t.mem.read p = m.mem.read p := fun p hp => h.1 p fun hc => hp (by
    simp only [walkBytes, List.mem_map, List.mem_filter] at hc ⊢
    obtain ⟨w, ⟨hw, -⟩, he⟩ := hc
    exact ⟨w, hw, he⟩)
  refine ⟨hm.1.trans h.onlyMemory, fun p hp hq => (hs p hp).trans (hm.read hq), m, hm, hs, fun hd => ?_⟩
  rw [h.2.2, deviceBytes_eq_nil fun w hw => by rw [regionOf_congr hm.1.2]; exact hd w hw]
  rfl

/-- What a read or fetch of bytes does (R72, R74). -/
theorem readBytes_spec {s : State} {kind : AccessKind} {la : Word} {n : Nat} {r : List Byte × State}
    (h : readBytes s kind la n = .ok r) :
    ∃ ws m, translateFrom s kind la n = .ok ws ∧ Marked ws s m ∧ Transfers ws m r.1 r.2 ∧
      (s.mem.wf = true → r.2.mem.wf = true) := by
  simp only [readBytes, act_bind_eq_ok] at h
  obtain ⟨ws, h1, h2⟩ := h
  have ht := readWalks_spec h2
  obtain ⟨hm, hwf⟩ := markUsed_spec ws s
  exact ⟨ws, _, h1, hm, ht, fun h => by rw [ht.onlyMemory.2]; exact hwf h⟩

/-- What a data read does (R72). -/
theorem memRead_spec {s t : State} {la v : Word} (h : memRead s la = .ok (v, t)) :
    ∃ ws m bs, translateFrom s .read la 4 = .ok ws ∧ Marked ws s m ∧ Transfers ws m bs t ∧ v = wordOfBytes bs ∧
      (s.mem.wf = true → t.mem.wf = true) := by
  simp only [memRead, act_bind_eq_ok] at h
  obtain ⟨r, hr, h⟩ := h
  cases h
  obtain ⟨ws, m, h1, h2, h3, h4⟩ := readBytes_spec hr
  exact ⟨ws, m, r.1, h1, h2, h3, rfl, h4⟩

/-- What a data read changes: nothing but marks in the page table entries it used. -/
theorem memRead_frame {s t : State} {la v : Word} (h : memRead s la = .ok (v, t)) :
    ∃ ws, translateFrom s .read la 4 = .ok ws ∧ AccessFrame ws [] s t ∧ (s.mem.wf = true → t.mem.wf = true) := by
  obtain ⟨ws, m, bs, h1, h2, h3, -, h4⟩ := memRead_spec h
  exact ⟨ws, h1, h3.frame h2, h4⟩

/-- What a fetch does (R74). -/
theorem memFetch_spec {s t : State} {la : Word} {w : InstrWord} (h : memFetch s la = .ok (w, t)) :
    ∃ ws m bs, translateFrom s .fetch la 8 = .ok ws ∧ Marked ws s m ∧ Transfers ws m bs t ∧ w = instrOfBytes bs ∧
      (s.mem.wf = true → t.mem.wf = true) := by
  simp only [memFetch, act_bind_eq_ok] at h
  obtain ⟨r, hr, h⟩ := h
  cases h
  obtain ⟨ws, m, h1, h2, h3, h4⟩ := readBytes_spec hr
  exact ⟨ws, m, r.1, h1, h2, h3, rfl, h4⟩

/-- What a fetch changes: nothing but marks in the page table entries it used. -/
theorem memFetch_frame {s t : State} {la : Word} {w : InstrWord} (h : memFetch s la = .ok (w, t)) :
    ∃ ws, translateFrom s .fetch la 8 = .ok ws ∧ AccessFrame ws [] s t ∧ (s.mem.wf = true → t.mem.wf = true) := by
  obtain ⟨ws, m, bs, h1, h2, h3, -, h4⟩ := memFetch_spec h
  exact ⟨ws, h1, h3.frame h2, h4⟩

/-- What a data write does (R73). -/
theorem memWrite_spec {s t : State} {la v : Word} (h : memWrite s la v = .ok t) :
    ∃ ws m, translateFrom s .write la 4 = .ok ws ∧ Marked ws s m ∧ Stores ws m (wordBytes v) t ∧
      (s.mem.wf = true → m.mem.wf = true) ∧ (s.mem.wf = true → t.mem.wf = true) := by
  simp only [memWrite, act_bind_eq_ok] at h
  obtain ⟨ws, h1, h2⟩ := h
  obtain ⟨hs, hw⟩ := writeWalks_spec (walkBytes_nodup (by norm_num) h1) h2
  obtain ⟨hm, hwf⟩ := markUsed_spec ws s
  exact ⟨ws, _, h1, hm, hs, hwf, fun h => hw (hwf h)⟩

/-- What a data write changes: the bytes it stores to, and marks in the page table entries it used. -/
theorem memWrite_frame {s t : State} {la v : Word} (h : memWrite s la v = .ok t) :
    ∃ ws, translateFrom s .write la 4 = .ok ws ∧ AccessFrame ws (walkBytes ws) s t ∧
      (s.mem.wf = true → t.mem.wf = true) := by
  obtain ⟨ws, m, h1, h2, h3, -, h4⟩ := memWrite_spec h
  exact ⟨ws, h1, h3.frame h2, h4⟩

/-- What a push does (R210): the element is written, then the pointer moves. -/
theorem push_spec {s t : State} {p : StackPtr} {v : Word} (h : push s p v = .ok t) :
    ∃ u, memWrite s (pushAddr s p) v = .ok u ∧ t = u.setSp p (pushAddr s p) := by
  simp only [push, act_bind_eq_ok] at h
  obtain ⟨u, hu, h⟩ := h
  cases h
  exact ⟨u, hu, rfl⟩

/-- What a pop does (R210): the element is read, then the pointer moves. -/
theorem pop_spec {s t : State} {p : StackPtr} {v : Word} (h : pop s p = .ok (v, t)) :
    ∃ u, memRead s (s.sp p) = .ok (v, u) ∧ t = u.setSp p (popNext s p) := by
  simp only [pop, act_bind_eq_ok] at h
  obtain ⟨r, hr, h⟩ := h
  cases h
  exact ⟨r.2, hr, rfl⟩

/-- An operand of `ADD` to `MOV` changes no register (R112). -/
theorem sourceValue_spec {s t : State} {src : Source} {b : Word} (h : sourceValue s src = .ok (b, t)) :
    OnlyMemory s t ∧ (s.mem.wf = true → t.mem.wf = true) := by
  cases src with
  | reg rs =>
    simp only [sourceValue, act_bind_eq_ok] at h
    obtain ⟨r, -, h⟩ := h
    cases h
    exact ⟨OnlyMemory.refl s, id⟩
  | imm i =>
    cases h
    exact ⟨OnlyMemory.refl s, id⟩
  | addr i =>
    obtain ⟨ws, -, h3, h4⟩ := memRead_frame h
    exact ⟨h3.1, h4⟩

/-! ### Interrupt entry (R250 to R256) -/

/-- The state `raise NMI` leaves: always one, with at most the error code, the pc, `run` and the platform's record
different (R256). -/
theorem raiseNmi_spec (code : Byte) (s : State) :
    ∃ (run : RunState) (i0 : Word) (es : List IoEvent),
      raiseNmi code s = .next (({ s with ie0 := code, i0 := i0, run := run } : State).tell es) := by
  unfold raiseNmi
  rcases physRead32_spec { s with ie0 := code } (s.ivtr + 12#32) with ⟨-, h⟩ | ⟨-, h⟩
  · exact ⟨.dead, s.i0, [], by simp only [h]; rfl⟩
  · simp only [h]
    split
    · exact ⟨.dead, s.i0, _, rfl⟩
    · exact ⟨s.run, _, _, rfl⟩

/-- Entry always has a next state: the saved context with at most the error code, the pc and `run` set by the delivery,
and the platform told what the reads of the IVT gave (R250 to R256). -/
theorem enter_next (n : Word) (code : Byte) (s : State) :
    ∃ (c : Byte) (run : RunState) (i0 : Word) (es : List IoEvent),
      enter n code s = .next (({ saveContext code s with ie0 := c, i0 := i0, run := run } : State).tell es) := by
  unfold enter deliver
  rcases physRead32_spec (saveContext code s) ((saveContext code s).ivtr + 4#32 * n) with ⟨-, h⟩ | ⟨-, h⟩
  · obtain ⟨run, i0, es, hn⟩ := raiseNmi_spec 0x00#8 (saveContext code s)
    exact ⟨0x00#8, run, i0, es, by simp only [h, hn]⟩
  · simp only [h]
    split
    · obtain ⟨run, i0, es, hn⟩ := raiseNmi_spec 0x01#8
        ((saveContext code s).tell (readEvents (saveContext code s) ((saveContext code s).ivtr + 4#32 * n)))
      refine ⟨0x01#8, run, i0, es ++ readEvents (saveContext code s) ((saveContext code s).ivtr + 4#32 * n), ?_⟩
      rw [hn, ← State.tell_tell]
      rfl
    · exact ⟨code, .running, _, _, rfl⟩

/-- What entry leaves of a state: the saved context, but for the error code, the pc, `run` and the platform's record. -/
theorem enter_spec {n : Word} {code : Byte} {s t : State} (h : enter n code s = .next t) :
    t = { saveContext code s with
      ie0 := t.ie0, i0 := t.i0, run := t.run, plat := { s.plat with ioLog := t.plat.ioLog } } := by
  obtain ⟨c, run, i0, es, he⟩ := enter_next n code s
  rw [he] at h
  cases h
  rfl

/-- The end of an instruction is its effect, or the entry of the interrupt it raised. -/
theorem finish_eq_next {s t : State} {r : Act State} :
    finish s r = .next t ↔ r = .ok t ∨ ∃ n code, r = .error (.interrupt n code) ∧ enter n code s = .next t := by
  unfold finish
  split <;> simp

@[simp] theorem finish_ok (s t : State) : finish s (.ok t) = .next t := rfl

@[simp] theorem finish_interrupt (s : State) (n : Word) (code : Byte) :
    finish s (.error (.interrupt n code)) = enter n code s := rfl

/-! ### The meanings as effects -/

/-- What each instruction does before its outcome is taken (R126 steps 3 to 7). -/
def effect : Instr → State → Act State
  | .add rd src, s => arith addOp rd src s
  | .sub rd src, s => arith subOp rd src s
  | .mul rd src, s => arith mulOp rd src s
  | .div rd src, s => arith divOp rd src s
  | .and rd src, s => arith andOp rd src s
  | .or rd src, s => arith orOp rd src s
  | .xor rd src, s => arith xorOp rd src s
  | .lsl rd src, s => arith lslOp rd src s
  | .lsr rd src, s => arith lsrOp rd src s
  | .cmp rd src, s => compare cmpFlags rd src s
  | .mov rd src, s => arith movOp rd src s
  | .zext rd rs, s => do
    let d ← gpr rd.toNat
    let b ← readForZext s rs.toNat
    .ok (s.setReg d (zextByte b))
  | .mfs rd rs, s => do
    let d ← gpr rd.toNat
    let v ← readForMfs s rs.toNat
    .ok (s.setReg d v)
  | .mts rd rs, s => moveToSpecial s rd.toNat rs.toNat
  | .ldr rd ea, s => do
    let d ← gpr rd.toNat
    let a ← targetValue s ea
    let r ← memRead s a
    .ok ((r.2.setReg d r.1).setFr (putS (putZ s.fr r.1) r.1))
  | .str rd ea, s => do
    let d ← gpr rd.toNat
    let a ← targetValue s ea
    memWrite s a (s.reg d)
  | .jmp tgt, s => branchIf true tgt s
  | .jar tgt, s => do
    let t ← targetValue s tgt
    .ok ((s.setReg 31 s.i0).setI0 t)
  | .beq tgt, s => branchIf (s.flag .c) tgt s
  | .bne tgt, s => branchIf (!s.flag .c) tgt s
  | .bz tgt, s => branchIf (s.flag .z) tgt s
  | .bnz tgt, s => branchIf (!s.flag .z) tgt s
  | .bg tgt, s => branchIf (s.flag .e) tgt s
  | .bl tgt, s => branchIf (!s.flag .e) tgt s
  | .call tgt, s => callOn .user tgt s
  | .kcall tgt, s => do
    requireSupervisor s
    callOn .kernel tgt s
  | .push src, s => pushOn .user src s
  | .pop rs, s => popOn .user rs s
  | .kpush src, s => do
    requireSupervisor s
    pushOn .kernel src s
  | .kpop rs, s => do
    requireSupervisor s
    popOn .kernel rs s
  | .swi src, s => do
    let n ← regImmValue s src
    .error (.interrupt n 0x00#8)
  | .inc rs, s => stepReg 1#32 rs s
  | .dec rs, s => stepReg (-1#32) rs s
  | .ret, s => returnOn .user s
  | .kret, s => do
    requireSupervisor s
    returnOn .kernel s
  | .iret, s => do
    requireSupervisor s
    .ok (restoreContext s)
  | .nop, s => .ok s
  | .hlt, s => .ok (s.setRun .halted)
  | .portIn rd port, s => do
    let d ← gpr rd.toNat
    let p ← regImmValue s port
    requirePort s p
    .ok ((portRead s p).2.setReg d (portRead s p).1)
  | .portOut rd port, s => do
    let d ← gpr rd.toNat
    let p ← regImmValue s port
    requirePort s p
    .ok (portWrite s p (s.reg d))

/-- Every meaning is its effect, ended by `finish`. -/
theorem exec_eq_finish (i : Instr) (s : State) : exec i s = finish s (effect i s) := by cases i <;> rfl

end Sys2Proof.Machine
end

