-- ==== Sys2Proof/Laws/Access.lean ====
section
/-! SUPPORT. The word an access loads or stores, when an access is made and when it stops, and what it leaves in the page table
entries it used. -/

namespace Sys2Proof.Machine

/-! ### The word -/

/-- Bytes transferred out of memory are the bytes there. -/
theorem Transfers.bytes_ram {ws : List Walk} {m t : State} {bs : List Byte} (h : Transfers ws m bs t)
    (hr : ∀ w ∈ ws, regionOf m.plat w.pa = .ram) : bs = (walkBytes ws).map m.mem.read := by
  obtain ⟨hl, hb, -⟩ := h
  apply List.ext_getElem (by simp [hl, walkBytes])
  intro k h1 h2
  have hk : k < ws.length := by omega
  have := hb ((ws[k]'hk).pa, bs[k]) (by
    rw [List.mem_iff_getElem]
    exact ⟨k, by simp [hl, hk], by simp⟩) (hr _ (List.getElem_mem hk))
  simpa [walkBytes] using this

/-- The word a read gives is the one in memory after it, where all its bytes are memory (R72). -/
theorem memRead_loaded {s t : State} {la v : Word} {ws : List Walk} (hw : translateFrom s .read la 4 = .ok ws)
    (h : memRead s la = .ok (v, t)) : LoadedWord ws t v := by
  obtain ⟨ws', m, bs, h1, h2, h3, rfl, -⟩ := memRead_spec h
  rw [hw] at h1
  cases h1
  intro hr
  have hm := h3.onlyMemory
  rw [h3.bytes_ram fun w hw => (regionOf_congr hm.1.2 w.pa).symm.trans (hr w hw), hm.2]

/-- Bytes stored behind walks that all lead to memory stand there afterwards. -/
theorem Stores.bytes_ram {ws : List Walk} {m t : State} {bs : List Byte} (h : Stores ws m bs t) (hl : bs.length = ws.length)
    (hm : m.mem.wf = true) (hr : ∀ w ∈ ws, regionOf m.plat w.pa = .ram) : (walkBytes ws).map t.mem.read = bs := by
  apply List.ext_getElem (by simp [hl, walkBytes])
  intro k h1 h2
  have hk : k < ws.length := by omega
  have := h.2.1 hm ((ws[k]'hk).pa, bs[k]) (by
    rw [List.mem_iff_getElem]
    exact ⟨k, by simp [hl, hk], by simp⟩) (hr _ (List.getElem_mem hk))
  simpa [walkBytes] using this

/-- The bytes a write leads to hold the word afterwards, where all of them are memory (R73). -/
theorem memWrite_stored {s t : State} {la v : Word} {ws : List Walk} (hw : translateFrom s .write la 4 = .ok ws)
    (h : memWrite s la v = .ok t) : StoredWord ws s t v := by
  obtain ⟨ws', m, h1, h2, h3, hmw, -⟩ := memWrite_spec h
  rw [hw] at h1
  cases h1
  exact fun hc hr => h3.bytes_ram (by simp [translateFrom_length hw]) (hmw hc) fun w hx =>
    (regionOf_congr h2.1.2 w.pa).trans (hr w hx)

/-! ### When an access is made, and when it stops -/

/-- A read whose translations succeed is made where every byte is present, and stops where one is not (R70). -/
theorem readBytes_present {s : State} {kind : AccessKind} {la : Word} {n : Nat} {ws : List Walk}
    (hw : translateFrom s kind la n = .ok ws) (hp : ∀ w ∈ ws, regionOf s.plat w.pa ≠ .absent) :
    ∃ r, readBytes s kind la n = .ok r := by
  simp only [readBytes, hw, act_ok_bind]
  exact readWalks_present fun w hx => by
    rw [regionOf_congr (markUsed_spec ws s).1.1.2]
    exact hp w hx

theorem readBytes_absent {s : State} {kind : AccessKind} {la : Word} {n : Nat} {ws : List Walk}
    (hw : translateFrom s kind la n = .ok ws) (hp : ∃ w ∈ ws, regionOf s.plat w.pa = .absent) :
    readBytes s kind la n = .error (.fault .absentMemory) := by
  simp only [readBytes, hw, act_ok_bind]
  obtain ⟨w, hx, ha⟩ := hp
  exact readWalks_absent ⟨w, hx, by
    rw [regionOf_congr (markUsed_spec ws s).1.1.2]
    exact ha⟩

/-- A write whose translations succeed is made where every byte is present, and stops where one is not (R70). -/
theorem memWrite_present {s : State} {la v : Word} {ws : List Walk} (hw : translateFrom s .write la 4 = .ok ws)
    (hp : ∀ w ∈ ws, regionOf s.plat w.pa ≠ .absent) : ∃ t, memWrite s la v = .ok t := by
  simp only [memWrite, hw, act_ok_bind]
  exact writeWalks_present fun w hx => by
    rw [regionOf_congr (markUsed_spec ws s).1.1.2]
    exact hp w hx

theorem memWrite_absent {s : State} {la v : Word} {ws : List Walk} (hw : translateFrom s .write la 4 = .ok ws)
    (hp : ∃ w ∈ ws, regionOf s.plat w.pa = .absent) : memWrite s la v = .error (.fault .absentMemory) := by
  simp only [memWrite, hw, act_ok_bind]
  obtain ⟨w, hx, ha⟩ := hp
  exact writeWalks_absent (by simp [translateFrom_length hw]) ⟨w, hx, by
    rw [regionOf_congr (markUsed_spec ws s).1.1.2]
    exact ha⟩

/-! ### The entries afterwards (R85) -/

/-- The entry a walk used holds what the table holds. -/
theorem translateFrom_entry {s : State} {kind : AccessKind} {la : Word} {n : Nat} {ws : List Walk} {e : EntryUse}
    (h : translateFrom s kind la n = .ok ws) (he : e ∈ usedEntries ws) : e.pte = physWord s e.ptea := by
  induction n generalizing la ws with
  | zero =>
    cases h
    simp [usedEntries] at he
  | succ n ih =>
    simp only [translateFrom, act_bind_eq_ok] at h
    obtain ⟨w, hw, ws', h', h''⟩ := h
    cases h''
    obtain ⟨x, hx, hxe⟩ := mem_usedEntries.1 he
    rcases List.mem_cons.1 hx with rfl | hx
    · unfold translate at hw
      split at hw
      · simp only [act_bind_eq_ok] at hw
        obtain ⟨pde, -, pte, hp, hw⟩ := hw
        split at hw
        · cases hw
        · cases hw
          cases hxe
          unfold readEntry at hp
          split at hp <;> cases hp <;> rfl
      · cases hw
        cases hxe
    · exact ih h' (mem_usedEntries.2 ⟨x, hx, hxe⟩)

/-- A word written reads back, wrapping at the top of the space too. -/
theorem Memory.readWord_writeWord {m : Memory} (hm : m.wf = true) (pa v : Word) : (m.writeWord pa v).readWord pa = v := by
  have key : ∀ (bs : List Byte) (m : Memory) (pa : Word), m.wf = true → bs.length ≤ 2 ^ 32 →
      (m.writeFrom pa bs).readFrom pa bs.length = bs := by
    intro bs
    induction bs with
    | nil => intros; rfl
    | cons b bs ih =>
      intro m pa hm hl
      simp only [List.length_cons] at hl
      simp only [Memory.writeFrom, List.length_cons, Memory.readFrom]
      rw [ih _ _ (Memory.wf_write b hm pa.isLt) (by omega), Memory.read_writeFrom_other,
        Memory.read_write_same hm]
      intro k hk hc
      have := pa.isLt
      simp only [BitVec.toNat_add, BitVec.toNat_ofNat] at hc
      omega
  have := key (wordBytes v) m pa hm (by simp)
  rw [length_wordBytes] at this
  rw [Memory.readWord, Memory.writeWord, this, wordOfBytes_wordBytes]

/-- Reading a word depends on its four bytes. -/
theorem Memory.readWord_congr {m m' : Memory} {pa : Word} (h : ∀ a ∈ wordAddrs pa, m.read a = m'.read a) :
    m.readWord pa = m'.readWord pa := by
  have e2 : pa + 1#32 + 1#32 = pa + 2#32 := by rw [BitVec.add_assoc]; rfl
  have e3 : pa + 2#32 + 1#32 = pa + 3#32 := by rw [BitVec.add_assoc]; rfl
  simp only [wordAddrs, List.mem_cons, List.not_mem_nil, or_false, forall_eq_or_imp, forall_eq] at h
  simp only [Memory.readWord, Memory.readFrom, e2, e3, h]

/-- After the marks are written, an entry in memory that no other one overlaps holds a marked value. -/
theorem WritesMarks.readWord {es : List EntryUse} {s m : State} {ptea pte : Word} (h : WritesMarks es s m)
    (hm : s.mem.wf = true) (hr : entryRegion s.plat ptea = .ram)
    (hpte : ∀ e ∈ es, e.ptea = ptea → e.pte = pte)
    (hd : ∀ e ∈ es, e.ptea = ptea ∨ ∀ a ∈ wordAddrs ptea, a ∉ wordAddrs e.ptea) :
    ((∃ e ∈ es, e.ptea = ptea) → MarkedValue pte (m.mem.readWord ptea)) ∧
      ((∀ e ∈ es, e.ptea ≠ ptea) → m.mem.readWord ptea = s.mem.readWord ptea) := by
  induction es generalizing s with
  | nil =>
    cases h
    simp
  | cons e es ih =>
    obtain ⟨v, hv, h⟩ := h
    obtain ⟨k1, k2, k3⟩ := physWrite32_spec s e.ptea v
    obtain ⟨i1, i2⟩ := ih h (k2 hm) ((entryRegion_congr k1.2 ptea).trans hr) (fun x hx => hpte x (by simp [hx]))
      (fun x hx => hd x (by simp [hx]))
    by_cases he : e.ptea = ptea
    · refine ⟨fun _ => ?_, fun hn => (hn e (by simp) he).elim⟩
      by_cases hx : ∃ x ∈ es, x.ptea = ptea
      · exact i1 hx
      · rw [i2 fun x hx' hc => hx ⟨x, hx', hc⟩]
        subst he
        rw [physWrite32_ram v hr, ← hpte e (by simp) rfl]
        simpa [Memory.readWord_writeWord hm] using hv
    · have hoth : (physWrite32 s e.ptea v).mem.readWord ptea = s.mem.readWord ptea :=
        Memory.readWord_congr fun a ha => k3 a ((hd e (by simp)).resolve_left he a ha)
      refine ⟨fun ⟨x, hx, hxe⟩ => i1 ?_, fun hn => ?_⟩
      · rcases List.mem_cons.1 hx with rfl | hx
        · exact (he hxe).elim
        · exact ⟨x, hx, hxe⟩
      · rw [i2 fun x hx => hn x (by simp [hx]), hoth]

/-- What an access leaves in an entry it used that stands in memory, where no other entry overlaps it (R85). -/
theorem Marked.readWord {s m : State} {kind : AccessKind} {la : Word} {n : Nat} {ws : List Walk} {e : EntryUse}
    (h : Marked ws s m) (hw : translateFrom s kind la n = .ok ws) (he : e ∈ usedEntries ws) (hm : s.mem.wf = true)
    (hr : entryRegion s.plat e.ptea = .ram)
    (hd : ∀ x ∈ usedEntries ws, x.ptea = e.ptea ∨ ∀ a ∈ wordAddrs e.ptea, a ∉ wordAddrs x.ptea) :
    MarkedValue e.pte (m.mem.readWord e.ptea) := by
  obtain ⟨-, k, hk, hmk, -⟩ := h
  rw [hmk]
  refine (hk.readWord (s := s.tell _) hm hr (fun x hx hxe => ?_) hd).1 ⟨e, he, rfl⟩
  rw [translateFrom_entry hw hx, translateFrom_entry hw he, hxe]

end Sys2Proof.Machine
end

