-- ==== Sys2Proof/Laws/Decode.lean ====
section
/-! SUPPORT. The fields of the three layouts (R102 to R104) read back from a packed word. -/

namespace Sys2Proof

@[simp] theorem opField_packRri (op : BitVec 6) (am : BitVec 2) (rd : BitVec 8) (main : Word) :
    opField (packRri op am rd main) = op := by
  apply BitVec.eq_of_getLsbD_eq
  intro k hk
  simp only [opField, packRri, BitVec.getLsbD_extractLsb', BitVec.getLsbD_append]
  simp [hk, show ¬ (58 + k < 16) by omega, show ¬ (58 + k - 16 < 32) by omega, show ¬ (58 + k - 16 - 32 < 8) by omega,
    show ¬ (58 + k - 16 - 32 - 8 < 2) by omega, show 58 + k - 16 - 32 - 8 - 2 = k by omega]

@[simp] theorem amField_packRri (op : BitVec 6) (am : BitVec 2) (rd : BitVec 8) (main : Word) :
    amField (packRri op am rd main) = am := by
  apply BitVec.eq_of_getLsbD_eq
  intro k hk
  simp only [amField, packRri, BitVec.getLsbD_extractLsb', BitVec.getLsbD_append]
  simp [hk, show ¬ (56 + k < 16) by omega, show ¬ (56 + k - 16 < 32) by omega, show ¬ (56 + k - 16 - 32 < 8) by omega,
    show 56 + k - 16 - 32 - 8 = k by omega]

@[simp] theorem rriRd_packRri (op : BitVec 6) (am : BitVec 2) (rd : BitVec 8) (main : Word) :
    rriRd (packRri op am rd main) = rd := by
  apply BitVec.eq_of_getLsbD_eq
  intro k hk
  simp only [rriRd, packRri, BitVec.getLsbD_extractLsb', BitVec.getLsbD_append]
  simp [hk, show ¬ (48 + k < 16) by omega, show ¬ (48 + k - 16 < 32) by omega, show 48 + k - 16 - 32 = k by omega]

@[simp] theorem rriMain_packRri (op : BitVec 6) (am : BitVec 2) (rd : BitVec 8) (main : Word) :
    rriMain (packRri op am rd main) = main := by
  apply BitVec.eq_of_getLsbD_eq
  intro k hk
  simp only [rriMain, packRri, BitVec.getLsbD_extractLsb', BitVec.getLsbD_append]
  simp [hk, show ¬ (16 + k < 16) by omega, show 16 + k - 16 = k by omega]

@[simp] theorem opField_packRi (op : BitVec 6) (am : BitVec 2) (main : Word) (ro rd : BitVec 8) :
    opField (packRi op am main ro rd) = op := by
  apply BitVec.eq_of_getLsbD_eq
  intro k hk
  simp only [opField, packRi, BitVec.getLsbD_extractLsb', BitVec.getLsbD_append]
  simp [hk, show ¬ (58 + k < 8) by omega, show ¬ (58 + k - 8 < 8) by omega, show ¬ (58 + k - 8 - 8 < 8) by omega,
    show ¬ (58 + k - 8 - 8 - 8 < 32) by omega, show ¬ (58 + k - 8 - 8 - 8 - 32 < 2) by omega,
    show 58 + k - 8 - 8 - 8 - 32 - 2 = k by omega]

@[simp] theorem amField_packRi (op : BitVec 6) (am : BitVec 2) (main : Word) (ro rd : BitVec 8) :
    amField (packRi op am main ro rd) = am := by
  apply BitVec.eq_of_getLsbD_eq
  intro k hk
  simp only [amField, packRi, BitVec.getLsbD_extractLsb', BitVec.getLsbD_append]
  simp [hk, show ¬ (56 + k < 8) by omega, show ¬ (56 + k - 8 < 8) by omega, show ¬ (56 + k - 8 - 8 < 8) by omega,
    show ¬ (56 + k - 8 - 8 - 8 < 32) by omega, show 56 + k - 8 - 8 - 8 - 32 = k by omega]

@[simp] theorem riMain_packRi (op : BitVec 6) (am : BitVec 2) (main : Word) (ro rd : BitVec 8) :
    riMain (packRi op am main ro rd) = main := by
  apply BitVec.eq_of_getLsbD_eq
  intro k hk
  simp only [riMain, packRi, BitVec.getLsbD_extractLsb', BitVec.getLsbD_append]
  simp [hk, show ¬ (24 + k < 8) by omega, show ¬ (24 + k - 8 < 8) by omega, show ¬ (24 + k - 8 - 8 < 8) by omega,
    show 24 + k - 8 - 8 - 8 = k by omega]

@[simp] theorem riRo_packRi (op : BitVec 6) (am : BitVec 2) (main : Word) (ro rd : BitVec 8) :
    riRo (packRi op am main ro rd) = ro := by
  apply BitVec.eq_of_getLsbD_eq
  intro k hk
  simp only [riRo, packRi, BitVec.getLsbD_extractLsb', BitVec.getLsbD_append]
  simp [hk, show ¬ (16 + k < 8) by omega, show ¬ (16 + k - 8 < 8) by omega, show 16 + k - 8 - 8 = k by omega]

@[simp] theorem riRd_packRi (op : BitVec 6) (am : BitVec 2) (main : Word) (ro rd : BitVec 8) :
    riRd (packRi op am main ro rd) = rd := by
  apply BitVec.eq_of_getLsbD_eq
  intro k hk
  simp only [riRd, packRi, BitVec.getLsbD_extractLsb', BitVec.getLsbD_append]
  simp [hk, show ¬ (8 + k < 8) by omega, show 8 + k - 8 = k by omega]

@[simp] theorem opField_packNa (op : BitVec 6) : opField (packNa op) = op := by
  apply BitVec.eq_of_getLsbD_eq
  intro k hk
  simp only [opField, packNa, BitVec.getLsbD_extractLsb', BitVec.getLsbD_append]
  simp [hk, show ¬ (58 + k < 58) by omega, show 58 + k - 58 = k by omega]

/-! ### The operand modes -/

/-- An operand of `ADD` to `MOV` reads back from its mode and field. -/
@[simp] theorem decodeSource_mode (src : Source) : decodeSource src.mode src.field = .ok src := by cases src <;> rfl

/-- A register-or-immediate operand reads back from its mode and field. -/
@[simp] theorem decodeRegImm_mode (src : RegImm) : decodeRegImm src.mode src.field = .ok src := by cases src <;> rfl

/-- A target reads back from its mode, field and offset. -/
@[simp] theorem decodeTarget_mode (tgt : Target) : decodeTarget tgt.mode tgt.field tgt.offset = tgt := by cases tgt <;> rfl

end Sys2Proof
end

