-- ==== Sys2Proof/Laws/Operands.lean ====
section
/-! SUPPORT. What the operand forms and the shapes the instructions share can do, and which page faults an access can raise. -/

namespace Sys2Proof.Machine

/-! ### Register fields -/

theorem gpr_of_eq {n : Nat} {d : Fin 32} (h : n = d.val) : gpr n = .ok d := gpr_eq_ok.2 h

theorem gpr_of_ge {n : Nat} (h : 32 ≤ n) : gpr n = .error (integrityFault 0x03#8) := gpr_eq_error.2 ⟨h, rfl⟩

/-- A target ends early only by `IPF(0x03)` (R114, R116). -/
theorem targetValue_error {s : State} {tgt : Target} {e : Stop} (h : targetValue s tgt = .error e) :
    e = integrityFault 0x03#8 := by
  cases tgt <;> simp only [targetValue, act_bind_eq_error, gpr_eq_error] at h
  · rcases h with h | ⟨a, -, h⟩ <;> [exact h.2; cases h]
  · cases h
  · rcases h with h | ⟨a, -, h | ⟨b, -, h⟩⟩ <;> [exact h.2; exact h.2; cases h]
  · rcases h with h | ⟨a, -, h⟩ <;> [exact h.2; cases h]

/-- A register-or-immediate operand ends early only by `IPF(0x03)` (R116). -/
theorem regImmValue_error {s : State} {src : RegImm} {e : Stop} (h : regImmValue s src = .error e) :
    e = integrityFault 0x03#8 := by
  cases src <;> simp only [regImmValue, act_bind_eq_error, gpr_eq_error] at h
  · rcases h with h | ⟨a, -, h⟩ <;> [exact h.2; cases h]
  · cases h

/-! ### Page faults of an access (R84) -/

/-- The error codes of the page faults an access can raise, in the order of their checks. -/
def pageFaultCodes : AccessKind → List Byte
  | .fetch => [0x00#8, 0x03#8, 0x02#8]
  | .read => [0x00#8, 0x03#8, 0x02#8]
  | .write => [0x00#8, 0x03#8, 0x02#8, 0x01#8]

theorem entryFault_mem {m : Mode} {kind : AccessKind} {pte : Word} {c : Byte} (h : entryFault m kind pte = some c) :
    c ∈ pageFaultCodes kind := by
  unfold entryFault at h
  split at h
  · cases h
    cases kind <;> simp [pageFaultCodes]
  · split at h
    · cases h
      cases kind <;> simp [pageFaultCodes]
    · split at h
      · cases h
        cases kind <;> simp [pageFaultCodes]
      · split at h
        · rename_i hk
          cases h
          simp only [Bool.and_eq_true, decide_eq_true_eq] at hk
          simp [hk.1, pageFaultCodes]
        · cases h

theorem readEntry_ne_interrupt {s : State} {pa n : Word} {c : Byte} (h : readEntry s pa = .error (.interrupt n c)) :
    False := by
  unfold readEntry at h
  split at h <;> cases h

theorem readWalks_ne_interrupt {ws : List Walk} {s : State} {n : Word} {c : Byte}
    (h : readWalks ws s = .error (.interrupt n c)) : False := by
  induction ws generalizing s with
  | nil => cases h
  | cons w ws ih =>
    simp only [readWalks, act_bind_eq_error] at h
    rcases h with h | ⟨a, -, h | ⟨b, -, h⟩⟩
    · unfold readByte at h
      split at h <;> cases h
    · exact ih h
    · cases h

theorem writeWalks_ne_interrupt {ws : List Walk} {bs : List Byte} {s : State} {n : Word} {c : Byte}
    (h : writeWalks ws bs s = .error (.interrupt n c)) : False := by
  induction ws generalizing bs s with
  | nil => cases bs <;> cases h
  | cons w ws ih =>
    cases bs with
    | nil => cases h
    | cons b bs =>
      simp only [writeWalks, act_bind_eq_error] at h
      rcases h with h | ⟨a, -, h⟩
      · unfold writeByte at h
        split at h <;> cases h
      · exact ih h

theorem translateFrom_interrupt {s : State} {kind : AccessKind} {la n : Word} {c : Byte} {k : Nat}
    (h : translateFrom s kind la k = .error (.interrupt n c)) : n = 1#32 ∧ c ∈ pageFaultCodes kind := by
  induction k generalizing la with
  | zero => cases h
  | succ k ih =>
    simp only [translateFrom, act_bind_eq_error] at h
    rcases h with h | ⟨a, -, h | ⟨b, -, h⟩⟩
    · unfold translate at h
      split at h
      · simp only [act_bind_eq_error] at h
        rcases h with h | ⟨a, -, h | ⟨b, -, h⟩⟩
        · exact (readEntry_ne_interrupt h).elim
        · exact (readEntry_ne_interrupt h).elim
        · split at h
          · rename_i code hc
            cases h
            exact ⟨rfl, entryFault_mem hc⟩
          · cases h
      · cases h
    · exact ih h
    · cases h

/-- A data read raises only the page faults of a read. -/
theorem memRead_interrupt {s : State} {la n : Word} {c : Byte} (h : memRead s la = .error (.interrupt n c)) :
    n = 1#32 ∧ c ∈ pageFaultCodes .read := by
  simp only [memRead, readBytes, act_bind_eq_error] at h
  rcases h with (h | ⟨a, -, h⟩) | ⟨b, -, h⟩
  · exact translateFrom_interrupt h
  · exact (readWalks_ne_interrupt h).elim
  · cases h

/-- A fetch raises only the page faults of a fetch. -/
theorem memFetch_interrupt {s : State} {la n : Word} {c : Byte} (h : memFetch s la = .error (.interrupt n c)) :
    n = 1#32 ∧ c ∈ pageFaultCodes .fetch := by
  simp only [memFetch, readBytes, act_bind_eq_error] at h
  rcases h with (h | ⟨a, -, h⟩) | ⟨b, -, h⟩
  · exact translateFrom_interrupt h
  · exact (readWalks_ne_interrupt h).elim
  · cases h

/-- A data write raises only the page faults of a write. -/
theorem memWrite_interrupt {s : State} {la v n : Word} {c : Byte} (h : memWrite s la v = .error (.interrupt n c)) :
    n = 1#32 ∧ c ∈ pageFaultCodes .write := by
  simp only [memWrite, act_bind_eq_error] at h
  rcases h with h | ⟨b, -, h⟩
  · exact translateFrom_interrupt h
  · exact (writeWalks_ne_interrupt h).elim

/-! ### The shared shapes -/

/-- Reading an operand of `ADD` to `MOV` leaves the frame `SourceFrame` names. -/
theorem sourceFrame_of_ok {s u : State} {src : Source} {b : Word} (h : sourceValue s src = .ok (b, u)) :
    SourceFrame src s u := by
  cases src with
  | reg rs =>
    simp only [sourceValue, act_bind_eq_ok] at h
    obtain ⟨r, -, h⟩ := h
    cases h
    rfl
  | imm i =>
    cases h
    rfl
  | addr i =>
    obtain ⟨ws, h1, h3, -⟩ := memRead_frame h
    exact ⟨ws, h1, h3⟩

/-- The template of R140 on operands that can be read. -/
theorem arith_eq_ok {op : Word → Word → Byte → Word × Byte} {rd : BitVec 8} {src : Source} {s u : State} {d : Fin 32}
    {b : Word} (hd : rd.toNat = d.val) (hs : sourceValue s src = .ok (b, u)) :
    arith op rd src s = .ok ((u.setReg d (op (s.reg d) b s.fr).1).setFr (op (s.reg d) b s.fr).2) := by
  simp [arith, gpr_of_eq hd, hs]

/-- What an instruction of the template of R140 does, if it does not end early. -/
theorem arith_spec {op : Word → Word → Byte → Word × Byte} {rd : BitVec 8} {src : Source} {s t : State}
    (h : arith op rd src s = .ok t) :
    ∃ (d : Fin 32) (b : Word) (u : State), rd.toNat = d.val ∧ sourceValue s src = .ok (b, u) ∧
      t = (u.setReg d (op (s.reg d) b s.fr).1).setFr (op (s.reg d) b s.fr).2 := by
  simp only [arith, act_bind_eq_ok] at h
  obtain ⟨d, hd, b, hb, h⟩ := h
  cases h
  exact ⟨d, b.1, b.2, gpr_eq_ok.1 hd, hb, rfl⟩

/-- `CMP` on operands that can be read. -/
theorem compare_eq_ok {op : Word → Word → Byte → Byte} {rd : BitVec 8} {src : Source} {s u : State} {d : Fin 32} {b : Word}
    (hd : rd.toNat = d.val) (hs : sourceValue s src = .ok (b, u)) :
    compare op rd src s = .ok (u.setFr (op (s.reg d) b s.fr)) := by simp [compare, gpr_of_eq hd, hs]

/-- What `CMP` does, if it does not end early. -/
theorem compare_spec {op : Word → Word → Byte → Byte} {rd : BitVec 8} {src : Source} {s t : State}
    (h : compare op rd src s = .ok t) :
    ∃ (d : Fin 32) (b : Word) (u : State), rd.toNat = d.val ∧ sourceValue s src = .ok (b, u) ∧
      t = u.setFr (op (s.reg d) b s.fr) := by
  simp only [compare, act_bind_eq_ok] at h
  obtain ⟨d, hd, b, hb, h⟩ := h
  cases h
  exact ⟨d, b.1, b.2, gpr_eq_ok.1 hd, hb, rfl⟩

/-- A push changes memory, the platform's records and its own pointer. -/
theorem push_frame {s t : State} {p : StackPtr} {v : Word} (h : push s p v = .ok t) :
    t = ({ s with mem := t.mem, plat := t.plat } : State).setSp p (pushAddr s p) ∧
      (s.mem.wf = true → t.mem.wf = true) ∧ SamePlatformMap s.plat t.plat := by
  obtain ⟨u, hu, rfl⟩ := push_spec h
  obtain ⟨ws, -, ⟨h1, -⟩, h3⟩ := memWrite_frame hu
  rw [h1.1]
  cases p
  · exact ⟨rfl, h3, h1.2⟩
  · exact ⟨rfl, h3, h1.2⟩

/-- A pop changes its own pointer, and what marking page table entries changes. -/
theorem pop_frame {s t : State} {p : StackPtr} {v : Word} (h : pop s p = .ok (v, t)) :
    t = ({ s with mem := t.mem, plat := t.plat } : State).setSp p (popNext s p) ∧
      (s.mem.wf = true → t.mem.wf = true) ∧ SamePlatformMap s.plat t.plat := by
  obtain ⟨u, hu, rfl⟩ := pop_spec h
  obtain ⟨ws, -, h1, h3⟩ := memRead_frame hu
  rw [h1.1.1]
  cases p
  · exact ⟨rfl, h3, h1.1.2⟩
  · exact ⟨rfl, h3, h1.1.2⟩

/-- `MTS` writes the register its number names, by `writeSpecial`, and from user mode only one user mode may write. -/
theorem moveToSpecial_spec {s t : State} {rd rs : Nat} (h : moveToSpecial s rd rs = .ok t) :
    ∃ (r : SpecialReg) (g : Fin 32), specialOfNumber rd = some r ∧ rs = g.val ∧ writeSpecial s r (s.reg g) = some t ∧
      (s.mode = .user → userWriteFault r = none) := by
  unfold moveToSpecial at h
  split at h
  · cases h
  · rename_i r hr
    simp only [act_bind_eq_ok] at h
    obtain ⟨g, hg, h⟩ := h
    split at h
    · cases h
    · rename_i t' ht
      split at h
      · cases h
      · rename_i hn
        cases h
        refine ⟨r, g, hr, gpr_eq_ok.1 hg, ht, fun hu => ?_⟩
        cases hc : userWriteFault r with
        | none => rfl
        | some c => exact (hn c hu hc).elim

/-- The write of a special register leaves memory, the platform and `run` alone. -/
theorem writeSpecial_frame {s t : State} {r : SpecialReg} {v : Word} (h : writeSpecial s r v = some t) :
    t.intTaken = s.intTaken ∧ t.mem = s.mem ∧ t.plat = s.plat ∧ t.run = s.run ∧ t.regs = s.regs ∧ t.i0 = s.i0 := by
  cases r <;> simp only [writeSpecial] at h <;> cases h <;> exact ⟨rfl, rfl, rfl, rfl, rfl, rfl⟩

end Sys2Proof.Machine
end

