-- ==== Sys2Proof/Laws/Effects.lean ====
section
/-! SUPPORT. What each instruction may write, said once for every instruction. -/

namespace Sys2Proof.Machine

/-- What an effect may write: the canonical form of memory and the installed platform stay, and beyond memory and the
platform's records, only the fields the instruction's row lets it write. -/
def EffectFrame (i : Instr) (s t : State) : Prop :=
  (s.mem.wf = true → t.mem.wf = true) ∧ t.plat.absent = s.plat.absent ∧ t.plat.devices = s.plat.devices ∧
    match i with
    | .mts rd rs =>
      ∃ (r : SpecialReg) (g : Fin 32), specialOfNumber rd.toNat = some r ∧ rs.toNat = g.val ∧
        writeSpecial s r (s.reg g) = some t ∧ (s.mode = .user → userWriteFault r = none)
    | .iret => s.mode = .supervisor ∧ t = restoreContext s
    | .kcall _ | .kpush _ | .kpop _ | .kret =>
      s.mode = .supervisor ∧ t = { s with regs := t.regs, i0 := t.i0, s1 := t.s1, mem := t.mem, plat := t.plat }
    | .hlt => t = s.setRun .halted
    | .add _ _ | .sub _ _ | .mul _ _ | .div _ _ | .and _ _ | .or _ _ | .xor _ _ | .lsl _ _ | .lsr _ _ | .cmp _ _
    | .mov _ _ | .ldr _ _ => t = { s with regs := t.regs, fr := t.fr, mem := t.mem, plat := t.plat }
    | _ => t = { s with regs := t.regs, i0 := t.i0, s0 := t.s0, mem := t.mem, plat := t.plat }

theorem effect_frame {i : Instr} {s t : State} (h : effect i s = .ok t) : EffectFrame i s t := by
  cases i
  case add | sub | mul | div | and | or | xor | lsl | lsr | mov =>
    obtain ⟨d, b, u, -, hu, rfl⟩ := arith_spec h
    obtain ⟨h1, h2⟩ := sourceValue_spec hu
    exact ⟨h2, h1.2.1, h1.2.2.1, by rw [h1.1]; rfl⟩
  case cmp =>
    obtain ⟨d, b, u, -, hu, rfl⟩ := compare_spec h
    obtain ⟨h1, h2⟩ := sourceValue_spec hu
    exact ⟨h2, h1.2.1, h1.2.2.1, by rw [h1.1]; rfl⟩
  case zext =>
    simp only [effect, act_bind_eq_ok] at h
    obtain ⟨d, hd, b, hb, h⟩ := h
    cases h; exact ⟨id, rfl, rfl, rfl⟩
  case mfs =>
    simp only [effect, act_bind_eq_ok] at h
    obtain ⟨d, hd, b, hb, h⟩ := h
    cases h; exact ⟨id, rfl, rfl, rfl⟩
  case mts =>
    obtain ⟨r, g, hr, hg, hw, hu⟩ := moveToSpecial_spec h
    obtain ⟨-, h2, h3, -⟩ := writeSpecial_frame hw
    exact ⟨by rw [h2]; exact id, by rw [h3], by rw [h3], r, g, hr, hg, hw, hu⟩
  case ldr =>
    simp only [effect, act_bind_eq_ok] at h
    obtain ⟨d, hd, a, ha, ⟨v, u⟩, hr, h⟩ := h
    cases h
    obtain ⟨ws, -, h1, h2⟩ := memRead_frame hr
    exact ⟨h2, h1.1.2.1, h1.1.2.2.1, by rw [h1.1.1]; rfl⟩
  case str =>
    simp only [effect, act_bind_eq_ok] at h
    obtain ⟨d, hd, a, ha, hr⟩ := h
    obtain ⟨ws, -, h1, h2⟩ := memWrite_frame hr
    exact ⟨h2, h1.1.2.1, h1.1.2.2.1, by rw [h1.1.1]⟩
  case jmp | beq | bne | bz | bnz | bg | bl =>
    simp only [effect, branchIf, act_bind_eq_ok] at h
    obtain ⟨a, -, h⟩ := h
    cases h
    first | exact ⟨id, rfl, rfl, rfl⟩ | (split <;> exact ⟨id, rfl, rfl, rfl⟩)
  case jar =>
    simp only [effect, act_bind_eq_ok] at h
    obtain ⟨a, -, h⟩ := h
    cases h
    exact ⟨id, rfl, rfl, rfl⟩
  case call =>
    simp only [effect, callOn, act_bind_eq_ok] at h
    obtain ⟨a, -, u, hu, h⟩ := h
    cases h
    obtain ⟨h1, h2, h3⟩ := push_frame hu
    exact ⟨h2, h3.1, h3.2.1, by rw [h1]; rfl⟩
  case kcall =>
    simp only [effect, callOn, act_bind_eq_ok, requireSupervisor_eq_ok] at h
    obtain ⟨_, hm, a, -, u, hu, h⟩ := h
    cases h
    obtain ⟨h1, h2, h3⟩ := push_frame hu
    exact ⟨h2, h3.1, h3.2.1, hm, by rw [h1]; rfl⟩
  case push =>
    simp only [effect, pushOn, act_bind_eq_ok] at h
    obtain ⟨a, -, hu⟩ := h
    obtain ⟨h1, h2, h3⟩ := push_frame hu
    exact ⟨h2, h3.1, h3.2.1, by rw [h1]; rfl⟩
  case kpush =>
    simp only [effect, pushOn, act_bind_eq_ok, requireSupervisor_eq_ok] at h
    obtain ⟨_, hm, a, -, hu⟩ := h
    obtain ⟨h1, h2, h3⟩ := push_frame hu
    exact ⟨h2, h3.1, h3.2.1, hm, by rw [h1]; rfl⟩
  case pop =>
    simp only [effect, popOn, act_bind_eq_ok] at h
    obtain ⟨a, -, ⟨v, u⟩, hu, h⟩ := h
    cases h
    obtain ⟨h1, h2, h3⟩ := pop_frame hu
    exact ⟨h2, h3.1, h3.2.1, by rw [h1]; rfl⟩
  case kpop =>
    simp only [effect, popOn, act_bind_eq_ok, requireSupervisor_eq_ok] at h
    obtain ⟨_, hm, a, -, ⟨v, u⟩, hu, h⟩ := h
    cases h
    obtain ⟨h1, h2, h3⟩ := pop_frame hu
    exact ⟨h2, h3.1, h3.2.1, hm, by rw [h1]; rfl⟩
  case ret =>
    simp only [effect, returnOn, act_bind_eq_ok] at h
    obtain ⟨⟨v, u⟩, hu, h⟩ := h
    cases h
    obtain ⟨h1, h2, h3⟩ := pop_frame hu
    exact ⟨h2, h3.1, h3.2.1, by rw [h1]; rfl⟩
  case kret =>
    simp only [effect, returnOn, act_bind_eq_ok, requireSupervisor_eq_ok] at h
    obtain ⟨_, hm, ⟨v, u⟩, hu, h⟩ := h
    cases h
    obtain ⟨h1, h2, h3⟩ := pop_frame hu
    exact ⟨h2, h3.1, h3.2.1, hm, by rw [h1]; rfl⟩
  case swi =>
    simp only [effect, act_bind_eq_ok] at h
    obtain ⟨a, -, h⟩ := h
    cases h
  case inc | dec =>
    simp only [effect, stepReg, act_bind_eq_ok] at h
    obtain ⟨a, -, h⟩ := h
    cases h
    exact ⟨id, rfl, rfl, rfl⟩
  case iret =>
    simp only [effect, act_bind_eq_ok, requireSupervisor_eq_ok] at h
    obtain ⟨_, hm, h⟩ := h
    cases h
    exact ⟨id, rfl, rfl, hm, rfl⟩
  case nop => cases h; exact ⟨id, rfl, rfl, rfl⟩
  case hlt => cases h; exact ⟨id, rfl, rfl, rfl⟩
  case portIn =>
    simp only [effect, act_bind_eq_ok] at h
    obtain ⟨d, -, p, -, _, -, h⟩ := h
    cases h
    exact ⟨id, rfl, rfl, rfl⟩
  case portOut =>
    simp only [effect, act_bind_eq_ok] at h
    obtain ⟨d, -, p, -, _, -, h⟩ := h
    cases h
    exact ⟨id, rfl, rfl, rfl⟩

/-- An instruction's own effect never marks an entry. -/
theorem effect_intTaken {i : Instr} {s t : State} (h : effect i s = .ok t) : t.intTaken = s.intTaken := by
  obtain ⟨-, -, -, hf⟩ := effect_frame h
  cases i
  case mts =>
    obtain ⟨r, g, -, -, hw, -⟩ := hf
    exact (writeSpecial_frame hw).1
  case iret =>
    rw [hf.2]
    rfl
  case kcall | kpush | kpop | kret => rw [hf.2]
  case hlt =>
    rw [hf]
    rfl
  all_goals rw [hf]

/-- An instruction ends in its own effect or in the interrupt it raised. -/
theorem exec_cases {i : Instr} {s t : State} (h : exec i s = .next t) :
    effect i s = .ok t ∨ ∃ n c, effect i s = .error (.interrupt n c) ∧ enter n c s = .next t := by
  rw [exec_eq_finish, finish_eq_next] at h
  exact h

/-- Which of the two it was stands in `intTaken`. -/
theorem exec_cases_intTaken {i : Instr} {s t : State} (h : exec i s = .next t) (h0 : s.intTaken = false) :
    (t.intTaken = false ∧ effect i s = .ok t) ∨ (t.intTaken = true ∧ ∃ n c, enter n c s = .next t) := by
  rcases exec_cases h with h | ⟨n, c, -, h⟩
  · exact .inl ⟨by rw [effect_intTaken h, h0], h⟩
  · exact .inr ⟨by rw [enter_spec h]; rfl, n, c, h⟩

end Sys2Proof.Machine
end

