-- ==== Sys2Proof/Laws/Flags.lean ====
section
/-! SUPPORT. What one flag reads after another is written (R30, R32). -/

namespace Sys2Proof.Machine

/-- A flag written reads as written, and no other flag moves. -/
theorem getFlag_putFlag (fr : Byte) (f q : Flag) (v : Bool) :
    getFlag (putFlag fr f v) q = if q = f then v else getFlag fr q := by
  cases f <;> cases q <;> cases v <;>
    simp [getFlag, putFlag, Flag.bit]

@[simp] theorem getFlag_putZ (fr : Byte) (r : Word) (q : Flag) :
    getFlag (putZ fr r) q = if q = .z then decide (r = 0#32) else getFlag fr q := getFlag_putFlag _ _ _ _

@[simp] theorem getFlag_putS (fr : Byte) (r : Word) (q : Flag) :
    getFlag (putS fr r) q = if q = .s then r.msb else getFlag fr q := getFlag_putFlag _ _ _ _

/-- Two values of `FR` with the same eight flags are the same (R30). -/
theorem fr_ext {a b : Byte} (h : ∀ f : Flag, getFlag a f = getFlag b f) : a = b := by
  apply BitVec.eq_of_getLsbD_eq
  intro k hk
  match k, hk with
  | 0, _ => exact h .c
  | 1, _ => exact h .z
  | 2, _ => exact h .s
  | 3, _ => exact h .v
  | 4, _ => exact h .e
  | 5, _ => exact h .i
  | 6, _ => exact h .g
  | 7, _ => exact h .t

end Sys2Proof.Machine
end

