-- ==== Sys2Proof/Laws/PerInstr.lean ====
section
/-! SUPPORT. Statements about every instruction, one lemma a constructor. -/

namespace Sys2Proof.Laws

/-- The encoded word carries its row's opcode in bits 63:58 (R105, R120). -/
def OpcodeBits.Statement (i : Instr) : Prop := opField (encode i) = opcodeOf i

theorem OpcodeBits.add (rd : BitVec 8) (src : Source) : OpcodeBits.Statement (.add rd src) := opField_packRri _ _ _ _
theorem OpcodeBits.sub (rd : BitVec 8) (src : Source) : OpcodeBits.Statement (.sub rd src) := opField_packRri _ _ _ _
theorem OpcodeBits.mul (rd : BitVec 8) (src : Source) : OpcodeBits.Statement (.mul rd src) := opField_packRri _ _ _ _
theorem OpcodeBits.div (rd : BitVec 8) (src : Source) : OpcodeBits.Statement (.div rd src) := opField_packRri _ _ _ _
theorem OpcodeBits.and (rd : BitVec 8) (src : Source) : OpcodeBits.Statement (.and rd src) := opField_packRri _ _ _ _
theorem OpcodeBits.or (rd : BitVec 8) (src : Source) : OpcodeBits.Statement (.or rd src) := opField_packRri _ _ _ _
theorem OpcodeBits.xor (rd : BitVec 8) (src : Source) : OpcodeBits.Statement (.xor rd src) := opField_packRri _ _ _ _
theorem OpcodeBits.lsl (rd : BitVec 8) (src : Source) : OpcodeBits.Statement (.lsl rd src) := opField_packRri _ _ _ _
theorem OpcodeBits.lsr (rd : BitVec 8) (src : Source) : OpcodeBits.Statement (.lsr rd src) := opField_packRri _ _ _ _
theorem OpcodeBits.cmp (rd : BitVec 8) (src : Source) : OpcodeBits.Statement (.cmp rd src) := opField_packRri _ _ _ _
theorem OpcodeBits.mov (rd : BitVec 8) (src : Source) : OpcodeBits.Statement (.mov rd src) := opField_packRri _ _ _ _
theorem OpcodeBits.zext (rd : BitVec 8) (rs : Word) : OpcodeBits.Statement (.zext rd rs) := opField_packRri _ _ _ _
theorem OpcodeBits.mfs (rd : BitVec 8) (rs : Word) : OpcodeBits.Statement (.mfs rd rs) := opField_packRri _ _ _ _
theorem OpcodeBits.mts (rd : BitVec 8) (rs : Word) : OpcodeBits.Statement (.mts rd rs) := opField_packRri _ _ _ _
theorem OpcodeBits.ldr (rd : BitVec 8) (ea : Target) : OpcodeBits.Statement (.ldr rd ea) := opField_packRi _ _ _ _ _
theorem OpcodeBits.str (rd : BitVec 8) (ea : Target) : OpcodeBits.Statement (.str rd ea) := opField_packRi _ _ _ _ _
theorem OpcodeBits.jmp (tgt : Target) : OpcodeBits.Statement (.jmp tgt) := opField_packRi _ _ _ _ _
theorem OpcodeBits.jar (tgt : Target) : OpcodeBits.Statement (.jar tgt) := opField_packRi _ _ _ _ _
theorem OpcodeBits.beq (tgt : Target) : OpcodeBits.Statement (.beq tgt) := opField_packRi _ _ _ _ _
theorem OpcodeBits.bne (tgt : Target) : OpcodeBits.Statement (.bne tgt) := opField_packRi _ _ _ _ _
theorem OpcodeBits.bz (tgt : Target) : OpcodeBits.Statement (.bz tgt) := opField_packRi _ _ _ _ _
theorem OpcodeBits.bnz (tgt : Target) : OpcodeBits.Statement (.bnz tgt) := opField_packRi _ _ _ _ _
theorem OpcodeBits.bg (tgt : Target) : OpcodeBits.Statement (.bg tgt) := opField_packRi _ _ _ _ _
theorem OpcodeBits.bl (tgt : Target) : OpcodeBits.Statement (.bl tgt) := opField_packRi _ _ _ _ _
theorem OpcodeBits.call (tgt : Target) : OpcodeBits.Statement (.call tgt) := opField_packRi _ _ _ _ _
theorem OpcodeBits.kcall (tgt : Target) : OpcodeBits.Statement (.kcall tgt) := opField_packRi _ _ _ _ _
theorem OpcodeBits.push (src : RegImm) : OpcodeBits.Statement (.push src) := opField_packRi _ _ _ _ _
theorem OpcodeBits.pop (rs : Word) : OpcodeBits.Statement (.pop rs) := opField_packRi _ _ _ _ _
theorem OpcodeBits.kpush (src : RegImm) : OpcodeBits.Statement (.kpush src) := opField_packRi _ _ _ _ _
theorem OpcodeBits.kpop (rs : Word) : OpcodeBits.Statement (.kpop rs) := opField_packRi _ _ _ _ _
theorem OpcodeBits.swi (src : RegImm) : OpcodeBits.Statement (.swi src) := opField_packRi _ _ _ _ _
theorem OpcodeBits.inc (rs : Word) : OpcodeBits.Statement (.inc rs) := opField_packRi _ _ _ _ _
theorem OpcodeBits.dec (rs : Word) : OpcodeBits.Statement (.dec rs) := opField_packRi _ _ _ _ _
theorem OpcodeBits.ret : OpcodeBits.Statement (.ret) := opField_packNa _
theorem OpcodeBits.kret : OpcodeBits.Statement (.kret) := opField_packNa _
theorem OpcodeBits.iret : OpcodeBits.Statement (.iret) := opField_packNa _
theorem OpcodeBits.nop : OpcodeBits.Statement (.nop) := opField_packNa _
theorem OpcodeBits.hlt : OpcodeBits.Statement (.hlt) := opField_packNa _
theorem OpcodeBits.portIn (rd : BitVec 8) (port : RegImm) : OpcodeBits.Statement (.portIn rd port) := opField_packRri _ _ _ _
theorem OpcodeBits.portOut (rd : BitVec 8) (port : RegImm) : OpcodeBits.Statement (.portOut rd port) := opField_packRri _ _ _ _

end Sys2Proof.Laws
end

