-- ==== Sys2Proof/Laws/Step.lean ====
section
/-! SUPPORT. What one step can do (R240), said once, and what each instruction may write. -/

namespace Sys2Proof.Machine

/-! ### The frame of a step -/

theorem closeStep_eq_next {o : Host.Outcome State Fault Refusal} {t : State} :
    closeStep o = .next t ↔ ∃ u, o = .next u ∧ t = u.setIntTaken false := by
  cases o <;> simp [closeStep, eq_comm]

theorem trapAfter_eq_next {b : Bool} {o : Host.Outcome State Fault Refusal} {t : State} :
    trapAfter b o = .next t ↔
      ∃ u, o = .next u ∧ ((b = true ∧ u.intTaken = false ∧ enter 4#32 0x00#8 u = .next t) ∨
        ((b = false ∨ u.intTaken = true) ∧ t = u)) := by
  cases o with
  | next u =>
    constructor
    · intro h
      refine ⟨u, rfl, ?_⟩
      unfold trapAfter at h
      cases b <;> cases hu : u.intTaken <;> simp only [hu] at h <;> first
        | exact .inl ⟨rfl, rfl, h⟩
        | exact .inr ⟨by simp, by cases h; rfl⟩
    · rintro ⟨v, hv, hcase⟩
      cases hv
      rcases hcase with ⟨rfl, hu, he⟩ | ⟨hor, rfl⟩
      · simpa [trapAfter, hu] using he
      · rcases hor with rfl | hu
        · rfl
        · simp [trapAfter, hu]
  | fault f => simp [trapAfter]
  | refused r => simp [trapAfter]

/-- What fetching and executing can do: the fetch faults, the word is invalid, or the decoded instruction runs and a
trap may follow. -/
theorem fetchExecute_cases {s t : State} (h : fetchExecute exec s = .next t) :
    (∃ e, memFetch s s.i0 = .error e ∧ finish s (.error e) = .next t) ∨
    (∃ w u e, memFetch s s.i0 = .ok (w, u) ∧ decode w = .error e ∧ enter 0#32 0x00#8 (advance u) = .next t) ∨
    (∃ w u i, memFetch s s.i0 = .ok (w, u) ∧ decode w = .ok i ∧
      trapAfter (s.flag .t) (exec i (advance u)) = .next t) := by
  unfold fetchExecute at h
  split at h
  · rename_i e he
    exact .inl ⟨e, he, h⟩
  · rename_i w u hw
    split at h
    · rename_i e he
      exact .inr (.inl ⟨w, u, e, hw, he, h⟩)
    · rename_i i hi
      exact .inr (.inr ⟨w, u, i, hw, hi, h⟩)

/-- What a step can do: nothing (dead, or halted with nothing taken), an external interrupt, or an instruction. -/
theorem step_cases {s t : State} (h : step s = .next t) :
    ((s.run = .dead ∨ s.run = .halted) ∧ t = beginStep s) ∨
    (s.run ≠ .dead ∧ ∃ n u, acceptedIrq (presentedIrq s) (beginStep s) = some n ∧
      enter n 0x00#8 (beginStep s) = .next u ∧ t = u.setIntTaken false) ∨
    (s.run = .running ∧ acceptedIrq (presentedIrq s) (beginStep s) = none ∧
      ∃ u, fetchExecute exec (beginStep s) = .next u ∧ t = u.setIntTaken false) := by
  have hr : (beginStep s).run = s.run := rfl
  simp only [step, cycle, hr] at h
  split at h
  · rename_i hd
    cases h
    exact .inl ⟨.inl hd, rfl⟩
  · rename_i hd
    split at h
    · rename_i n hn
      obtain ⟨u, hu, rfl⟩ := closeStep_eq_next.1 h
      exact .inr (.inl ⟨hd, n, u, hn, hu, rfl⟩)
    · rename_i hn
      split at h
      · rename_i hh
        cases h
        exact .inl ⟨.inr hh, rfl⟩
      · rename_i hh
        obtain ⟨u, hu, rfl⟩ := closeStep_eq_next.1 h
        refine .inr (.inr ⟨?_, hn, u, hu, rfl⟩)
        cases hrun : s.run <;> simp_all

end Sys2Proof.Machine
end

