-- ==== Sys2Proof/Tests/Slice0.lean ====
section
/-! SUPPORT. Tests: ill-formed terms refused, every constructor's decoding from a word written out bit by bit, one or two steps
an instruction from the vectors V<n> of spec/95_test_vectors.md and spec/96_test_vectors_paging.md, and a witness for the
hypotheses of every statement. -/

namespace Sys2Proof.Tests

open Sys2Proof.Machine

set_option Elab.async false

/-! ### Well-formedness: each check refuses its ill-formed term (R116, R171 to R173) -/

theorem test_wf_rd : (Instr.add 32#8 (.imm 0#32)).wellFormed = false ∧ (Instr.add 31#8 (.imm 0#32)).wellFormed = true := by decide
theorem test_wf_source : (Instr.mov 1#8 (.reg 32#32)).wellFormed = false ∧ (Instr.mov 1#8 (.reg 0x100#32)).wellFormed = false := by
  decide
theorem test_wf_target_rs : (Instr.jmp (.reg 32#32)).wellFormed = false ∧ (Instr.ldr 1#8 (.regOff 32#32 0#8)).wellFormed = false := by
  decide
theorem test_wf_target_ro :
    (Instr.jmp (.immOff 0#32 32#8)).wellFormed = false ∧ (Instr.str 1#8 (.regOff 0#32 32#8)).wellFormed = false := by decide
theorem test_wf_data_register : (Instr.ldr 32#8 (.imm 0#32)).wellFormed = false ∧ (Instr.str 33#8 (.imm 0#32)).wellFormed = false := by
  decide
theorem test_wf_regImm : (Instr.push (.reg 32#32)).wellFormed = false ∧ (Instr.swi (.reg 0x21#32)).wellFormed = false := by decide
theorem test_wf_stack_and_step_registers :
    (Instr.pop 0x21#32).wellFormed = false ∧ (Instr.kpop 32#32).wellFormed = false ∧ (Instr.inc 32#32).wellFormed = false ∧
      (Instr.dec 0x80000000#32).wellFormed = false := by decide
theorem test_wf_zext : (Instr.zext 2#8 0x21#32).wellFormed = false ∧ (Instr.zext 2#8 0x2B#32).wellFormed = true := by decide
theorem test_wf_mfs : (Instr.mfs 2#8 0x20#32).wellFormed = false ∧ (Instr.mfs 2#8 0x23#32).wellFormed = false := by decide
theorem test_wf_mts : (Instr.mts 0x2B#8 1#32).wellFormed = false ∧ (Instr.mts 0x21#8 32#32).wellFormed = false := by decide
theorem test_wf_ports : (Instr.portIn 32#8 (.imm 0#32)).wellFormed = false ∧ (Instr.portOut 1#8 (.reg 32#32)).wellFormed = false := by
  decide

/-! ### Decoding: one word of each row, written from R102 to R104 and R120 -/

theorem test_decode_add : decode 0x0703000010000000#64 = .ok (.add 3#8 (.addr 0x1000#32)) := by decide
theorem test_decode_sub : decode 0x0901000000070000#64 = .ok (.sub 1#8 (.imm 7#32)) := by decide
theorem test_decode_mul : decode 0x0C1F0000001E0000#64 = .ok (.mul 31#8 (.reg 30#32)) := by decide
theorem test_decode_div : decode 0x1101FFFFFFFE0000#64 = .ok (.div 1#8 (.imm 0xFFFFFFFE#32)) := by decide
theorem test_decode_and : decode 0x15010FF00FF00000#64 = .ok (.and 1#8 (.imm 0x0FF00FF0#32)) := by decide
theorem test_decode_or : decode 0x1B01800000010000#64 = .ok (.or 1#8 (.addr 0x80000001#32)) := by decide
theorem test_decode_xor : decode 0x1C01000000010000#64 = .ok (.xor 1#8 (.reg 1#32)) := by decide
theorem test_decode_lsl : decode 0x21010000001F0000#64 = .ok (.lsl 1#8 (.imm 31#32)) := by decide
theorem test_decode_lsr : decode 0x2501000000200000#64 = .ok (.lsr 1#8 (.imm 32#32)) := by decide
theorem test_decode_cmp : decode 0x2B01000020000000#64 = .ok (.cmp 1#8 (.addr 0x2000#32)) := by decide
theorem test_decode_mov : decode 0x2D01800000000000#64 = .ok (.mov 1#8 (.imm 0x80000000#32)) := by decide
theorem test_decode_zext : decode 0x3002000000230000#64 = .ok (.zext 2#8 0x23#32) := by decide
theorem test_decode_mfs : decode 0x34020000002C0000#64 = .ok (.mfs 2#8 0x2C#32) := by decide
theorem test_decode_mts : decode 0x382C000000010000#64 = .ok (.mts 0x2C#8 1#32) := by decide
theorem test_decode_ldr : decode 0x3E00000005060400#64 = .ok (.ldr 4#8 (.regOff 5#32 6#8)) := by decide
theorem test_decode_str : decode 0x4300003000060400#64 = .ok (.str 4#8 (.immOff 0x3000#32 6#8)) := by decide
theorem test_decode_jmp : decode 0x4500000100000000#64 = .ok (.jmp (.imm 0x100#32)) := by decide
theorem test_decode_jar : decode 0x480000001F000000#64 = .ok (.jar (.reg 31#32)) := by decide
theorem test_decode_beq : decode 0x4E00000003040000#64 = .ok (.beq (.regOff 3#32 4#8)) := by decide
theorem test_decode_bne : decode 0x5100000100000000#64 = .ok (.bne (.imm 0x100#32)) := by decide
theorem test_decode_bz : decode 0x5700000100040000#64 = .ok (.bz (.immOff 0x100#32 4#8)) := by decide
theorem test_decode_bnz : decode 0x5800000003000000#64 = .ok (.bnz (.reg 3#32)) := by decide
theorem test_decode_bg : decode 0x5D00000100000000#64 = .ok (.bg (.imm 0x100#32)) := by decide
theorem test_decode_bl : decode 0x6100000100000000#64 = .ok (.bl (.imm 0x100#32)) := by decide
theorem test_decode_call : decode 0x6600000003040000#64 = .ok (.call (.regOff 3#32 4#8)) := by decide
theorem test_decode_kcall : decode 0x6900000300000000#64 = .ok (.kcall (.imm 0x300#32)) := by decide
theorem test_decode_push : decode 0x6DDEADBEEF000000#64 = .ok (.push (.imm 0xDEADBEEF#32)) := by decide
theorem test_decode_pop : decode 0x7000000007000000#64 = .ok (.pop 7#32) := by decide
theorem test_decode_kpush : decode 0x7400000003000000#64 = .ok (.kpush (.reg 3#32)) := by decide
theorem test_decode_kpop : decode 0x7800000007000000#64 = .ok (.kpop 7#32) := by decide
theorem test_decode_swi : decode 0x7D00000010000000#64 = .ok (.swi (.imm 0x10#32)) := by decide
theorem test_decode_inc : decode 0x8000000002000000#64 = .ok (.inc 2#32) := by decide
theorem test_decode_dec : decode 0x8400000002000000#64 = .ok (.dec 2#32) := by decide
theorem test_decode_ret : decode 0x8800000000000000#64 = .ok .ret := by decide
theorem test_decode_kret : decode 0x8C00000000000000#64 = .ok .kret := by decide
theorem test_decode_iret : decode 0x9000000000000000#64 = .ok .iret := by decide
theorem test_decode_nop : decode 0x97FFFFFFFFFFFFFF#64 = .ok .nop := by decide
theorem test_decode_hlt : decode 0x9800000000000000#64 = .ok .hlt := by decide
theorem test_decode_portIn : decode 0x9D01000003F80000#64 = .ok (.portIn 1#8 (.imm 0x3F8#32)) := by decide
theorem test_decode_portOut : decode 0xA001000000020000#64 = .ok (.portOut 1#8 (.reg 2#32)) := by decide

/-- Opcodes and modes that are no instruction (R122, R123; V74, V169, V197, V198, V205). -/
theorem test_decode_refused :
    decode 0#64 = .error (.invalidOpcode 0#6) ∧ decode 0xA400000000000000#64 = .error (.invalidOpcode 0x29#6) ∧
      decode 0xFC0000000000FFFF#64 = .error (.invalidOpcode 0x3F#6) ∧ decode 0x0601000000020000#64 = .error (.invalidMode 2#2) ∧
      decode 0x7100000007000000#64 = .error (.invalidMode 1#2) ∧ decode 0x9F01000003F80000#64 = .error (.invalidMode 3#2) := by
  decide

/-- Eight bytes in memory order, and the host's reading of a table word. -/
theorem test_decode_bytes :
    decodeBytes [0, 0, 0, 2, 0, 0, 0, 0x80, 7] = .ok (.inc 2#32, [7]) ∧ decodeTableWord 64 0x8000000002000000 = some (.inc 2#32) ∧
      decodeBytes [0x80, 0] = .error .truncated := by decide

/-! ### A small board: the low pages mapped to themselves, handlers in the IVT -/

/-- Pages 0, 1, 2, 7, 8 and 9 are open to all; page 3 has a reserved bit set, page 4 is supervisor only, page 5 read only;
everything else is absent. A and D are set where the page is used, so that no step marks an entry. -/
def boardWords : List (Word × Word) :=
  [(0x4#32, 0x55#32), (0x1000#32, 0x5000#32), (0x1004#32, 0x5100#32), (0x1008#32, 0x5200#32), (0x100C#32, 0x5300#32),
    (0x1010#32, 0x5400#32), (0x1040#32, 0x6000#32), (0x1080#32, 0x6100#32), (0x2000#32, 0x64#32), (0x2008#32, 0x80000001#32),
    (0x8000#32, 0x1230#32), (0x9000#32, 0x4560#32), (0x100000#32, 0x101000#32), (0x101000#32, 0xC31#32), (0x101004#32, 0x1C31#32),
    (0x101008#32, 0x2C31#32), (0x10100C#32, 0x3C33#32), (0x101010#32, 0x4C11#32), (0x101014#32, 0x5C21#32), (0x10101C#32, 0x7C31#32),
    (0x101020#32, 0x8C31#32), (0x101024#32, 0x9C31#32)]

def board : State :=
  { State.reset with
    i0 := 0x40#32, s0 := 0x8000#32, s1 := 0x9000#32, ivtr := 0x1000#32, tpdr := 0x100000#32
    mem := boardWords.foldl (fun m p => m.writeWord p.1 p.2) [] }

/-- The board with its flags. -/
def flagged (fr : Byte) : State := { board with fr := fr }

/-- The board in user mode. -/
def userBoard (fr : Byte) : State := { board with fr := fr, msr := 0x123#32 }

/-- A check of the next state, if there is one. -/
def nextIs (o : Host.Outcome State Fault Refusal) (p : State → Bool) : Bool :=
  match o with
  | .next t => p t
  | .fault _ => false
  | .refused _ => false

/-- The instruction of the word run at its address, `I0` moved past it, and a check of the next state. -/
def after (w : InstrWord) (s : State) (p : State → Bool) : Bool :=
  match decode w with
  | .ok i => nextIs (exec i (advance s)) p
  | .error _ => false

/-- One whole step on the instruction word, and a check of the next state. -/
def afterStep (w : Nat) (s : State) (p : State → Bool) : Bool := nextIs (step (s.withFetchWord 64 w)) p

/-- The step entered a vector with an error code, the handler at `isr`. -/
def entered (isr : Word) (code : Byte) (t : State) : Bool :=
  t.i0 == isr && t.ie0 == code && t.fr == 0#8 && t.msr == 0x80000000#32

/-! ### One step at a time -/

/-- V1. -/
theorem test_add_overflows :
    afterStep 0x0501000000010000 ((flagged 0x1F#8).setReg 1 0x7FFFFFFF#32) (fun t => t.reg 1 == 0x80000000#32 && t.fr == 0x1C#8 && t.i0 == 0x48#32) = true := by decide +kernel
/-- V68. -/
theorem test_add_from_memory :
    after 0x0701000020000000#64 (board.setReg 1 5#32) (fun t => t.reg 1 == 0x69#32 && t.fr == 0#8 && t.mem == board.mem) = true := by decide +kernel
/-- V7. -/
theorem test_sub_keeps_carry :
    after 0x0901000000070000#64 ((flagged 0x1F#8).setReg 1 5#32) (fun t => t.reg 1 == 0xFFFFFFFE#32 && t.fr == 0x15#8 && t.i0 == 0x48#32) = true := by decide +kernel
/-- V8. -/
theorem test_sub_overflows :
    after 0x0901000000010000#64 ((flagged 0x1F#8).setReg 1 0x80000000#32) (fun t => t.reg 1 == 0x7FFFFFFF#32 && t.fr == 0x19#8 && t.i0 == 0x48#32) = true := by decide +kernel
/-- V14. -/
theorem test_mul_wraps :
    after 0x0D01000100000000#64 ((flagged 0x1F#8).setReg 1 0x00010000#32) (fun t => t.reg 1 == 0#32 && t.fr == 0x1B#8 && t.i0 == 0x48#32) = true := by decide +kernel
/-- V15. -/
theorem test_mul_signs :
    after 0x0D01FFFFFFFF0000#64 ((flagged 0x1F#8).setReg 1 0xFFFFFFFF#32) (fun t => t.reg 1 == 1#32 && t.fr == 0x11#8 && t.i0 == 0x48#32) = true := by decide +kernel
/-- V22. -/
theorem test_div_toward_zero :
    after 0x1101000000020000#64 ((flagged 0x1F#8).setReg 1 0xFFFFFFF9#32) (fun t => t.reg 1 == 0xFFFFFFFD#32 && t.fr == 0x0D#8 && t.i0 == 0x48#32) = true := by decide +kernel
/-- V25. -/
theorem test_div_by_zero :
    after 0x1101000000000000#64 ((flagged 0x1F#8).setReg 1 5#32) (fun t => t.reg 1 == 5#32 && t.fr == 0x1F#8 && t.i0 == 0x48#32) = true := by decide +kernel
/-- V31. -/
theorem test_and :
    after 0x15010FF00FF00000#64 ((flagged 0x1F#8).setReg 1 0xFF00FF00#32) (fun t => t.reg 1 == 0x0F000F00#32 && t.fr == 0x1D#8 && t.i0 == 0x48#32) = true := by decide +kernel
/-- V34. -/
theorem test_or :
    after 0x19010000000F0000#64 ((flagged 0x1F#8).setReg 1 0xF0#32) (fun t => t.reg 1 == 0xFF#32 && t.fr == 0x1D#8 && t.i0 == 0x48#32) = true := by decide +kernel
/-- V35. -/
theorem test_xor :
    after 0x1D01AAAAAAAA0000#64 ((flagged 0x1F#8).setReg 1 0xAAAAAAAA#32) (fun t => t.reg 1 == 0#32 && t.fr == 0x1F#8 && t.i0 == 0x48#32) = true := by decide +kernel
/-- V41. -/
theorem test_lsl_by_32 :
    after 0x2101000000200000#64 ((flagged 0x1F#8).setReg 1 1#32) (fun t => t.reg 1 == 0#32 && t.fr == 0x1F#8 && t.i0 == 0x48#32) = true := by decide +kernel
/-- V40. -/
theorem test_lsl_by_zero_keeps_carry :
    after 0x2101000000000000#64 ((flagged 0x1F#8).setReg 1 3#32) (fun t => t.reg 1 == 3#32 && t.fr == 0x1D#8 && t.i0 == 0x48#32) = true := by decide +kernel
/-- V53. -/
theorem test_lsr_by_4 :
    after 0x2501000000040000#64 ((flagged 0x1F#8).setReg 1 0x12345678#32) (fun t => t.reg 1 == 0x01234567#32 && t.fr == 0x1D#8 && t.i0 == 0x48#32) = true := by decide +kernel
/-- V52. -/
theorem test_lsr_beyond_32 :
    after 0x2501000000280000#64 ((flagged 0x1F#8).setReg 1 0xFFFFFFFF#32) (fun t => t.reg 1 == 0#32 && t.fr == 0x1E#8 && t.i0 == 0x48#32) = true := by decide +kernel
/-- V60. -/
theorem test_cmp_signed :
    after 0x2901000000010000#64 ((flagged 0x1F#8).setReg 1 0xFFFFFFFF#32) (fun t => t.reg 1 == 0xFFFFFFFF#32 && t.fr == 0x08#8 && t.i0 == 0x48#32) = true := by decide +kernel
/-- V54. -/
theorem test_cmp_equal_keeps_E :
    after 0x2901000000050000#64 ((flagged 0x1F#8).setReg 1 5#32) (fun t => t.reg 1 == 5#32 && t.fr == 0x19#8 && t.i0 == 0x48#32) = true := by decide +kernel
/-- V64. -/
theorem test_mov_immediate :
    after 0x2D01800000000000#64 ((flagged 0x1F#8).setReg 1 0#32) (fun t => t.reg 1 == 0x80000000#32 && t.fr == 0x1D#8 && t.i0 == 0x48#32) = true := by decide +kernel
/-- V75, with MOV. -/
theorem test_mov_bad_register :
    after 0x2C01000000200000#64 board (fun t => entered 0x5200#32 3#8 t && t.ie1 == 0x48#32) = true := by decide +kernel
/-- V80. -/
theorem test_zext_prr :
    after 0x30020000002B0000#64 (userBoard 0x13#8) (fun t => t.reg 2 == 0x41#32 && t.fr == 0x13#8) = true := by decide +kernel
/-- V82. -/
theorem test_zext_ie0_in_user_mode :
    after 0x3002000000250000#64 (userBoard 0x13#8) (fun t => entered 0x5200#32 3#8 t && t.ie3 == 0x13#8 && t.ie4 == 0x123#32) = true := by decide +kernel
/-- V93. -/
theorem test_mfs_msr :
    after 0x34020000002C0000#64 (userBoard 0x13#8) (fun t => t.reg 2 == 0x123#32) = true := by decide +kernel
/-- V87. -/
theorem test_mfs_s1_in_user_mode :
    after 0x3402000000220000#64 (userBoard 0x13#8) (fun t => entered 0x5200#32 3#8 t && t.reg 2 == 0#32) = true := by decide +kernel
/-- V100. -/
theorem test_mts_fr_takes_the_low_byte :
    after 0x3823000000010000#64 (board.setReg 1 0xFFFFFF60#32) (fun t => t.fr == 0x60#8 && t.i0 == 0x48#32) = true := by decide +kernel
/-- V112. -/
theorem test_mts_msr_in_user_mode :
    after 0x382C000000010000#64 ((userBoard 0x13#8).setReg 1 0x55#32) (fun t => entered 0x5200#32 4#8 t && t.ie4 == 0x123#32) = true := by decide +kernel
/-- V118, at 0x2008. -/
theorem test_ldr_register_offset :
    after 0x3E00000005060500#64 ((board.setReg 5 0x2000#32).setReg 6 8#32) (fun t => t.reg 5 == 0x80000001#32 && t.fr == 4#8) = true := by decide +kernel
/-- V119. -/
theorem test_ldr_wraps :
    afterStep 0x3E00000005060700 ((board.setReg 5 0xFFFFFFFC#32).setReg 6 8#32) (fun t => t.reg 7 == 0x55#32 && t.fr == 0#8) = true := by decide +kernel
/-- V125. -/
theorem test_str :
    after 0x4000000005000400#64 ((board.setReg 4 0xCAFEBABE#32).setReg 5 0x2000#32) (fun t => t.mem.readWord 0x2000#32 == 0xCAFEBABE#32 && t.mem.read 0x2000 == 0xBE#8 && t.mem.read 0x2004 == 0#8) = true := by decide +kernel
/-- R84 (d). -/
theorem test_str_to_a_read_only_page :
    after 0x4100005000000400#64 board (fun t => entered 0x5100#32 1#8 t && t.ie1 == 0x48#32) = true := by decide +kernel
/-- V132. -/
theorem test_jmp :
    after 0x4600000003040000#64 ((board.setReg 3 0x700#32).setReg 4 0x20#32) (fun t => t.i0 == 0x720#32) = true := by decide +kernel
/-- V136. -/
theorem test_jar_reads_first :
    after 0x480000001F000000#64 board (fun t => t.reg 31 == 0x48#32 && t.i0 == 0#32) = true := by decide +kernel
/-- V137. -/
theorem test_beq_taken :
    after 0x4D00000100000000#64 (flagged 0x01#8) (fun t => t.i0 == 0x100#32 && t.fr == 0x01#8) = true := by decide +kernel
/-- V138. -/
theorem test_beq_not_taken :
    after 0x4D00000100000000#64 (flagged 0x1E#8) (fun t => t.i0 == 0x48#32 && t.fr == 0x1E#8) = true := by decide +kernel
/-- V139. -/
theorem test_bne_not_taken :
    after 0x5100000100000000#64 (flagged 0x01#8) (fun t => t.i0 == 0x48#32 && t.fr == 0x01#8) = true := by decide +kernel
/-- V140. -/
theorem test_bne_taken :
    after 0x5100000100000000#64 (flagged 0x1E#8) (fun t => t.i0 == 0x100#32 && t.fr == 0x1E#8) = true := by decide +kernel
/-- V141. -/
theorem test_bz_taken :
    after 0x5500000100000000#64 (flagged 0x02#8) (fun t => t.i0 == 0x100#32 && t.fr == 0x02#8) = true := by decide +kernel
/-- V142. -/
theorem test_bz_not_taken :
    after 0x5500000100000000#64 (flagged 0x1D#8) (fun t => t.i0 == 0x48#32 && t.fr == 0x1D#8) = true := by decide +kernel
/-- V143. -/
theorem test_bnz_not_taken :
    after 0x5900000100000000#64 (flagged 0x02#8) (fun t => t.i0 == 0x48#32 && t.fr == 0x02#8) = true := by decide +kernel
/-- V144. -/
theorem test_bnz_taken :
    after 0x5900000100000000#64 (flagged 0x1D#8) (fun t => t.i0 == 0x100#32 && t.fr == 0x1D#8) = true := by decide +kernel
/-- V145. -/
theorem test_bg_taken :
    after 0x5D00000100000000#64 (flagged 0x10#8) (fun t => t.i0 == 0x100#32 && t.fr == 0x10#8) = true := by decide +kernel
/-- V146. -/
theorem test_bg_not_taken :
    after 0x5D00000100000000#64 (flagged 0x0F#8) (fun t => t.i0 == 0x48#32 && t.fr == 0x0F#8) = true := by decide +kernel
/-- V147. -/
theorem test_bl_not_taken :
    after 0x6100000100000000#64 (flagged 0x10#8) (fun t => t.i0 == 0x48#32 && t.fr == 0x10#8) = true := by decide +kernel
/-- V148. -/
theorem test_bl_taken :
    after 0x6100000100000000#64 (flagged 0x0F#8) (fun t => t.i0 == 0x100#32 && t.fr == 0x0F#8) = true := by decide +kernel
/-- V151. -/
theorem test_call_grows_down :
    after 0x6500000300000000#64 (flagged 0x40#8) (fun t => t.i0 == 0x300#32 && t.s0 == 0x7FFC#32 && t.mem.readWord 0x7FFC#32 == 0x48#32) = true := by decide +kernel
/-- V152, V154. -/
theorem test_call_in_user_mode_grows_up :
    after 0x6500000300000000#64 (userBoard 0#8) (fun t => t.i0 == 0x300#32 && t.s0 == 0x8004#32 && t.mem.readWord 0x8004#32 == 0x48#32) = true := by decide +kernel
/-- V155. -/
theorem test_kcall :
    after 0x6900000300000000#64 (flagged 0x40#8) (fun t => t.i0 == 0x300#32 && t.s1 == 0x8FFC#32 && t.mem.readWord 0x8FFC#32 == 0x48#32) = true := by decide +kernel
/-- V157. -/
theorem test_kcall_in_user_mode :
    after 0x6900000300000000#64 (userBoard 0x40#8) (fun t => entered 0x5200#32 0#8 t && t.s1 == 0x9000#32) = true := by decide +kernel
/-- V158. -/
theorem test_ret :
    after 0x8800000000000000#64 (flagged 0x40#8) (fun t => t.i0 == 0x1230#32 && t.s0 == 0x8004#32) = true := by decide +kernel
/-- V161. -/
theorem test_kret :
    after 0x8C00000000000000#64 board (fun t => t.i0 == 0x4560#32 && t.s1 == 0x8FFC#32) = true := by decide +kernel
/-- V164. -/
theorem test_push :
    after 0x6C00000003000000#64 (board.setReg 3 0x700#32) (fun t => t.s0 == 0x8004#32 && t.mem.readWord 0x8004#32 == 0x700#32) = true := by decide +kernel
/-- V167. -/
theorem test_pop :
    after 0x7000000007000000#64 (flagged 0x40#8) (fun t => t.reg 7 == 0x1230#32 && t.s0 == 0x8004#32 && t.fr == 0x40#8) = true := by decide +kernel
/-- V170. -/
theorem test_pop_checks_the_register_first :
    after 0x7000000021000000#64 (flagged 0x40#8) (fun t => entered 0x5200#32 3#8 t && t.s0 == 0x8000#32) = true := by decide +kernel
/-- V172. -/
theorem test_kpush :
    after 0x7500000005000000#64 board (fun t => t.s1 == 0x9004#32 && t.mem.readWord 0x9004#32 == 5#32) = true := by decide +kernel
/-- V174. -/
theorem test_kpop :
    after 0x7800000007000000#64 (flagged 0x40#8) (fun t => t.reg 7 == 0x4560#32 && t.s1 == 0x9004#32) = true := by decide +kernel
/-- V179. -/
theorem test_inc_wraps :
    after 0x8000000002000000#64 (board.setReg 2 0xFFFFFFFF#32) (fun t => t.reg 2 == 0#32 && t.fr == 0#8) = true := by decide +kernel
/-- V182. -/
theorem test_dec_wraps :
    after 0x8400000002000000#64 board (fun t => t.reg 2 == 0xFFFFFFFF#32 && t.fr == 0#8) = true := by decide +kernel
/-- V186. -/
theorem test_swi :
    after 0x7D00000010000000#64 (userBoard 0x41#8) (fun t => entered 0x6000#32 0#8 t && t.ie1 == 0x48#32 && t.ie2 == 0x8000#32 && t.ie3 == 0x41#8 && t.ie4 == 0x123#32) = true := by decide +kernel
/-- V213. -/
theorem test_swi_of_an_empty_vector :
    after 0x7D00000011000000#64 (userBoard 0x41#8) (fun t => entered 0x5300#32 1#8 t && t.ie1 == 0x48#32 && t.ie4 == 0x123#32) = true := by decide +kernel
/-- V190. -/
theorem test_iret :
    after 0x9000000000000000#64 ({ board with ie0 := 9#8, ie1 := 0x700#32, ie2 := 0x7000#32, ie3 := 0x52#8, ie4 := 0x77#32 }) (fun t => t.i0 == 0x700#32 && t.s0 == 0x7000#32 && t.fr == 0x52#8 && t.msr == 0x77#32) = true := by decide +kernel
/-- V191. -/
theorem test_iret_in_user_mode :
    after 0x9000000000000000#64 (userBoard 0x41#8) (fun t => entered 0x5200#32 0#8 t) = true := by decide +kernel
/-- V193. -/
theorem test_nop :
    after 0x97FFFFFFFFFFFFFF#64 (userBoard 0x41#8) (fun t => t.i0 == 0x48#32 && t.fr == 0x41#8) = true := by decide +kernel
/-- V220. -/
theorem test_nop_traced :
    afterStep 0x9400000000000000 (userBoard 0xC1#8) (fun t => entered 0x5400#32 0#8 t && t.ie1 == 0x48#32 && t.ie3 == 0xC1#8) = true := by decide +kernel
/-- V194. -/
theorem test_hlt :
    afterStep 0x9800000000000000 (userBoard 0x41#8) (fun t => t.run == .halted && t.i0 == 0x48#32) = true := by decide +kernel
/-- V199. -/
theorem test_in :
    after 0x9D01000003F80000#64 ({ board with plat := { board.plat with portAnswers := [(0x3F8#32, 0x55#32)] } }) (fun t => t.reg 1 == 0x55#32 && t.plat.portAnswers == []) = true := by decide +kernel
/-- An answer behind another port's (R92, log 18). -/
theorem test_in_behind_another_port :
    after 0x9D01000003F80000#64
      ({ board with plat := { board.plat with portAnswers := [(0x60#32, 1#32), (0x3F8#32, 0x55#32), (0x3F8#32, 2#32)] } })
      (fun t => t.reg 1 == 0x55#32 && t.plat.portAnswers == [(0x60#32, 1#32), (0x3F8#32, 2#32)]) = true := by decide +kernel
/-- V203. -/
theorem test_in_not_permitted :
    after 0x9D01000003F80000#64 (userBoard 0#8) (fun t => entered 0x5200#32 1#8 t && t.reg 1 == 0#32) = true := by decide +kernel
/-- V202. -/
theorem test_out :
    after 0xA001000000020000#64 ((board.setReg 1 0xAB#32).setReg 2 0x3F8#32) (fun t => t.plat.ioLog == [.portWrite 0x3F8#32 0xAB#32]) = true := by decide +kernel
/-- V196. -/
theorem test_invalid_opcode :
    afterStep 0 (userBoard 0x41#8) (fun t => entered 0x5000#32 0#8 t && t.ie1 == 0x48#32) = true := by decide +kernel

/-- From reset with a word placed, the first step runs it (log 21). -/
theorem test_first_instruction_after_reset :
    afterStep 0x2D010000002A0000 State.reset (fun t => t.reg 1 == 0x2A#32 && t.i0 == 8#32) = true := by decide +kernel

/-- The first step from reset with nothing placed: the empty directory maps nothing, and no delivery succeeds (R50, R256,
log 21). -/
theorem test_reset_without_a_program :
    nextIs (step State.reset) (fun t => t.run == .dead && t.ie0 == 1#8 && t.ie1 == 0#32) = true := by decide +kernel

/-- The board with ranges of physical memory absent. -/
def without (absent : List (Nat × Nat)) : State := { board with plat := { board.plat with absent := absent } }

/-- The board with device windows. -/
def windowed (devices : List (Nat × Nat)) : State := { board with plat := { board.plat with devices := devices } }

/-- An access with no result stops the model (log 15): the fetch's page table, the operand's page. -/
theorem test_stops :
    (match step (without [(0x101000, 0x101FFF)]) with | .fault f => f == .absentMemory | _ => false) = true ∧
      (match exec (.ldr 1#8 (.imm 0x2008#32)) (without [(0x200B, 0x200B)]) with | .fault f => f == .absentMemory | _ => false)
        = true := by decide +kernel

/-- Is the event a byte read from the address, or the byte written to it? -/
def isMemRead (pa : Word) : IoEvent → Bool
  | .memRead a _ => a == pa
  | .portRead _ _ | .portWrite _ _ | .memWrite _ _ => false

/-- A device window is told what a store gives it, memory staying as it was, and answers each byte of a load (R62, log 34). -/
theorem test_device_window :
    nextIs (exec (.str 1#8 (.imm 0x2008#32)) ((windowed [(0x2000, 0x2FFF)]).setReg 1 0x44332211#32)) (fun t =>
        t.mem == board.mem && t.plat.ioLog == [.memWrite 0x200B#32 0x44#8, .memWrite 0x200A#32 0x33#8,
          .memWrite 0x2009#32 0x22#8, .memWrite 0x2008#32 0x11#8]) = true ∧
      nextIs (exec (.ldr 1#8 (.imm 0x2008#32)) (windowed [(0x2009, 0x200A)])) (fun t =>
        match t.plat.ioLog with
        | [e, f] => isMemRead 0x200A#32 e && isMemRead 0x2009#32 f && t.mem == board.mem
        | _ => false) = true := by decide +kernel

/-! ### Witnesses: what meets the hypotheses of each statement -/

theorem exists_ok {α : Type} {a : Act α} (h : a.isOk = true) : ∃ x, a = .ok x := by
  cases a with
  | ok x => exact ⟨x, rfl⟩
  | error e => cases h

theorem exists_ok_all {α : Type} {a : Act α} {p : α → Bool} (h : (match a with | .ok x => p x | .error _ => false) = true) :
    ∃ x, a = .ok x ∧ p x = true := by
  cases a with
  | ok x => exact ⟨x, rfl, h⟩
  | error e => cases h

theorem exists_next {o : Host.Outcome State Fault Refusal} {p : State → Bool} (h : nextIs o p = true) :
    ∃ t, o = .next t ∧ p t = true := by
  cases o with
  | next t => exact ⟨t, rfl, h⟩
  | fault f => cases h
  | refused r => cases h

/-- The board with an instruction word at `I0`. -/
def placed (w : Nat) (s : State) : State := s.withFetchWord 64 w

/-- The state after the fetch at `I0`. -/
def fetched (s : State) : State :=
  match memFetch (beginStep s) s.i0 with
  | .ok r => r.2
  | .error _ => s

/-- The board with what is presented at the next boundary. -/
def presenting (irq : Option Word) (s : State) : State := { s with plat := { s.plat with irqInputs := [irq] } }

/-- The step fetches the word. -/
abbrev FetchGives (s : State) (w : InstrWord) : Prop :=
  s.run = .running ∧ acceptedIrq (presentedIrq s) (beginStep s) = none ∧ memFetch (beginStep s) s.i0 = .ok (w, fetched s)

/-- Of `DecodedWordReencodes`, `OpcodeIsTopSixBits` (both clauses). -/
theorem witness_decode :
    decode 0x050100000007FFFF#64 = .ok (.add 1#8 (.imm 7#32)) ∧ decode 0xA400000000000000#64 = .error (.invalidOpcode 0x29#6) ∧
      (0xA5FFFFFFFFFFFFFF#64 : InstrWord).extractLsb' 58 6 = 0x29#6 := by decide

/-- Of `StepRunsTheDecodedInstruction`, and of `NopDoesNothing` with T clear and set. -/
theorem witness_StepRunsTheDecodedInstruction :
    FetchGives (placed 0x9400000000000000 board) 0x9400000000000000#64 ∧ decode 0x9400000000000000#64 = .ok .nop ∧
      FetchGives (placed 0x97FFFFFFFFFFFFFF (flagged 0x80#8)) 0x97FFFFFFFFFFFFFF#64 := by decide +kernel

/-- Of `InvalidOpcodeTakesIop`: opcodes 0x00, 0x29 and 0x3F, with vector 0 filled. -/
theorem witness_InvalidOpcodeTakesIop :
    FetchGives (placed 0 board) 0#64 ∧ FetchGives (placed 0xA400000000000000 board) 0xA400000000000000#64 ∧
      FetchGives (placed 0xFC0000000000FFFF board) 0xFC0000000000FFFF#64 ∧
      entryRegion (fetched (placed 0 board)).plat (fetched (placed 0 board)).ivtr = .ram ∧
      (fetched (placed 0 board)).mem.readWord (fetched (placed 0 board)).ivtr ≠ 0#32 := by decide +kernel

/-- Of `OnlyAllowedModesAreInstructions` and of the `IOP` clause of `EntrySavesContextAndJumps`. -/
theorem witness_OnlyAllowedModesAreInstructions :
    FetchGives (placed 0x0601000000020000 board) 0x0601000000020000#64 ∧
      decode 0x0601000000020000#64 = .error (.invalidMode 2#2) ∧
      (memFetch board board.i0).isOk = true := by decide +kernel

/-- Of `TracedInstructionIsFollowedByBrk`: T set, T set and an interrupt entered, T clear. -/
theorem witness_TracedInstructionIsFollowedByBrk :
    (FetchGives (placed 0x9400000000000000 (flagged 0x80#8)) 0x9400000000000000#64 ∧
        nextIs (exec .nop (advance (fetched (placed 0x9400000000000000 (flagged 0x80#8))))) (fun t => !t.intTaken) = true) ∧
      (FetchGives (placed 0x7D00000010000000 (flagged 0x80#8)) 0x7D00000010000000#64 ∧
        nextIs (exec (.swi (.imm 0x10#32)) (advance (fetched (placed 0x7D00000010000000 (flagged 0x80#8))))) (fun t => t.intTaken)
          = true) ∧
      FetchGives (placed 0x9400000000000000 board) 0x9400000000000000#64 := by decide +kernel

/-- Of `FetchFaultSavesTheFetchAddress`: not present, reserved bit, supervisor page from user mode. -/
theorem witness_FetchFaultSavesTheFetchAddress :
    memFetch (beginStep { board with i0 := 0x6000#32 }) 0x6000#32 = .error (.interrupt 1#32 0x00#8) ∧
      memFetch (beginStep { board with i0 := 0x2FF9#32 }) 0x2FF9#32 = .error (.interrupt 1#32 0x03#8) ∧
      memFetch (beginStep { board with i0 := 0x4000#32, msr := 0#32 }) 0x4000#32 = .error (.interrupt 1#32 0x02#8) := by
  decide +kernel

/-- Of `ExternalInterruptTakenOrMasked` and of the device clause of `EntrySavesContextAndJumps`: taken running and halted;
masked; nothing presented with I set, by an empty line and by an empty place in it. -/
theorem witness_ExternalInterruptTakenOrMasked :
    presentedIrq (presenting (some 0x20#32) (flagged 0x20#8)) = some 0x20#32 ∧ (flagged 0x20#8).fr.getLsbD 5 = true ∧
      (flagged 0x20#8).run = .running ∧
      presentedIrq (presenting (some 0x20#32) { flagged 0x20#8 with run := .halted }) = some 0x20#32 ∧
      (board.fr.getLsbD 5 = false ∧ presentedIrq (presenting (some 0x20#32) board) = some 0x20#32 ∧ board.run = .running) ∧
      presentedIrq (flagged 0x20#8) = none ∧ presentedIrq (presenting none (flagged 0x20#8)) = none := by decide +kernel

/-- Of `HaltedAndDeadProcessorsWait`: dead with an interrupt presented, halted with it masked, halted with none. -/
theorem witness_HaltedAndDeadProcessorsWait :
    (presenting (some 0x20#32) { flagged 0x20#8 with run := .dead }).run = .dead ∧
      acceptedIrq (presentedIrq (presenting (some 0x20#32) { board with run := .halted }))
        (beginStep (presenting (some 0x20#32) { board with run := .halted })) = none ∧
      acceptedIrq (presentedIrq { flagged 0x20#8 with run := .halted }) (beginStep { flagged 0x20#8 with run := .halted }) = none := by
  decide +kernel

/-- Of `EveryStepKeepsTheDataInvariant`. -/
theorem witness_EveryStepKeepsTheDataInvariant : board.WellFormed ∧ ∃ t, step board = .next t :=
  ⟨⟨by decide +kernel, rfl⟩, (exists_next (p := fun _ => true) (by decide +kernel)).imp fun _ h => h.1⟩

/-- Of `FullyBackedPlatformNeverStops`: all memory, and with a device window. -/
theorem witness_FullyBackedPlatformNeverStops :
    State.reset.plat.AllPresent ∧ board.plat.AllPresent ∧ (windowed [(0x2000, 0x2FFF)]).plat.AllPresent := ⟨rfl, rfl, rfl⟩

/-- Of `UserModeKeepsSystemState`: an instruction's own effect, and an entry. -/
theorem witness_UserModeKeepsSystemState :
    (userBoard 0#8).mode = .user ∧ (∃ t, step (placed 0x9400000000000000 (userBoard 0#8)) = .next t ∧ (t.msr == 0x123#32) = true) ∧
      ∃ t, step (placed 0 (userBoard 0#8)) = .next t ∧ entered 0x5000#32 0#8 t = true :=
  ⟨by decide +kernel, exists_next (by decide +kernel), exists_next (by decide +kernel)⟩

/-- Of `ModeChangesOnlyByEntryIretOrMts`: an instruction and a step, up by `SWI` and by an external interrupt, down by `IRET`
and by `MTS`. -/
theorem witness_ModeChangesOnlyByEntryIretOrMts :
    (∃ t, exec (.swi (.imm 0x10#32)) (userBoard 0#8) = .next t ∧ (t.mode == .supervisor) = true) ∧
      (∃ t, exec .iret { board with ie4 := 0x77#32 } = .next t ∧ (t.mode == .user) = true) ∧
      (∃ t, exec (.mts 0x2C#8 1#32) board = .next t ∧ (t.mode == .user) = true) ∧
      (∃ t, step (placed 0x7D00000010000000 (userBoard 0#8)) = .next t ∧ (t.mode == .supervisor) = true) ∧
      (∃ t, step (presenting (some 0x20#32) (userBoard 0x20#8)) = .next t ∧ (t.mode == .supervisor) = true) ∧
      (∃ t, step (placed 0x9000000000000000 { board with ie4 := 0x77#32 }) = .next t ∧ (t.mode == .user) = true) ∧
      ∃ t, step (placed 0x382C000000010000 board) = .next t ∧ (t.mode == .user) = true :=
  ⟨exists_next (by decide +kernel), exists_next (by decide +kernel), exists_next (by decide +kernel),
    exists_next (by decide +kernel), exists_next (by decide +kernel), exists_next (by decide +kernel),
    exists_next (by decide +kernel)⟩

/-- Of `FlagsChangeOnlyAsListed`: an `ADD` that changes Z; a `NOP`, which lists no flag, not traced and traced. -/
theorem witness_FlagsChangeOnlyAsListed :
    (∃ t, exec (.add 1#8 (.imm 0#32)) board = .next t ∧ (!t.intTaken && t.flag .z != board.flag .z) = true) ∧
      ∀ s ∈ [placed 0x9400000000000000 (flagged 0x01#8), placed 0x9400000000000000 (flagged 0x81#8)],
        (∃ t, step s = .next t) ∧
          ∀ (w : InstrWord) (u : State) (i : Instr), memFetch (beginStep s) s.i0 = .ok (w, u) → decode w = .ok i →
            Flag.c ∉ listedFlags i := by
  refine ⟨exists_next (by decide +kernel), ?_⟩
  have key : ∀ s : State, memFetch (beginStep s) s.i0 = .ok (0x9400000000000000#64, fetched s) →
      ∀ (w : InstrWord) (u : State) (i : Instr), memFetch (beginStep s) s.i0 = .ok (w, u) → decode w = .ok i →
        Flag.c ∉ listedFlags i := by
    intro s h w u i h' hi
    rw [h] at h'
    cases h'
    cases hi
    decide
  intro s hs
  simp only [List.mem_cons, List.not_mem_nil, or_false] at hs
  rcases hs with rfl | rfl
  · exact ⟨(exists_next (p := fun _ => true) (by decide +kernel)).imp fun _ h => h.1, key _ (by decide +kernel)⟩
  · exact ⟨(exists_next (p := fun _ => true) (by decide +kernel)).imp fun _ h => h.1, key _ (by decide +kernel)⟩

/-- Of `InterruptedInstructionWroteNothing`: a fault of an operand's page. -/
theorem witness_InterruptedInstructionWroteNothing :
    board.intTaken = false ∧ ∃ t, exec (.add 1#8 (.addr 0x6000#32)) board = .next t ∧ t.intTaken = true :=
  ⟨rfl, exists_next (by decide +kernel)⟩

/-- Of `UserModeBlindToKernelStackAndTask`: an instruction and a step that go on, a step that takes an external interrupt, an
instruction and a step that stop. -/
theorem witness_UserModeBlindToKernelStackAndTask :
    (userBoard 0#8).mode = .user ∧
      (∃ t, exec (.push (.imm 5#32)) (userBoard 0#8) = .next t ∧ (t.s0 == 0x8004#32) = true) ∧
      (∃ t, step (placed 0x6D00000005000000 (userBoard 0#8)) = .next t ∧ (t.s0 == 0x8004#32) = true) ∧
      (∃ t, step (presenting (some 0x20#32) (userBoard 0x20#8)) = .next t ∧ (t.ie4 == 0x123#32) = true) ∧
      (match exec (.ldr 1#8 (.imm 0x2008#32)) { without [(0x200B, 0x200B)] with msr := 0#32 } with | .fault _ => true | _ => false)
        = true ∧
      (match step { without [(0x47, 0x47)] with msr := 0#32 } with | .fault _ => true | _ => false) = true :=
  ⟨by decide +kernel, exists_next (by decide +kernel), exists_next (by decide +kernel), exists_next (by decide +kernel),
    by decide +kernel, by decide +kernel⟩

/-- Of `IllFormedInstructionRaisesIpf3`: in supervisor mode, and in user mode. -/
theorem witness_IllFormedInstructionRaisesIpf3 :
    ((Instr.kpop 32#32).wellFormed = false ∧ board.mode = .supervisor) ∧
      (Instr.mts 0x2B#8 1#32).wellFormed = false ∧ (userBoard 0#8).mode = .user := by decide +kernel

/-- Of `EntrySavesContextAndJumps` and `SwiEntersItsVector`: a filled vector in memory, and one whose last byte a device
answers, whatever it is; the operand in a register and immediate. -/
theorem witness_EntrySavesContextAndJumps :
    (entryRegion board.plat (board.ivtr + 4#32 * 0x10#32) = .ram ∧ board.mem.readWord (board.ivtr + 4#32 * 0x10#32) ≠ 0#32 ∧
        physWord board (board.ivtr + 4#32 * 0x10#32) ≠ 0#32) ∧
      (entryRegion (windowed [(0x1043, 0x1043)]).plat 0x1040#32 = .device ∧
        physWord (windowed [(0x1043, 0x1043)]) 0x1040#32 ≠ 0#32) ∧
      board.intTaken = false ∧ regImmValue (board.setReg 3 0x10#32) (.reg 3#32) = .ok 0x10#32 ∧
      regImmValue board (.imm 0x10#32) = .ok 0x10#32 := by
  refine ⟨by decide +kernel, ⟨by decide +kernel, ?_⟩, by decide +kernel⟩
  have key : ∀ b : Byte, wordOfBytes [0x00#8, 0x60#8, 0x00#8, b] ≠ 0#32 := by decide +kernel
  have h0 : physByte (windowed [(0x1043, 0x1043)]) 0x1040#32 = 0x00#8 := by decide +kernel
  have h1 : physByte (windowed [(0x1043, 0x1043)]) (0x1040#32 + 1#32) = 0x60#8 := by decide +kernel
  have h2 : physByte (windowed [(0x1043, 0x1043)]) (0x1040#32 + 2#32) = 0x00#8 := by decide +kernel
  simpa only [physWord, h0, h1, h2] using key _

/-- Of `FailedDeliveryIsNmiOrDeath`: the entry absent, the entry zero; vector 3 filled, absent, zero. -/
theorem witness_FailedDeliveryIsNmiOrDeath :
    entryRegion (without [(0x1044, 0x1044)]).plat (0x1000#32 + 4#32 * 0x11#32) = .absent ∧
      (entryRegion board.plat (0x1000#32 + 4#32 * 0x11#32) ≠ .absent ∧ physWord board (0x1000#32 + 4#32 * 0x11#32) = 0#32) ∧
      (entryRegion board.plat (0x1000#32 + 12#32) ≠ .absent ∧ physWord board (0x1000#32 + 12#32) ≠ 0#32) ∧
      (entryRegion (without [(0x100F, 0x1044)]).plat (0x1000#32 + 4#32 * 0x11#32) = .absent ∧
        entryRegion (without [(0x100F, 0x1044)]).plat (0x1000#32 + 12#32) = .absent) ∧
      entryRegion State.reset.plat 12#32 ≠ .absent ∧ physWord State.reset 12#32 = 0#32 := by decide +kernel

/-- Of `IretRestoresTheSavedState`, `KcallPushesOnTheKernelStack` and the other supervisor clauses; of
`PrivilegedInstructionsFaultInUserMode` and the other user clauses, a port at the edge of the range open to it, and beyond. -/
theorem witness_modes :
    board.mode = .supervisor ∧ (userBoard 0#8).mode = .user ∧ (31#8).toNat < 32 ∧
      inRanges ({ (userBoard 0#8).plat with userPorts := [(0x3F8, 0x3F8)] } : Platform).userPorts (0x3F8#32).toNat = true ∧
      inRanges ({ (userBoard 0#8).plat with userPorts := [(0x3F8, 0x3F8)] } : Platform).userPorts (0x3F9#32).toNat = false := by
  decide +kernel

/-- Of `WrittenBytesAndWordsReadBack`: also at the top of the space. -/
theorem witness_WrittenBytesAndWordsReadBack :
    board.mem.wf = true ∧ (0xFFFFFFFE#32 + 2#32).toNat = 0 ∧
      3 ∉ [(0xFFFFFFFE#32).toNat, (0xFFFFFFFE#32 + 1#32).toNat, (0xFFFFFFFE#32 + 2#32).toNat, (0xFFFFFFFE#32 + 3#32).toNat] := by
  decide +kernel

/-- Of `TranslationFollowsTheTables`: the directory entry absent, the table entry absent; an address of each branch of the
checks, with its tables in memory. -/
theorem witness_TranslationFollowsTheTables :
    entryRegion (without [(0x100003, 0x100003)]).plat (board.tpdr + 4#32 * (0x2FFC#32 >>> 22)) = .absent ∧
      entryRegion (without [(0x101008, 0x101008)]).plat
        (physWord board (board.tpdr + 4#32 * (0x2FFC#32 >>> 22)) + 4#32 * (0x2FFC#32 >>> 12 &&& 0x3FF#32)) = .absent ∧
      entryRegion board.plat (board.tpdr + 4#32 * (0x2FFC#32 >>> 22)) ≠ .absent ∧
      entryRegion board.plat
        (physWord board (board.tpdr + 4#32 * (0x2FFC#32 >>> 22)) + 4#32 * (0x2FFC#32 >>> 12 &&& 0x3FF#32)) ≠ .absent ∧
      translate board .read 0x6000#32 = .error (.interrupt 1#32 0x00#8) ∧
      translate board .read 0x3000#32 = .error (.interrupt 1#32 0x03#8) ∧
      translate (userBoard 0#8) .write 0x4000#32 = .error (.interrupt 1#32 0x02#8) ∧
      translate board .write 0x5000#32 = .error (.interrupt 1#32 0x01#8) := by decide +kernel

/-- Of `AccessesToNothingStop`: the table entry of a walk absent, of the first byte and of a later one; of the bytes translated, one absent, for a read or a write
and for a fetch; the instructions' reads, writes and the step's fetch that stop. -/
theorem witness_AccessesToNothingStop :
    ((translate (without [(0x101008, 0x101008)]) .read 0x1FFE#32).isOk = true ∧
        (translate (without [(0x101008, 0x101008)]) .read (0x1FFE#32 + 1#32)).isOk = true ∧
        translate (without [(0x101008, 0x101008)]) .read (0x1FFE#32 + 2#32) = .error (.fault .absentMemory)) ∧
      translateFrom (without [(0x101008, 0x101008)]) .read 0x1FFE#32 4 = .error (.fault .absentMemory) ∧
      translateFrom (without [(0x101008, 0x101008)]) .write 0x1FFE#32 4 = .error (.fault .absentMemory) ∧
      translateFrom (without [(0x101000, 0x101000)]) .fetch 0x40#32 8 = .error (.fault .absentMemory) ∧
      (∃ ws, translateFrom (without [(0x2003, 0x2003)]) .read 0x2000#32 4 = .ok ws ∧
        (ws.any fun w => regionOf (without [(0x2003, 0x2003)]).plat w.pa == .absent) = true) ∧
      (∃ ws, translateFrom (without [(0x2003, 0x2003)]) .write 0x2000#32 4 = .ok ws ∧
        (ws.any fun w => regionOf (without [(0x2003, 0x2003)]).plat w.pa == .absent) = true) ∧
      (∃ ws, translateFrom (without [(0x47, 0x47)]) .fetch 0x40#32 8 = .ok ws ∧
        (ws.any fun w => regionOf (without [(0x47, 0x47)]).plat w.pa == .absent) = true) ∧
      memRead (without [(0x8000, 0x9FFF)]) 0x8000#32 = .error (.fault .absentMemory) ∧
      memRead (without [(0x8000, 0x9FFF)]) 0x9000#32 = .error (.fault .absentMemory) ∧
      memWrite (without [(0x8000, 0x9FFF)]) (pushAddr board .user) 5#32 = .error (.fault .absentMemory) ∧
      memWrite (without [(0x8000, 0x9FFF)]) (pushAddr board .kernel) 5#32 = .error (.fault .absentMemory) ∧
      acceptedIrq (presentedIrq (without [(0x47, 0x47)])) (beginStep (without [(0x47, 0x47)])) = none ∧
      memFetch (beginStep (without [(0x47, 0x47)])) 0x40#32 = .error (.fault .absentMemory) :=
  ⟨by decide +kernel, by decide +kernel, by decide +kernel, by decide +kernel, exists_ok_all (by decide +kernel),
    exists_ok_all (by decide +kernel), exists_ok_all (by decide +kernel), by decide +kernel, by decide +kernel, by decide +kernel, by decide +kernel, by decide +kernel,
    by decide +kernel⟩

/-- Of `MappedAccessesComplete`: across the pages 1 and 2, tables in memory, the bytes in memory or those of page 2 a
device's. -/
theorem witness_MappedAccessesComplete :
    ∀ s ∈ [board, windowed [(0x2000, 0x2FFF)]], ∀ kind ∈ [AccessKind.read, AccessKind.write],
      let e1 : EntryUse := { pdea := 0x100000#32, ptea := 0x101004#32, pte := 0x1C31#32 }
      let e2 : EntryUse := { pdea := 0x100000#32, ptea := 0x101008#32, pte := 0x2C31#32 }
      translate s kind 0x1FFE#32 = .ok { pa := 0x1FFE#32, entry := some e1 } ∧
        translate s kind (0x1FFE#32 + 1#32) = .ok { pa := 0x1FFF#32, entry := some e1 } ∧
        translate s kind (0x1FFE#32 + 2#32) = .ok { pa := 0x2000#32, entry := some e2 } ∧
        translate s kind (0x1FFE#32 + 3#32) = .ok { pa := 0x2001#32, entry := some e2 } ∧
        ([0x1FFE#32, 0x1FFF#32, 0x2000#32, 0x2001#32].all fun pa => decide (regionOf s.plat pa ≠ .absent)) = true ∧
        ([e1, e2].all fun e => decide (entryRegion s.plat e.pdea = .ram ∧ entryRegion s.plat e.ptea = .ram)) = true ∧
        regionOf board.plat 0x2000#32 = .ram ∧ regionOf (windowed [(0x2000, 0x2FFF)]).plat 0x2000#32 = .device := by
  decide +kernel

/-- Of the write clause of `MappedAccessesComplete` where the bytes lead partly to memory and partly to a device: memory is
canonical, and R73's four byte writes leave the first two bytes at 0x1FFE and give the last two to the device. -/
theorem witness_MappedAccessesComplete_mixed_write :
    let s := windowed [(0x2000, 0x2FFF)]
    s.mem.wf = true ∧ regionOf s.plat 0x1FFF#32 = .ram ∧ regionOf s.plat 0x2000#32 = .device ∧
      (match memWrite s 0x1FFE#32 0x44332211#32 with
        | .ok t =>
          t.mem.read 0x1FFE == 0x11#8 && t.mem.read 0x1FFF == 0x22#8 && t.mem.read 0x2000 == s.mem.read 0x2000 &&
            t.plat.ioLog == [.memWrite 0x2001#32 0x44#8, .memWrite 0x2000#32 0x33#8]
        | .error _ => false) = true := by decide +kernel

/-- Do the walks lead where the eight bytes of a fetch translate to, and to no absent address? -/
def fetchWalks (s : State) (la : Word) (ws : List Walk) : Bool :=
  ws.length == 8 && (ws.all fun w => decide (regionOf s.plat w.pa ≠ .absent)) &&
    (List.range 8).all fun k =>
      match translate s .fetch (la + BitVec.ofNat 32 k), ws[k]? with
      | .ok w, some x => decide (w = x)
      | _, _ => false

/-- Of the fetch clause of `MappedAccessesComplete`: across the pages 1 and 2, in memory, or page 2 a device's. -/
theorem witness_MappedAccessesComplete_fetch :
    (∃ ws, translateFrom board .fetch 0x1FFC#32 8 = .ok ws ∧
        (fetchWalks board 0x1FFC#32 ws && ws.all fun w => decide (regionOf board.plat w.pa = .ram)) = true) ∧
      ∃ ws, translateFrom (windowed [(0x2000, 0x2FFF)]) .fetch 0x1FFC#32 8 = .ok ws ∧
        fetchWalks (windowed [(0x2000, 0x2FFF)]) 0x1FFC#32 ws = true :=
  ⟨exists_ok_all (by decide +kernel), exists_ok_all (by decide +kernel)⟩

/-- The entries an access used stand in memory, apart from one another and from the bytes it stores to. -/
def entriesApart (s : State) (ws : List Walk) (stored : List Nat) : Bool :=
  decide (usedEntries ws ≠ []) && (usedEntries ws).all fun e =>
    decide (entryRegion s.plat e.ptea = .ram) && (wordAddrs e.ptea).all fun a =>
      !stored.contains a && (usedEntries ws).all fun x => decide (x.ptea = e.ptea) || !(wordAddrs x.ptea).contains a

/-- Of `AccessesMarkTheirEntries`: the last word of a page; a read, a write and a fetch over two pages. -/
theorem witness_AccessesMarkTheirEntries :
    (board.mem.wf = true ∧
        translate board .read 0x2FFC#32 = .ok { pa := 0x2FFC#32, entry := some { pdea := 0x100000#32, ptea := 0x101008#32, pte := 0x2C31#32 } } ∧
        (0x2FFC#32 &&& 0xFFF#32).toNat ≤ 0xFFC ∧ entryRegion board.plat 0x2FFC#32 = .ram ∧
        entryRegion board.plat 0x101008#32 = .ram) ∧
      ((∃ ws, translateFrom board .read 0x1FFE#32 4 = .ok ws ∧ entriesApart board ws [] = true) ∧
        ∃ r, memRead board 0x1FFE#32 = .ok r) ∧
      ((∃ ws, translateFrom board .write 0x1FFE#32 4 = .ok ws ∧ entriesApart board ws (walkBytes ws) = true) ∧
        ∃ t, memWrite board 0x1FFE#32 5#32 = .ok t) ∧
      (∃ ws, translateFrom board .fetch 0x1FFC#32 8 = .ok ws ∧ entriesApart board ws [] = true) ∧
      ∃ r, memFetch board 0x1FFC#32 = .ok r :=
  ⟨by decide +kernel, ⟨exists_ok_all (by decide +kernel), exists_ok (by decide +kernel)⟩,
    ⟨exists_ok_all (by decide +kernel), exists_ok (by decide +kernel)⟩, exists_ok_all (by decide +kernel),
    exists_ok (by decide +kernel)⟩

/-- Of `OperandFormsOfArithmetic` and `TargetForms`: register numbers 31 and 32, and an operand on an absent page. -/
theorem witness_OperandFormsOfArithmetic :
    (31#32).toNat = (31 : Fin 32).val ∧ (31#8).toNat = (31 : Fin 32).val ∧ 32 ≤ (32#32).toNat ∧ 32 ≤ (32#8).toNat ∧
      memRead board 0x6000#32 = .error (.interrupt 1#32 0x00#8) := by decide +kernel

/-- Of the statements of `ADD` to `MOV`: each operand form, and the faults of `ArithmeticFaultsWriteNothing`,
`LogicResultsAndFlags` and `MovCopiesTheOperand`. -/
theorem witness_arithmetic :
    (1#8).toNat = (1 : Fin 32).val ∧ sourceValue (board.setReg 2 7#32) (.reg 2#32) = .ok (7#32, board.setReg 2 7#32) ∧
      sourceValue board (.imm 7#32) = .ok (7#32, board) ∧ (∃ r, sourceValue board (.addr 0x2000#32) = .ok r) ∧ 32 ≤ (32#8).toNat ∧
      sourceValue board (.addr 0x6000#32) = .error (.interrupt 1#32 0x00#8) ∧
      sourceValue board (.reg 32#32) = .error (.interrupt 2#32 0x03#8) :=
  ⟨by decide, by decide +kernel, rfl, exists_ok (by decide +kernel), by decide, by decide +kernel, by decide +kernel⟩

/-- Of `ZextReadsTheByteRegisters`, `MfsReadsTheWordRegisters`, `MtsWritesTheSpecialRegister`. -/
theorem witness_special : (2#8).toNat = (2 : Fin 32).val ∧ (1#32).toNat = (1 : Fin 32).val := by decide

/-- Of `LdrLoadsTheWord`: a load, a load across two pages, a page fault, a bad register number. -/
theorem witness_LdrLoadsTheWord :
    (4#8).toNat = (4 : Fin 32).val ∧ targetValue (board.setReg 5 0x2008#32) (.reg 5#32) = .ok 0x2008#32 ∧
      ((∃ ws, translateFrom board .read 0x2008#32 4 = .ok ws) ∧ ∃ r, memRead board 0x2008#32 = .ok r) ∧
      ((∃ ws, translateFrom board .read 0x1FFE#32 4 = .ok ws) ∧ ∃ r, memRead board 0x1FFE#32 = .ok r) ∧
      memRead board 0x2FFE#32 = .error (.interrupt 1#32 0x03#8) ∧
      targetValue board (.reg 32#32) = .error (.interrupt 2#32 0x03#8) ∧ 32 ≤ (32#8).toNat :=
  ⟨by decide, by decide +kernel, ⟨exists_ok (by decide +kernel), exists_ok (by decide +kernel)⟩,
    ⟨exists_ok (by decide +kernel), exists_ok (by decide +kernel)⟩, by decide +kernel, by decide +kernel, by decide⟩

/-- Of `StrStoresTheWord`: a store across two pages of memory, and a read-only page. -/
theorem witness_StrStoresTheWord :
    (∃ ws, translateFrom board .write 0x1FFE#32 4 = .ok ws ∧ (ws.all fun w => regionOf board.plat w.pa == .ram) = true) ∧
      (∃ u, memWrite board 0x1FFE#32 (board.reg 4) = .ok u) ∧
      memWrite board 0x5000#32 (board.reg 4) = .error (.interrupt 1#32 0x01#8) :=
  ⟨exists_ok_all (by decide +kernel), exists_ok (by decide +kernel), by decide +kernel⟩

/-- Of `JmpJumps`, `JarSavesTheReturnAddress`, `BranchesTestOneFlag` and the calls: each form of the target, and a bad
register number. -/
theorem witness_targets :
    targetValue (board.setReg 3 0x700#32) (.reg 3#32) = .ok 0x700#32 ∧ targetValue board (.imm 0x300#32) = .ok 0x300#32 ∧
      targetValue ((board.setReg 3 0x700#32).setReg 4 0x20#32) (.regOff 3#32 4#8) = .ok 0x720#32 ∧
      targetValue (board.setReg 4 0x20#32) (.immOff 0x100#32 4#8) = .ok 0x120#32 ∧
      targetValue board (.immOff 0x100#32 32#8) = .error (.interrupt 2#32 0x03#8) := by decide +kernel

/-- Of `CallPushesTheReturnAddress`, `KcallPushesOnTheKernelStack`, `PushesStoreAtTheNewTop`: a
push that is made on each stack, and one that faults. -/
theorem witness_pushes :
    ((∃ ws, translateFrom board .write (pushAddr board .user) 4 = .ok ws) ∧ ∃ u, memWrite board (pushAddr board .user) board.i0 = .ok u) ∧
      ((∃ ws, translateFrom board .write (pushAddr board .kernel) 4 = .ok ws) ∧
        ∃ u, memWrite board (pushAddr board .kernel) board.i0 = .ok u) ∧
      (∃ t, push board .user 5#32 = .ok t) ∧ (∃ t, push (flagged 0x40#8) .kernel 5#32 = .ok t) ∧
      memWrite { board with s0 := 0x4FFC#32 } (pushAddr { board with s0 := 0x4FFC#32 } .user) board.i0 = .error (.interrupt 1#32 0x01#8) ∧
      memWrite { board with s1 := 0x4FFC#32 } (pushAddr { board with s1 := 0x4FFC#32 } .kernel) board.i0
        = .error (.interrupt 1#32 0x01#8) ∧
      regImmValue board (.reg 32#32) = .error (.interrupt 2#32 0x03#8) :=
  ⟨⟨exists_ok (by decide +kernel), exists_ok (by decide +kernel)⟩, ⟨exists_ok (by decide +kernel), exists_ok (by decide +kernel)⟩,
    exists_ok (by decide +kernel), exists_ok (by decide +kernel), by decide +kernel, by decide +kernel, by decide +kernel⟩

/-- Of the last clause of `StackMovesByGrowthFlag`: after a push on either stack, growing either way, the pop's translations
lead to the element's bytes, in memory and apart from the entry that the pop uses. -/
theorem witness_StackMovesByGrowthFlag :
    ∀ s ∈ [board, flagged 0x40#8], ∀ p ∈ [StackPtr.user, StackPtr.kernel], s.mem.wf = true ∧
      (match translateFrom s .write (pushAddr s p) 4, push s p 5#32 with
        | .ok ws, .ok t =>
          (match translateFrom t .read (pushAddr s p) 4 with
            | .ok ws' =>
              (ws.all fun w => regionOf s.plat w.pa == .ram) && walkBytes ws' == walkBytes ws &&
                (walkBytes ws').all fun a => !(entryBytes ws').contains a
            | .error _ => false)
        | _, _ => false) = true := by decide +kernel

/-- Of `ReturnsPopAndJump` and `PopsLoadFromTheTop`: a pop that is made on each stack, and one that faults. -/
theorem witness_pops :
    ((∃ ws, translateFrom board .read board.s0 4 = .ok ws) ∧ ∃ r, memRead board board.s0 = .ok r) ∧
      ((∃ ws, translateFrom board .read board.s1 4 = .ok ws) ∧ ∃ r, memRead board board.s1 = .ok r) ∧
      memRead { board with s0 := 0x6000#32 } 0x6000#32 = .error (.interrupt 1#32 0x00#8) ∧
      memRead { board with s1 := 0x6000#32 } 0x6000#32 = .error (.interrupt 1#32 0x00#8) ∧ (7#32).toNat = (7 : Fin 32).val :=
  ⟨⟨exists_ok (by decide +kernel), exists_ok (by decide +kernel)⟩, ⟨exists_ok (by decide +kernel), exists_ok (by decide +kernel)⟩,
    by decide +kernel, by decide +kernel, by decide⟩

/-- Of `IncAndDecWrapWithoutFlags`. -/
theorem witness_IncAndDecWrapWithoutFlags : (31#32).toNat = (31 : Fin 32).val ∧ 32 ≤ (32#32).toNat := by decide

/-- Of `InReadsThePort` and `OutWritesThePort`: permitted with no answer lined up and with one behind another port's, not
permitted, a bad register number in either field. -/
theorem witness_ports :
    regImmValue (board.setReg 2 0x3F8#32) (.reg 2#32) = .ok 0x3F8#32 ∧ ioPermitted board 0x3F8#32 = true ∧
      ioPermitted (userBoard 0#8) 0x3F8#32 = false ∧ board.plat.portAnswers = [] ∧
      ({ board.plat with portAnswers := [(0x60#32, 1#32), (0x3F8#32, 0x55#32), (0x3F8#32, 2#32)] } : Platform).portAnswers =
        [(0x60#32, 1#32)] ++ (0x3F8#32, 0x55#32) :: [(0x3F8#32, 2#32)] ∧
      (0x60#32 : Word) ≠ 0x3F8#32 ∧
      32 ≤ (32#8).toNat ∧ regImmValue board (.reg 32#32) = .error (.interrupt 2#32 0x03#8) := by decide +kernel

end Sys2Proof.Tests
end

section
/-! SUPPORT. The statements about the encoding: which words are no instruction and what a step on one does
(spec/30_encoding.md R122), and the operand forms of `ADD` to `MOV` (R112). -/

namespace Sys2Proof

/-! ### Opcodes that are no instruction's -/

/-- Every row's opcode lies in 0x01 to 0x28 (R120). -/
theorem opcodeOf_bounds (i : Instr) : 1 ≤ (opcodeOf i).toNat ∧ (opcodeOf i).toNat < 0x29 := by
  cases i <;> simp [opcodeOf]

/-- The opcode field is what a shift by 58 leaves (R105). -/
theorem opField_toNat (w : InstrWord) : (opField w).toNat = (w >>> 58).toNat := by
  have := w.isLt
  simp only [opField, BitVec.extractLsb'_toNat, BitVec.toNat_ushiftRight, Nat.shiftRight_eq_div_pow]
  omega

/-- A word whose opcode no row of R120 has is refused for its opcode (R122). -/
theorem decode_of_unassigned {w : InstrWord} (h : (opField w).toNat = 0 ∨ 0x29 ≤ (opField w).toNat) :
    decode w = .error (.invalidOpcode (opField w)) := by
  unfold decode
  dsimp only
  split
  case h_41 => rfl
  all_goals omega

namespace Machine

/-! ### A step that fetches -/

@[simp] theorem beginStep_i0 (s : State) : (beginStep s).i0 = s.i0 := rfl

@[simp] theorem beginStep_run (s : State) : (beginStep s).run = s.run := rfl

/-- A running processor that takes no external interrupt fetches and executes (R240). -/
theorem step_of_running {s : State} (hrun : s.run = .running) (hirq : acceptedIrq (presentedIrq s) (beginStep s) = none) :
    step s = closeStep (fetchExecute exec (beginStep s)) := by
  simp [step, cycle, hrun, hirq]

/-- A fetch leaves `I0` alone. -/
theorem memFetch_i0 {s u : State} {la : Word} {w : InstrWord} (h : memFetch s la = .ok (w, u)) : u.i0 = s.i0 := by
  obtain ⟨ws, -, ⟨⟨hu, -⟩, -⟩, -⟩ := memFetch_frame h
  rw [hu]

/-- A step on a word that is no instruction enters `IOP`, from the fetched state with `I0` moved past the word (R122). -/
theorem step_of_invalid {s u : State} {w : InstrWord} {e : DecodeError} (hrun : s.run = .running)
    (hirq : acceptedIrq (presentedIrq s) (beginStep s) = none) (hfetch : memFetch (beginStep s) s.i0 = .ok (w, u))
    (hw : decode w = .error e) : step s = closeStep (enter 0#32 0x00#8 { u with i0 := s.i0 + 8#32 }) := by
  have hi0 : u.i0 = (beginStep s).i0 := memFetch_i0 hfetch
  rw [step_of_running hrun hirq]
  simp only [fetchExecute, beginStep_i0, hfetch, hw, advance, State.setI0, hi0]

/-! ### Interrupt entry -/

/-- `IE1` is the `I0` that entry began with, whatever the delivery does (R250). -/
theorem enter_ie1 {n : Word} {code : Byte} {s t : State} (h : enter n code s = .next t) : t.ie1 = s.i0 := by
  rw [enter_spec h]
  rfl

/-- A vector whose entry stands in memory and is not zero is jumped to, with the context saved (R250, R255). -/
theorem enter_of_ram {n : Word} {code : Byte} {s : State} (hr : entryRegion s.plat (s.ivtr + 4#32 * n) = .ram)
    (hz : s.mem.readWord (s.ivtr + 4#32 * n) ≠ 0#32) :
    enter n code s = .next ((saveContext code s).setI0 (s.mem.readWord (s.ivtr + 4#32 * n))) := by
  have hread : physRead32 (saveContext code s) (s.ivtr + 4#32 * n) =
      some (s.mem.readWord (s.ivtr + 4#32 * n), saveContext code s) :=
    physRead32_ram (s := saveContext code s) hr
  simp [enter, deliver, hread, hz]

/-- Settles O7: the decoder refuses the word for its opcode alone, so the step is the entry of vector 0 from the fetched
state, whose `I0` the entry saves. -/
theorem invalidOpcodeTakesIop : Obligations.InvalidOpcodeTakesIop := by
  refine ⟨fun i => ?_, decode_of_unassigned (.inl (by decide)), fun s u w hrun hirq hfetch hop => ?_⟩
  · obtain ⟨hlo, hhi⟩ := opcodeOf_bounds i
    exact ⟨fun h => by simp [h] at hlo, hhi⟩
  · have hdec := decode_of_unassigned (w := w) (by rwa [opField_toNat])
    have hstep := step_of_invalid hrun hirq hfetch hdec
    refine ⟨by simp [hdec], hstep, fun t ht => ?_, fun hram hnz => ?_⟩
    · obtain ⟨v, hv, rfl⟩ := closeStep_eq_next.1 (hstep.symm.trans ht)
      exact enter_ie1 hv
    · have hvec : u.ivtr + 4#32 * 0#32 = u.ivtr := by simp
      have henter := enter_of_ram (n := 0#32) (code := 0x00#8) (s := { u with i0 := s.i0 + 8#32 })
        (by rwa [hvec]) (by rwa [hvec])
      rw [hstep, henter, hvec]
      exact ⟨_, rfl, rfl, rfl⟩

/-! ### The operand of `ADD` to `MOV` -/

/-- A data read changes nothing but the marks in the table entries of its own translation, and gives the word its walks
lead to (R72). -/
theorem memRead_of_walks {s u : State} {la v : Word} {ws : List Walk} (hws : translateFrom s .read la 4 = .ok ws)
    (h : memRead s la = .ok (v, u)) : AccessFrame ws [] s u ∧ LoadedWord ws u v := by
  obtain ⟨ws', hws', hframe, -⟩ := memRead_frame h
  rw [hws] at hws'
  cases hws'
  exact ⟨hframe, memRead_loaded hws h⟩

/-- Settles O31: a register form is its register field's check, the other two are the immediate and the data read. -/
theorem operandFormsOfArithmetic : Obligations.OperandFormsOfArithmetic := by
  refine fun s => ⟨fun rs r hr => ?_, fun rs hrs => ?_, fun _ => rfl, fun _ => rfl, fun i v u ws => memRead_of_walks,
    fun i n c => memRead_interrupt⟩
  · rw [sourceValue, gpr_of_eq hr, act_ok_bind]
  · rw [sourceValue, gpr_of_ge hrs, act_error_bind, integrityFault]

end Machine

end Sys2Proof
end

section
/-! SUPPORT. The statements about the bitwise instructions and `MOV` (spec/40_alu.md R145 to R147, R151): the modes and the
opcode bits of `ADD` to `MOV`, the flags they write, and the template of R140 run to its end. -/

namespace Sys2Proof

/-! ### The modes and the opcode bits of a word -/

/-- The mode field is what a shift by 56 leaves, modulo 4 (R102, R103). -/
theorem amField_toNat (w : InstrWord) : (amField w).toNat = (w >>> 56).toNat % 4 := by
  simp only [amField, BitVec.extractLsb'_toNat, BitVec.toNat_ushiftRight]

/-- The operand of `ADD` to `MOV` has the modes 00, 01 and 11 (R108). -/
theorem exists_decodeSource_iff (am : BitVec 2) (main : Word) :
    (∃ src, decodeSource am main = .ok src) ↔ am.toNat ∈ [0, 1, 3] := by
  unfold decodeSource
  split <;> simp_all

/-- A word with an opcode of `ADD` to `MOV` is an instruction on the operand its mode selects (R107, R120). -/
theorem decode_of_source_opcode {w : InstrWord} (hlo : 0x01 ≤ (opField w).toNat) (hhi : (opField w).toNat ≤ 0x0B) :
    ∃ f : Source → Instr, decode w = (decodeSource (amField w) (rriMain w)).map f := by
  generalize hop : (opField w).toNat = op at hlo hhi
  unfold decode
  simp only [hop]
  interval_cases op <;> exact ⟨_, rfl⟩

/-- The bits under the mask of R120 are the opcode field, in its place. -/
theorem and_opcodeMask (w : InstrWord) : w &&& 0xFC00000000000000#64 = opField w ++ 0#58 := by
  have hmask : 0xFC00000000000000#64 = BitVec.allOnes 6 ++ 0#58 := by decide
  apply BitVec.eq_of_getLsbD_eq
  intro k hk
  rw [hmask, BitVec.getLsbD_and, BitVec.getLsbD_append, BitVec.getLsbD_append, opField, BitVec.getLsbD_extractLsb']
  by_cases hlow : k < 58
  · simp [hlow]
  · have htop : k - 58 < 6 := by omega
    rw [if_neg hlow, if_neg hlow, BitVec.getLsbD_allOnes, show 58 + (k - 58) = k by omega]
    simp [htop]

namespace Machine

/-- Mode 10 is no instruction for `ADD` to `MOV`, and each other mode is (R108). -/
theorem decodesOnlyIn_of_source_opcode {op : Nat} (hlo : 0x01 ≤ op) (hhi : op ≤ 0x0B) : DecodesOnlyIn op [0, 1, 3] := by
  intro w hop
  rw [← opField_toNat] at hop
  obtain ⟨f, hf⟩ := decode_of_source_opcode (w := w) (by omega) (by omega)
  rw [hf, ← amField_toNat, ← exists_decodeSource_iff (amField w) (rriMain w)]
  cases decodeSource (amField w) (rriMain w) <;> simp [Except.map]

/-- The opcode field of an instruction's word is its encoding under the mask (R105, R120). -/
theorem hasOpcode_of_opField {i : Instr} {op : BitVec 6} {m : InstrWord} (hi : opField (encode i) = op)
    (hm : op ++ 0#58 = m) : HasOpcode i m := by
  rw [HasOpcode, and_opcodeMask, hi, hm]

/-! ### The flags -/

/-- Setting Z from a result keeps the seven other flags (R145 to R147). -/
theorem flagsAre_putZ (fr : Byte) (r : Word) :
    FlagsAre (putZ fr r) (fr.getLsbD 0) (decide (r = 0#32)) (fr.getLsbD 2) (fr.getLsbD 3) (fr.getLsbD 4)
      (fr.getLsbD 5) (fr.getLsbD 6) (fr.getLsbD 7) :=
  ⟨getFlag_putZ fr r .c, getFlag_putZ fr r .z, getFlag_putZ fr r .s, getFlag_putZ fr r .v, getFlag_putZ fr r .e,
    getFlag_putZ fr r .i, getFlag_putZ fr r .g, getFlag_putZ fr r .t⟩

/-- Setting S after Z keeps the six other flags (R151). -/
theorem flagsAre_putS_putZ (fr : Byte) (r : Word) :
    FlagsAre (putS (putZ fr r) r) (fr.getLsbD 0) (decide (r = 0#32)) r.msb (fr.getLsbD 3) (fr.getLsbD 4)
      (fr.getLsbD 5) (fr.getLsbD 6) (fr.getLsbD 7) := by
  obtain ⟨hc, hz, -, hv, he, hi, hg, ht⟩ := flagsAre_putZ fr r
  have hS := getFlag_putS (putZ fr r) r
  exact ⟨(hS .c).trans hc, (hS .z).trans hz, hS .s, (hS .v).trans hv, (hS .e).trans he, (hS .i).trans hi,
    (hS .g).trans hg, (hS .t).trans ht⟩

/-! ### The template of R140 -/

section
variable {op : Word → Word → Byte → Word × Byte} {i : Instr} {rd : BitVec 8} {src : Source} {s : State}

/-- An instruction of the template writes the result and the flags of its operation, after the operand's read. -/
theorem arithWrites_of_effect (he : effect i s = arith op rd src s) {u : State} {d : Fin 32} {b : Word}
    (hd : rd.toNat = d.val) (hs : sourceValue s src = .ok (b, u)) :
    ArithWrites i d src s u (op (s.reg d) b s.fr).1 (op (s.reg d) b s.fr).2 := by
  refine ⟨sourceFrame_of_ok hs, ?_⟩
  rw [exec_eq_finish, he, arith_eq_ok hd hs]
  rfl

/-- The destination is checked before the operand is read (R116, R126). -/
theorem exec_of_effect_badReg (he : effect i s = arith op rd src s) (hrd : 32 ≤ rd.toNat) :
    exec i s = enter 2#32 0x03#8 s := by
  rw [exec_eq_finish, he, arith, gpr_of_ge hrd]
  rfl

/-- An interrupt of the operand's read is entered from the state the instruction began in (R253). -/
theorem exec_of_effect_sourceInterrupt (he : effect i s = arith op rd src s) {n : Word} {c : Byte}
    (hrd : rd.toNat < 32) (hs : sourceValue s src = .error (.interrupt n c)) : exec i s = enter n c s := by
  rw [exec_eq_finish, he, arith, gpr_of_eq (d := ⟨rd.toNat, hrd⟩) rfl, act_ok_bind, hs]
  rfl

end

/-- Settles O37: the three are the template of R140 on the bitwise operation, which sets Z alone. -/
theorem logicResultsAndFlags : Obligations.LogicResultsAndFlags := by
  refine fun s rd src => ⟨fun u d b hd hs => ?_, fun i hi => ?_, ?_⟩
  · exact ⟨⟨_, arithWrites_of_effect (op := andOp) rfl hd hs, flagsAre_putZ _ _⟩,
      ⟨_, arithWrites_of_effect (op := orOp) rfl hd hs, flagsAre_putZ _ _⟩,
      ⟨_, arithWrites_of_effect (op := xorOp) rfl hd hs, flagsAre_putZ _ _⟩⟩
  · have he : ∃ op, effect i s = arith op rd src s := by
      simp only [List.mem_cons, List.not_mem_nil, or_false] at hi
      obtain rfl | rfl | rfl := hi
      exacts [⟨andOp, rfl⟩, ⟨orOp, rfl⟩, ⟨xorOp, rfl⟩]
    obtain ⟨op, he⟩ := he
    exact ⟨exec_of_effect_badReg he, fun n c => exec_of_effect_sourceInterrupt he⟩
  · refine ⟨decodesOnlyIn_of_source_opcode (by decide) (by decide), decodesOnlyIn_of_source_opcode (by decide) (by decide),
      decodesOnlyIn_of_source_opcode (by decide) (by decide), ?_, ?_, ?_⟩
    · exact hasOpcode_of_opField (op := 0x05#6) (Laws.OpcodeBits.and rd src) (by decide)
    · exact hasOpcode_of_opField (op := 0x06#6) (Laws.OpcodeBits.or rd src) (by decide)
    · exact hasOpcode_of_opField (op := 0x07#6) (Laws.OpcodeBits.xor rd src) (by decide)

/-- Settles O41: `MOV` is the template of R140 on the operation that answers its operand and sets Z and S from it. -/
theorem movCopiesTheOperand : Obligations.MovCopiesTheOperand := by
  refine fun s rd src => ⟨fun u d b hd hs => ?_, ?_, fun n c => ?_, ?_, ?_⟩
  · exact ⟨_, arithWrites_of_effect (op := movOp) rfl hd hs, flagsAre_putS_putZ _ _⟩
  · exact exec_of_effect_badReg (op := movOp) rfl
  · exact exec_of_effect_sourceInterrupt (op := movOp) rfl
  · exact decodesOnlyIn_of_source_opcode (by decide) (by decide)
  · exact hasOpcode_of_opField (op := 0x0B#6) (Laws.OpcodeBits.mov rd src) (by decide)

end Machine

end Sys2Proof
end

section
/-! SUPPORT. The statement about `LDR` (spec/42_load_store.md R181): its parts in the order of R126, one equation for each
way it ends. -/

namespace Sys2Proof.Machine

section
variable {s : State} {rd : BitVec 8} {ea : Target} {d : Fin 32}

/-- Past the checks of its register fields, `LDR` is the read at its effective address, whose word goes to the destination,
Z and S. -/
theorem effect_ldr_of_address {a : Word} (hd : rd.toNat = d.val) (ha : targetValue s ea = .ok a) :
    effect (.ldr rd ea) s =
      (memRead s a >>= fun r => .ok ((r.2.setReg d r.1).setFr (putS (putZ s.fr r.1) r.1))) := by
  rw [effect, gpr_of_eq hd, act_ok_bind, ha, act_ok_bind]

/-- `LDR` on a word that can be read writes it and its flags into the state the read left (R181). -/
theorem exec_ldr_of_read {a v : Word} {u : State} (hd : rd.toNat = d.val) (ha : targetValue s ea = .ok a)
    (hr : memRead s a = .ok (v, u)) :
    exec (.ldr rd ea) s = .next { u with regs := u.regs.set d.val v d.isLt, fr := putS (putZ s.fr v) v } := by
  rw [exec_eq_finish, effect_ldr_of_address hd ha, hr]
  rfl

/-- A page fault of the read of `LDR` is entered from the state the instruction began in (R253). -/
theorem exec_ldr_of_pageFault {a n : Word} {c : Byte} (hd : rd.toNat = d.val) (ha : targetValue s ea = .ok a)
    (hr : memRead s a = .error (.interrupt n c)) : exec (.ldr rd ea) s = enter n c s := by
  rw [exec_eq_finish, effect_ldr_of_address hd ha, hr, act_error_bind, finish_interrupt]

/-- A target that names no general register makes `LDR` raise `IPF(0x03)` before anything is read (R114, R116). -/
theorem exec_ldr_of_badTarget {e : Stop} (hd : rd.toNat = d.val) (ha : targetValue s ea = .error e) :
    exec (.ldr rd ea) s = enter 2#32 0x03#8 s := by
  rw [exec_eq_finish, effect, gpr_of_eq hd, act_ok_bind, ha, act_error_bind, targetValue_error ha, integrityFault,
    finish_interrupt]

/-- The destination of `LDR` is checked first of all (R116, R126). -/
theorem exec_ldr_of_badDestination (hrd : 32 ≤ rd.toNat) : exec (.ldr rd ea) s = enter 2#32 0x03#8 s := by
  rw [exec_eq_finish, effect, gpr_of_ge hrd, act_error_bind, integrityFault, finish_interrupt]

end

/-- Settles O45: one clause for each way `LDR` ends, and the opcode bits its encoding packs. -/
theorem ldrLoadsTheWord : Obligations.LdrLoadsTheWord := by
  refine fun s rd d ea hd => ⟨fun a v u ws ha hws hr => ?_, fun a n c ha hr => ?_, fun e => exec_ldr_of_badTarget hd,
    fun r => exec_ldr_of_badDestination, ?_⟩
  · obtain ⟨hframe, hword⟩ := memRead_of_walks hws hr
    exact ⟨_, exec_ldr_of_read hd ha hr, hframe, hword, flagsAre_putS_putZ _ _⟩
  · obtain ⟨rfl, hc⟩ := memRead_interrupt hr
    exact ⟨rfl, hc, exec_ldr_of_pageFault hd ha hr⟩
  · exact hasOpcode_of_opField (op := 0x0F#6) (Laws.OpcodeBits.ldr rd ea) (by decide)

end Sys2Proof.Machine
end

section
/-! SUPPORT. The statements about `JMP`, `CALL`, `RET` and `KRET` (spec/43_control_transfer.md R191, R199, R201, R202): what a
write gives along its own walks, the two stack shapes on the access they make, and how each instruction ends. -/

namespace Sys2Proof.Machine

/-- A data write changes nothing but the bytes its walks lead to and the marks in the table entries of its own translation,
and leaves the word in those bytes (R73). -/
theorem memWrite_of_walks {s u : State} {la v : Word} {ws : List Walk} (hws : translateFrom s .write la 4 = .ok ws)
    (h : memWrite s la v = .ok u) : AccessFrame ws (walkBytes ws) s u ∧ StoredWord ws s u v := by
  obtain ⟨ws', hws', hframe, -⟩ := memWrite_frame h
  rw [hws] at hws'
  cases hws'
  exact ⟨hframe, memWrite_stored hws h⟩

/-! ### The stack accesses of a call and a return -/

section
variable {s : State} {p : StackPtr} {tgt : Target}

/-- A push whose write completes moves its pointer to the element (R210). -/
theorem push_of_write {v : Word} {u : State} (h : memWrite s (pushAddr s p) v = .ok u) :
    push s p v = .ok (u.setSp p (pushAddr s p)) := by rw [push, h, act_ok_bind]

/-- A push whose write ends early ends with it (R253). -/
theorem push_of_stop {v : Word} {e : Stop} (h : memWrite s (pushAddr s p) v = .error e) : push s p v = .error e := by
  rw [push, h, act_error_bind]

/-- A pop whose read completes gives the word and moves its pointer off it (R210). -/
theorem pop_of_read {v : Word} {u : State} (h : memRead s (s.sp p) = .ok (v, u)) :
    pop s p = .ok (v, u.setSp p (popNext s p)) := by rw [pop, h, act_ok_bind]

/-- A pop whose read ends early ends with it (R253). -/
theorem pop_of_stop {e : Stop} (h : memRead s (s.sp p) = .error e) : pop s p = .error e := by
  rw [pop, h, act_error_bind]

/-- A call whose write completes pushes the address of the next instruction, then goes to the target (R199, R200). -/
theorem callOn_of_write {t : Word} {u : State} (ht : targetValue s tgt = .ok t)
    (hw : memWrite s (pushAddr s p) s.i0 = .ok u) :
    callOn p tgt s = .ok ((u.setSp p (pushAddr s p)).setI0 t) := by
  rw [callOn, ht, act_ok_bind, push_of_write hw, act_ok_bind]

/-- A call whose write ends early ends with it, before the transfer (R253). -/
theorem callOn_of_stop {t : Word} {e : Stop} (ht : targetValue s tgt = .ok t)
    (hw : memWrite s (pushAddr s p) s.i0 = .error e) : callOn p tgt s = .error e := by
  rw [callOn, ht, act_ok_bind, push_of_stop hw, act_error_bind]

/-- A call on a target that names no general register ends before anything is pushed (R114, R116). -/
theorem callOn_of_badTarget {e : Stop} (ht : targetValue s tgt = .error e) :
    callOn p tgt s = .error (integrityFault 0x03#8) := by
  rw [callOn, ht, act_error_bind, targetValue_error ht]

/-- A return whose read completes goes to the word at the pointer, which moves off it (R201, R202). -/
theorem returnOn_of_read {v : Word} {u : State} (h : memRead s (s.sp p) = .ok (v, u)) :
    returnOn p s = .ok ((u.setSp p (popNext s p)).setI0 v) := by rw [returnOn, pop_of_read h, act_ok_bind]

/-- A return whose read ends early ends with it, before the transfer (R253). -/
theorem returnOn_of_stop {e : Stop} (h : memRead s (s.sp p) = .error e) : returnOn p s = .error e := by
  rw [returnOn, pop_of_stop h, act_error_bind]

/-! ### How the instructions end -/

/-- An instruction that is a return on `p` enters the page fault of its read, with nothing written (R253). -/
theorem faultsWith_of_returnOn {i : Instr} (he : effect i s = returnOn p s) {n : Word} {c : Byte}
    (h : memRead s (s.sp p) = .error (.interrupt n c)) : FaultsWith i s [0x00#8, 0x03#8, 0x02#8] n c := by
  obtain ⟨rfl, hc⟩ := memRead_interrupt h
  refine ⟨rfl, hc, ?_⟩
  rw [exec_eq_finish, he, returnOn_of_stop h, finish_interrupt]

/-- In supervisor mode `KRET` is a return on the kernel stack (R202). -/
theorem effect_kret_of_supervisor (hm : s.mode = .supervisor) : effect .kret s = returnOn .kernel s := by
  rw [effect, requireSupervisor_of_supervisor hm, act_ok_bind]

end

/-- Settles O47: `JMP` is the branch that is always made, after the check of its target. -/
theorem jmpJumps : Obligations.JmpJumps := by
  refine fun tgt s => ⟨fun t ht => ?_, fun e ht => ?_, ?_⟩
  · rw [exec_eq_finish, effect, branchIf, ht, act_ok_bind, if_pos rfl, finish_ok, State.setI0]
  · rw [exec_eq_finish, effect, branchIf, ht, act_error_bind, targetValue_error ht, integrityFault, finish_interrupt]
  · exact hasOpcode_of_opField (op := 0x11#6) (Laws.OpcodeBits.jmp tgt) (by decide)

/-- Settles O50: `CALL` is the call on the user stack, which ends by its write, by the write's page fault, or by the check
of its target. -/
theorem callPushesTheReturnAddress : Obligations.CallPushesTheReturnAddress := by
  refine fun tgt s => ⟨fun t u ws ht hws hw => ?_, fun t n c ht hw => ?_, fun e ht => ?_, ?_⟩
  · refine ⟨?_, memWrite_of_walks hws hw⟩
    rw [exec_eq_finish, effect, callOn_of_write ht hw, finish_ok]
    rfl
  · obtain ⟨rfl, hc⟩ := memWrite_interrupt hw
    refine ⟨rfl, hc, ?_⟩
    rw [exec_eq_finish, effect, callOn_of_stop ht hw, finish_interrupt]
  · rw [exec_eq_finish, effect, callOn_of_badTarget ht, integrityFault, finish_interrupt]
  · exact hasOpcode_of_opField (op := 0x19#6) (Laws.OpcodeBits.call tgt) (by decide)

/-- Settles O52: each return is the pop on its own stack, `KRET` past the check of the mode, and ends by its read or by the
read's page fault. -/
theorem returnsPopAndJump : Obligations.ReturnsPopAndJump := by
  refine fun s => ⟨fun v u ws hws hr => ?_, fun n c => faultsWith_of_returnOn (p := .user) rfl, fun v u ws hm hws hr => ?_,
    fun n c hm => faultsWith_of_returnOn (p := .kernel) (effect_kret_of_supervisor hm), fun hm => ?_, ?_, ?_⟩
  · refine ⟨?_, memRead_of_walks hws hr⟩
    rw [exec_eq_finish, effect, returnOn_of_read (p := .user) hr, finish_ok]
    rfl
  · refine ⟨?_, memRead_of_walks hws hr⟩
    rw [exec_eq_finish, effect_kret_of_supervisor hm, returnOn_of_read (p := .kernel) hr, finish_ok]
    rfl
  · rw [exec_eq_finish, effect, requireSupervisor_of_user hm, act_error_bind, integrityFault, finish_interrupt]
  · exact hasOpcode_of_opField (op := 0x22#6) Laws.OpcodeBits.ret (by decide)
  · exact hasOpcode_of_opField (op := 0x23#6) Laws.OpcodeBits.kret (by decide)

end Sys2Proof.Machine
end

section
/-! SUPPORT. The statements about `PUSH`, `POP`, `KPUSH` and `KPOP` (spec/44_stack.md R211 to R214): the modes of their
operands, their two shapes on the access each makes, and how an instruction of a shape ends. -/

namespace Sys2Proof

/-! ### The modes of a stack instruction -/

/-- The operand of `PUSH`, `KPUSH`, `SWI`, `IN` and `OUT` has the modes 00 and 01 (R108). -/
theorem exists_decodeRegImm_iff (am : BitVec 2) (main : Word) :
    (∃ src, decodeRegImm am main = .ok src) ↔ am.toNat ∈ [0, 1] := by
  unfold decodeRegImm
  split <;> simp_all

/-- The register field of `POP`, `KPOP`, `INC`, `DEC`, `ZEXT`, `MFS` and `MTS` has the mode 00 only (R108). -/
theorem exists_decodeReg_iff (am : BitVec 2) (main : Word) : (∃ rs, decodeReg am main = .ok rs) ↔ am.toNat ∈ [0] := by
  unfold decodeReg
  split <;> simp_all

namespace Machine

/-- An opcode whose words decode exactly where their operand does has the operand's modes (R107, R108). -/
theorem decodesOnlyIn_of_operand {α : Type} {op : Nat} {modes : List Nat} {operand : InstrWord → Except DecodeError α}
    {f : α → Instr} (hdecode : ∀ w, (opField w).toNat = op → decode w = (operand w).map f)
    (hmodes : ∀ w, (∃ a, operand w = .ok a) ↔ (amField w).toNat ∈ modes) : DecodesOnlyIn op modes := by
  intro w hop
  rw [← opField_toNat] at hop
  rw [hdecode w hop, ← amField_toNat, ← hmodes w]
  cases operand w <;> simp [Except.map]

/-! ### A privileged instruction -/

section
variable {i : Instr} {s : State} {act : Act State}

/-- In supervisor mode a privileged instruction does what follows the check of the mode (R126, R282). -/
theorem effect_of_supervisor (he : effect i s = requireSupervisor s >>= fun _ => act) (hm : s.mode = .supervisor) :
    effect i s = act := by rw [he, requireSupervisor_of_supervisor hm, act_ok_bind]

/-- In user mode a privileged instruction raises `IPF(0x00)` before anything else (R126, R282). -/
theorem exec_of_user (he : effect i s = requireSupervisor s >>= fun _ => act) (hm : s.mode = .user) :
    exec i s = enter 2#32 0x00#8 s := by
  rw [exec_eq_finish, he, requireSupervisor_of_user hm, act_error_bind, integrityFault, finish_interrupt]

end

/-! ### How a push ends -/

section
variable {i : Instr} {p : StackPtr} {src : RegImm} {s : State}

/-- A push is its operand's value pushed, once the value's register field is checked (R126, R211). -/
theorem pushOn_of_value {v : Word} (hv : regImmValue s src = .ok v) : pushOn p src s = push s p v := by
  rw [pushOn, hv, act_ok_bind]

/-- An instruction that is a push on `p` stores its operand at the new top and moves the pointer there (R211, R213). -/
theorem exec_of_pushOn_write (he : effect i s = pushOn p src s) {v : Word} {u : State} {ws : List Walk}
    (hv : regImmValue s src = .ok v) (hws : translateFrom s .write (pushAddr s p) 4 = .ok ws)
    (hw : memWrite s (pushAddr s p) v = .ok u) :
    exec i s = .next (u.setSp p (pushAddr s p)) ∧ AccessFrame ws (walkBytes ws) s u ∧ StoredWord ws s u v := by
  refine ⟨?_, memWrite_of_walks hws hw⟩
  rw [exec_eq_finish, he, pushOn_of_value hv, push_of_write hw, finish_ok]

/-- An instruction that is a push on `p` enters the page fault of its write, with nothing written (R253). -/
theorem faultsWith_of_pushOn (he : effect i s = pushOn p src s) {v n : Word} {c : Byte}
    (hv : regImmValue s src = .ok v) (hw : memWrite s (pushAddr s p) v = .error (.interrupt n c)) :
    FaultsWith i s [0x00#8, 0x03#8, 0x02#8, 0x01#8] n c := by
  obtain ⟨rfl, hc⟩ := memWrite_interrupt hw
  refine ⟨rfl, hc, ?_⟩
  rw [exec_eq_finish, he, pushOn_of_value hv, push_of_stop hw, finish_interrupt]

/-- A push of an operand that names no general register raises `IPF(0x03)` before anything is written (R116, R126). -/
theorem exec_of_pushOn_badOperand (he : effect i s = pushOn p src s) {e : Stop} (hv : regImmValue s src = .error e) :
    exec i s = enter 2#32 0x03#8 s := by
  rw [exec_eq_finish, he, pushOn, hv, act_error_bind, regImmValue_error hv, integrityFault, finish_interrupt]

end

/-- The operand of a push is the register its field names, checked, or the immediate (R211). -/
theorem regImmValue_forms (s : State) (rs i : Word) (r : Fin 32) :
    (rs.toNat = r.val → regImmValue s (.reg rs) = .ok (s.reg r)) ∧ regImmValue s (.imm i) = .ok i ∧
      (32 ≤ rs.toNat → regImmValue s (.reg rs) = .error (.interrupt 2#32 0x03#8)) := by
  refine ⟨fun hr => ?_, rfl, fun hrs => ?_⟩
  · rw [regImmValue, gpr_of_eq hr, act_ok_bind]
  · rw [regImmValue, gpr_of_ge hrs, act_error_bind, integrityFault]

/-! ### How a pop ends -/

section
variable {i : Instr} {p : StackPtr} {rs : Word} {s : State}

/-- Past the check of its register field, a pop writes the popped word there (R126, R212). -/
theorem popOn_of_register {d : Fin 32} (hd : rs.toNat = d.val) :
    popOn p rs s = (pop s p >>= fun r => .ok (r.2.setReg d r.1)) := by rw [popOn, gpr_of_eq hd, act_ok_bind]

/-- An instruction that is a pop on `p` takes the word at the pointer into its register and moves the pointer off it
(R212, R214). -/
theorem exec_of_popOn_read (he : effect i s = popOn p rs s) {d : Fin 32} {v : Word} {u : State} {ws : List Walk}
    (hd : rs.toNat = d.val) (hws : translateFrom s .read (s.sp p) 4 = .ok ws) (hr : memRead s (s.sp p) = .ok (v, u)) :
    exec i s = .next ((u.setSp p (popNext s p)).setReg d v) ∧ AccessFrame ws [] s u ∧ LoadedWord ws u v := by
  refine ⟨?_, memRead_of_walks hws hr⟩
  rw [exec_eq_finish, he, popOn_of_register hd, pop_of_read hr, act_ok_bind, finish_ok]

/-- An instruction that is a pop on `p` enters the page fault of its read, with nothing written (R253). -/
theorem faultsWith_of_popOn (he : effect i s = popOn p rs s) {n : Word} {c : Byte} (hrs : rs.toNat < 32)
    (hr : memRead s (s.sp p) = .error (.interrupt n c)) : FaultsWith i s [0x00#8, 0x03#8, 0x02#8] n c := by
  obtain ⟨rfl, hc⟩ := memRead_interrupt hr
  refine ⟨rfl, hc, ?_⟩
  rw [exec_eq_finish, he, popOn_of_register (d := ⟨rs.toNat, hrs⟩) rfl, pop_of_stop hr, act_error_bind, finish_interrupt]

/-- A pop into no general register raises `IPF(0x03)` before anything is read (R116, R126). -/
theorem exec_of_popOn_badRegister (he : effect i s = popOn p rs s) (hrs : 32 ≤ rs.toNat) :
    exec i s = enter 2#32 0x03#8 s := by
  rw [exec_eq_finish, he, popOn, gpr_of_ge hrs, act_error_bind, integrityFault, finish_interrupt]

end

/-- Settles O54: `PUSH` is the push on the user stack, and `KPUSH`, past the check of the mode, the one on the kernel
stack; each ends by its write, by the write's page fault, or by the check of its operand. -/
theorem pushesStoreAtTheNewTop : Obligations.PushesStoreAtTheNewTop := by
  intro src s
  have hpush : effect (.push src) s = pushOn .user src s := rfl
  have hkpush : effect (.kpush src) s = requireSupervisor s >>= fun _ => pushOn .kernel src s := rfl
  refine ⟨fun v u ws => exec_of_pushOn_write hpush, fun v n c => faultsWith_of_pushOn hpush,
    fun e => exec_of_pushOn_badOperand hpush, fun hm => ?_, exec_of_user hkpush, regImmValue_forms s, ?_, ?_, ?_, ?_⟩
  · have hkernel := effect_of_supervisor hkpush hm
    exact ⟨fun v u ws => exec_of_pushOn_write hkernel, fun v n c => faultsWith_of_pushOn hkernel,
      fun e => exec_of_pushOn_badOperand hkernel⟩
  · exact decodesOnlyIn_of_operand (f := .push) (fun w hop => by simp only [decode, hop])
      fun w => exists_decodeRegImm_iff (amField w) (riMain w)
  · exact decodesOnlyIn_of_operand (f := .kpush) (fun w hop => by simp only [decode, hop])
      fun w => exists_decodeRegImm_iff (amField w) (riMain w)
  · exact hasOpcode_of_opField (op := 0x1B#6) (Laws.OpcodeBits.push src) (by decide)
  · exact hasOpcode_of_opField (op := 0x1D#6) (Laws.OpcodeBits.kpush src) (by decide)

/-- Settles O55: `POP` is the pop on the user stack, and `KPOP`, past the check of the mode, the one on the kernel stack;
each ends by its read, by the read's page fault, or by the check of its register field, which comes first. -/
theorem popsLoadFromTheTop : Obligations.PopsLoadFromTheTop := by
  intro rs s
  have hpop : effect (.pop rs) s = popOn .user rs s := rfl
  have hkpop : effect (.kpop rs) s = requireSupervisor s >>= fun _ => popOn .kernel rs s := rfl
  refine ⟨fun d v u ws => exec_of_popOn_read hpop, fun n c => faultsWith_of_popOn hpop, exec_of_popOn_badRegister hpop,
    fun hm => ?_, exec_of_user hkpop, ?_, ?_, ?_, ?_⟩
  · have hkernel := effect_of_supervisor hkpop hm
    exact ⟨fun d v u ws => exec_of_popOn_read hkernel, fun n c => faultsWith_of_popOn hkernel,
      exec_of_popOn_badRegister hkernel⟩
  · exact decodesOnlyIn_of_operand (f := .pop) (fun w hop => by simp only [decode, hop])
      fun w => exists_decodeReg_iff (amField w) (riMain w)
  · exact decodesOnlyIn_of_operand (f := .kpop) (fun w hop => by simp only [decode, hop])
      fun w => exists_decodeReg_iff (amField w) (riMain w)
  · exact hasOpcode_of_opField (op := 0x1C#6) (Laws.OpcodeBits.pop rs) (by decide)
  · exact hasOpcode_of_opField (op := 0x1E#6) (Laws.OpcodeBits.kpop rs) (by decide)

end Machine

end Sys2Proof
end

section
/-! SUPPORT. The statement about `INC` and `DEC` (spec/45_inc_dec.md R221, R222): how an instruction that adds a constant to
one register ends, and the constant of each. -/

namespace Sys2Proof.Machine

section
variable {i : Instr} {delta rs : Word} {s : State}

/-- An instruction that adds `delta` to a general register changes that register alone (R220). -/
theorem exec_of_stepReg_register (he : effect i s = stepReg delta rs s) {r : Fin 32} (hr : rs.toNat = r.val) :
    exec i s = .next (s.setReg r (s.reg r + delta)) := by
  rw [exec_eq_finish, he, stepReg, gpr_of_eq hr, act_ok_bind, finish_ok]

/-- An instruction that adds to a number that names no general register raises `IPF(0x03)` (R116, R220). -/
theorem exec_of_stepReg_badRegister (he : effect i s = stepReg delta rs s) (hrs : 32 ≤ rs.toNat) :
    exec i s = enter 2#32 0x03#8 s := by
  rw [exec_eq_finish, he, stepReg, gpr_of_ge hrs, act_error_bind, integrityFault, finish_interrupt]

end

/-- Adding 1 to a word is the successor of its value modulo 2^32 (R221). -/
theorem add_one_eq_ofNat_succ (v : Word) : v + 1#32 = BitVec.ofNat 32 (v.toNat + 1) := by
  rw [BitVec.ofNat_add, BitVec.ofNat_toNat, BitVec.setWidth_eq]

/-- Settles O56: the two add 1 and -1 to their register, past the check of its number, and touch nothing else. -/
theorem incAndDecWrapWithoutFlags : Obligations.IncAndDecWrapWithoutFlags := by
  intro rs s
  have hinc : effect (.inc rs) s = stepReg 1#32 rs s := rfl
  have hdec : effect (.dec rs) s = stepReg (-1#32) rs s := rfl
  refine ⟨fun r hr => ⟨?_, ?_⟩,
    fun hrs => ⟨exec_of_stepReg_badRegister hinc hrs, exec_of_stepReg_badRegister hdec hrs⟩, ?_, ?_, ?_, ?_⟩
  · rw [exec_of_stepReg_register hinc hr, add_one_eq_ofNat_succ, State.setReg]
  · rw [exec_of_stepReg_register hdec hr, ← BitVec.sub_eq_add_neg, State.setReg]
  · exact decodesOnlyIn_of_operand (f := .inc) (fun w hop => by simp only [decode, hop])
      fun w => exists_decodeReg_iff (amField w) (riMain w)
  · exact decodesOnlyIn_of_operand (f := .dec) (fun w hop => by simp only [decode, hop])
      fun w => exists_decodeReg_iff (amField w) (riMain w)
  · exact hasOpcode_of_opField (op := 0x20#6) (Laws.OpcodeBits.inc rs) (by decide)
  · exact hasOpcode_of_opField (op := 0x21#6) (Laws.OpcodeBits.dec rs) (by decide)

end Sys2Proof.Machine
end

section
/-! SUPPORT. The statement about `NOP` (spec/46_system.md R229): a step whose word decodes (R240), what the fetch leaves for
the end of the step, and the trap after an instruction that has no effect (R264). -/

namespace Sys2Proof

/-- The opcode alone makes a word `NOP`, whatever its other bits (R116, R120). -/
theorem decode_of_nop_opcode {w : InstrWord} (hop : opField w = 0x25#6) : decode w = .ok .nop := by
  simp only [decode, hop]
  rfl

/-- `NOP` is its opcode above unused bits 0 (R104, R120). -/
theorem encode_nop : encode .nop = 0x9400000000000000#64 := by decide

namespace Machine

/-! ### A step whose word decodes -/

@[simp] theorem beginStep_intTaken (s : State) : (beginStep s).intTaken = false := rfl

@[simp] theorem beginStep_flag_t (s : State) : (beginStep s).flag .t = s.fr.getLsbD 7 := rfl

/-- A fetch enters no interrupt. -/
theorem memFetch_intTaken {s u : State} {la : Word} {w : InstrWord} (h : memFetch s la = .ok (w, u)) :
    u.intTaken = s.intTaken := by
  obtain ⟨ws, -, ⟨⟨hu, -⟩, -⟩, -⟩ := memFetch_frame h
  rw [hu]

/-- A step on a word that decodes runs its instruction from the fetched state with `I0` moved past the word, and the trap
of T follows (R240). -/
theorem step_of_decoded {s u : State} {w : InstrWord} {i : Instr} (hrun : s.run = .running)
    (hirq : acceptedIrq (presentedIrq s) (beginStep s) = none) (hfetch : memFetch (beginStep s) s.i0 = .ok (w, u))
    (hw : decode w = .ok i) :
    step s = closeStep (trapAfter (s.fr.getLsbD 7) (exec i { u with i0 := s.i0 + 8#32 })) := by
  have hi0 : u.i0 = (beginStep s).i0 := memFetch_i0 hfetch
  rw [step_of_running hrun hirq]
  simp only [fetchExecute, beginStep_i0, hfetch, hw, advance, State.setI0, hi0, beginStep_flag_t]

/-! ### The end of a step that entered no interrupt -/

/-- With T clear nothing follows the instruction (R264). -/
theorem trapAfter_clear (o : Host.Outcome State Fault Refusal) : trapAfter false o = o := by cases o <;> rfl

/-- With T set, `BRK` follows an instruction that entered no interrupt (R264). -/
theorem trapAfter_set {t : State} (h : t.intTaken = false) : trapAfter true (.next t) = enter 4#32 0x00#8 t := by
  simp [trapAfter, h]

/-- A step that has entered no interrupt ends as it stands. -/
theorem closeStep_next {t : State} (h : t.intTaken = false) : closeStep (.next t) = .next t := by
  rw [closeStep, State.setIntTaken, ← h]

/-! ### `NOP` -/

/-- `NOP` has no effect (R229). -/
theorem exec_nop (s : State) : exec .nop s = .next s := by rw [exec_eq_finish, effect, finish_ok]

/-- Settles O57: the opcode decodes to `NOP`, which hands on the fetched state; no interrupt has been entered in it, so the
step ends there or in the trap of T. -/
theorem nopDoesNothing : Obligations.NopDoesNothing := by
  refine ⟨encode_nop, exec_nop, fun s u w hrun hirq hfetch hop => ?_⟩
  have hstep := step_of_decoded hrun hirq hfetch (decode_of_nop_opcode hop)
  rw [exec_nop] at hstep
  have hmoved : { u with i0 := s.i0 + 8#32 }.intTaken = false :=
    (memFetch_intTaken hfetch).trans (beginStep_intTaken s)
  refine ⟨fun hclear => ?_, fun hset => ?_⟩
  · rw [hstep, hclear, trapAfter_clear, closeStep_next hmoved]
  · rw [hstep, hset, trapAfter_set hmoved]

end Machine

end Sys2Proof
end

section
/-! SUPPORT. What every step keeps (spec/60_exceptions.md R240 to R264): the states a step passes through before its end, which
instruction may write which flag and the mode, and the statements about the data invariant, the mode, the flags and user
mode that follow from them. -/

namespace Sys2Proof.Machine

/-! ### What an entry leaves -/

section
variable {n : Word} {code : Byte} {s t : State}

/-- Entry leaves its mark (R250). -/
theorem enter_intTaken (h : enter n code s = .next t) : t.intTaken = true := by
  rw [enter_spec h]
  rfl

/-- Entry writes no byte of memory (R250). -/
theorem enter_mem (h : enter n code s = .next t) : t.mem = s.mem := by
  rw [enter_spec h]
  rfl

/-- Entry leaves the installed platform as it is. -/
theorem enter_absent (h : enter n code s = .next t) : t.plat.absent = s.plat.absent := by
  rw [enter_spec h]

/-- Entry gives control to supervisor mode (R250). -/
theorem enter_msr (h : enter n code s = .next t) : t.msr = 0x80000000#32 := by
  rw [enter_spec h]
  rfl

/-- Entry clears every flag (R250). -/
theorem enter_fr (h : enter n code s = .next t) : t.fr = 0x00#8 := by
  rw [enter_spec h]
  rfl

/-- Entry saves `FR` in `IE3` (R250). -/
theorem enter_ie3 (h : enter n code s = .next t) : t.ie3 = s.fr := by
  rw [enter_spec h]
  rfl

/-- Entry saves `MSR` in `IE4` (R250). -/
theorem enter_ie4 (h : enter n code s = .next t) : t.ie4 = s.msr := by
  rw [enter_spec h]
  rfl

/-- The mode entry gives control to is supervisor mode. -/
theorem enter_mode (h : enter n code s = .next t) : t.mode = .supervisor := by
  simp [State.mode, enter_msr h]

end

/-! ### The states a step passes through -/

/-- A state of the step from `s` that an interrupt of the step may be entered from, or that the step may end in: at its
boundary, after its fetch, and after the instruction's own effect (R240). -/
inductive Reached (s : State) : State → Prop
  | boundary : Reached s (beginStep s)
  | fetched {w : InstrWord} {u : State} (hrun : s.run = .running)
      (hirq : acceptedIrq (presentedIrq s) (beginStep s) = none) (hfetch : memFetch (beginStep s) s.i0 = .ok (w, u)) :
      Reached s (advance u)
  | completed {w : InstrWord} {u v : State} {i : Instr} (hrun : s.run = .running)
      (hirq : acceptedIrq (presentedIrq s) (beginStep s) = none) (hfetch : memFetch (beginStep s) s.i0 = .ok (w, u))
      (hdecode : decode w = .ok i) (heffect : effect i (advance u) = .ok v) : Reached s v

/-- What fetching and executing can do, down to the effect: it ends in a state the step reaches, or in an entry from one. -/
theorem fetchExecute_reached {s t : State} (hrun : s.run = .running)
    (hirq : acceptedIrq (presentedIrq s) (beginStep s) = none) (h : fetchExecute exec (beginStep s) = .next t) :
    Reached s t ∨ ∃ n c v, Reached s v ∧ enter n c v = .next t := by
  rcases fetchExecute_cases h with ⟨e, -, he⟩ | ⟨w, u, e, hfetch, -, he⟩ | ⟨w, u, i, hfetch, hdecode, ht⟩
  · rcases finish_eq_next.1 he with hok | ⟨n, c, -, henter⟩
    · cases hok
    · exact .inr ⟨n, c, _, .boundary, henter⟩
  · exact .inr ⟨_, _, _, .fetched hrun hirq hfetch, he⟩
  · obtain ⟨x, hx, htrap⟩ := trapAfter_eq_next.1 ht
    rcases exec_cases hx with heffect | ⟨n, c, -, henter⟩
    · have hreached : Reached s x := .completed hrun hirq hfetch hdecode heffect
      rcases htrap with ⟨-, -, hbrk⟩ | ⟨-, rfl⟩
      · exact .inr ⟨_, _, x, hreached, hbrk⟩
      · exact .inl hreached
    · rcases htrap with ⟨-, hclear, -⟩ | ⟨-, rfl⟩
      · rw [enter_intTaken henter] at hclear
        cases hclear
      · exact .inr ⟨n, c, _, .fetched hrun hirq hfetch, henter⟩

/-- What a step can do: it ends in a state it reached, or in the entry of an interrupt from one (R240). -/
theorem step_reached {s t : State} (h : step s = .next t) :
    (∃ v, Reached s v ∧ t = v.setIntTaken false) ∨ ∃ n c v, Reached s v ∧ step s = closeStep (enter n c v) := by
  rcases step_cases h with ⟨-, rfl⟩ | ⟨-, n, u, -, hu, rfl⟩ | ⟨hrun, hirq, u, hu, rfl⟩
  · exact .inl ⟨_, .boundary, rfl⟩
  · exact .inr ⟨n, _, _, .boundary, by rw [h, hu, closeStep]⟩
  · rcases fetchExecute_reached hrun hirq hu with hv | ⟨n, c, v, hv, he⟩
    · exact .inl ⟨u, hv, rfl⟩
    · exact .inr ⟨n, c, v, hv, by rw [h, he, closeStep]⟩

/-! ### The data invariant -/

/-- What a step reaches has its memory in the canonical form (log 14). -/
theorem Reached.mem_wf {s v : State} (h : Reached s v) (hwf : s.mem.wf = true) : v.mem.wf = true := by
  have fetch_wf {w u} (hfetch : memFetch (beginStep s) s.i0 = .ok (w, u)) : (advance u).mem.wf = true := by
    obtain ⟨ws, -, -, hkeep⟩ := memFetch_frame hfetch
    exact hkeep hwf
  cases h with
  | boundary => exact hwf
  | fetched _ _ hfetch => exact fetch_wf hfetch
  | completed _ _ hfetch _ heffect =>
    obtain ⟨hkeep, -⟩ := effect_frame heffect
    exact hkeep (fetch_wf hfetch)

/-- Settles O12: memory stays canonical in every state the step reaches, entry writes none of it, and the end of the step
clears the trace of an entry. -/
theorem everyStepKeepsTheDataInvariant : Obligations.EveryStepKeepsTheDataInvariant := by
  rintro s t ⟨hwf, -⟩ h
  rcases step_reached h with ⟨v, hv, rfl⟩ | ⟨n, c, v, hv, hstep⟩
  · exact ⟨hv.mem_wf hwf, rfl⟩
  · obtain ⟨x, hx, rfl⟩ := closeStep_eq_next.1 (hstep.symm.trans h)
    refine ⟨?_, rfl⟩
    rw [State.setIntTaken_mem, enter_mem hx]
    exact hv.mem_wf hwf

/-- Settles O13: every field of the reset state is a numeral. -/
theorem resetIsWellFormedWithDefaults : Obligations.ResetIsWellFormedWithDefaults :=
  ⟨⟨rfl, rfl⟩, rfl, rfl, rfl, by decide⟩

/-! ### Special registers by number -/

/-- Only 0x23 names `FR` (R22). -/
theorem eq_of_specialOfNumber_fr {n : Nat} (h : specialOfNumber n = some .fr) : n = 0x23 := by
  unfold specialOfNumber at h
  split at h <;> simp_all [Config.ie4Regnum]

/-- Only 0x2C names `MSR` (R22). -/
theorem eq_of_specialOfNumber_msr {n : Nat} (h : specialOfNumber n = some .msr) : n = 0x2C := by
  unfold specialOfNumber at h
  split at h <;> simp_all [Config.ie4Regnum]

/-- A write to another special register leaves `FR` alone. -/
theorem writeSpecial_fr {s t : State} {r : SpecialReg} {v : Word} (h : writeSpecial s r v = some t) (hr : r ≠ .fr) :
    t.fr = s.fr := by
  cases r <;> simp_all [writeSpecial] <;> subst h <;> rfl

/-- A write to another special register leaves `MSR` alone. -/
theorem writeSpecial_msr {s t : State} {r : SpecialReg} {v : Word} (h : writeSpecial s r v = some t) (hr : r ≠ .msr) :
    t.msr = s.msr := by
  cases r <;> simp_all [writeSpecial] <;> subst h <;> rfl

/-- User mode may write `S0` alone (R42, R173). -/
theorem eq_s0_of_userWriteFault {r : SpecialReg} (h : userWriteFault r = none) : r = .s0 := by
  cases r <;> simp_all [userWriteFault]

end Sys2Proof.Machine
end

section
/-! SUPPORT. Which instruction may write which flag (spec/10_state.md R31, R32) and the mode (R40, R280), what user mode keeps
(R283), and the three statements about a whole step that follow: the mode, the flags and the system state of user mode. -/

namespace Sys2Proof.Machine

/-! ### The flags of an operation (R31) -/

/-- The operation leaves every flag outside the list as it is. -/
def WritesOnly (op : Word → Word → Byte → Byte) (flags : List Flag) : Prop :=
  ∀ (a b : Word) (fr : Byte) (f : Flag), f ∉ flags → getFlag (op a b fr) f = getFlag fr f

theorem addOp_writesOnly : WritesOnly (fun a b fr => (addOp a b fr).2) [.c, .z, .s, .v] := by
  intro a b fr f hf
  simp_all [addOp, getFlag_putFlag]

theorem subOp_writesOnly : WritesOnly (fun a b fr => (subOp a b fr).2) [.z, .s, .v] := by
  intro a b fr f hf
  simp_all [subOp, getFlag_putFlag]

theorem mulOp_writesOnly : WritesOnly (fun a b fr => (mulOp a b fr).2) [.c, .z, .s, .v] := by
  intro a b fr f hf
  simp_all [mulOp, getFlag_putFlag]

theorem divOp_writesOnly : WritesOnly (fun a b fr => (divOp a b fr).2) [.z, .s, .e] := by
  intro a b fr f hf
  by_cases hb : b = 0#32 <;> simp_all [divOp, getFlag_putFlag]

theorem andOp_writesOnly : WritesOnly (fun a b fr => (andOp a b fr).2) [.z] := by
  intro a b fr f hf
  simp_all [andOp]

theorem orOp_writesOnly : WritesOnly (fun a b fr => (orOp a b fr).2) [.z] := by
  intro a b fr f hf
  simp_all [orOp]

theorem xorOp_writesOnly : WritesOnly (fun a b fr => (xorOp a b fr).2) [.z] := by
  intro a b fr f hf
  simp_all [xorOp]

theorem lslOp_writesOnly : WritesOnly (fun a b fr => (lslOp a b fr).2) [.c, .z] := by
  intro a b fr f hf
  unfold lslOp
  dsimp only
  split
  · simp_all
  · split <;> simp_all [getFlag_putFlag]

theorem lsrOp_writesOnly : WritesOnly (fun a b fr => (lsrOp a b fr).2) [.c, .z] := by
  intro a b fr f hf
  unfold lsrOp
  dsimp only
  split
  · simp_all
  · split <;> simp_all [getFlag_putFlag]

theorem cmpFlags_writesOnly : WritesOnly cmpFlags [.c, .z, .s, .e] := by
  intro a b fr f hf
  unfold cmpFlags
  dsimp only
  split
  · simp_all [getFlag_putFlag]
  · split <;> simp_all [getFlag_putFlag]

theorem movOp_writesOnly : WritesOnly (fun a b fr => (movOp a b fr).2) [.z, .s] := by
  intro a b fr f hf
  simp_all [movOp]

section
variable {rd : BitVec 8} {src : Source} {s t : State} {flags : List Flag} {f : Flag}

/-- The template of R140 writes the flags of its operation. -/
theorem arith_flag {op : Word → Word → Byte → Word × Byte} (hop : WritesOnly (fun a b fr => (op a b fr).2) flags)
    (h : arith op rd src s = .ok t) (hf : f ∉ flags) : t.flag f = s.flag f := by
  obtain ⟨d, b, u, -, -, rfl⟩ := arith_spec h
  exact hop _ _ _ f hf

/-- `CMP` writes the flags of its operation. -/
theorem compare_flag {op : Word → Word → Byte → Byte} (hop : WritesOnly op flags) (h : compare op rd src s = .ok t)
    (hf : f ∉ flags) : t.flag f = s.flag f := by
  obtain ⟨d, b, u, -, -, rfl⟩ := compare_spec h
  exact hop _ _ _ f hf

end

/-- A flag reads the same where `FR` is the same. -/
theorem State.flag_congr {s t : State} (h : t.fr = s.fr) (f : Flag) : t.flag f = s.flag f := by
  rw [State.flag, State.flag, h]

/-- An instruction's own effect writes no flag its row does not list (R31). -/
theorem effect_flag {i : Instr} {s t : State} {f : Flag} (h : effect i s = .ok t) (hf : f ∉ listedFlags i) :
    t.flag f = s.flag f := by
  obtain ⟨-, -, -, hframe⟩ := effect_frame h
  cases i
  case add => exact arith_flag addOp_writesOnly h hf
  case sub => exact arith_flag subOp_writesOnly h hf
  case mul => exact arith_flag mulOp_writesOnly h hf
  case div => exact arith_flag divOp_writesOnly h hf
  case and => exact arith_flag andOp_writesOnly h hf
  case or => exact arith_flag orOp_writesOnly h hf
  case xor => exact arith_flag xorOp_writesOnly h hf
  case lsl => exact arith_flag lslOp_writesOnly h hf
  case lsr => exact arith_flag lsrOp_writesOnly h hf
  case cmp => exact compare_flag cmpFlags_writesOnly h hf
  case mov => exact arith_flag movOp_writesOnly h hf
  case ldr =>
    simp only [effect, act_bind_eq_ok] at h
    obtain ⟨d, -, a, -, r, -, h⟩ := h
    cases h
    exact movOp_writesOnly 0#32 r.1 s.fr f hf
  case mts rd rs =>
    obtain ⟨r, g, hr, -, hwrite, -⟩ := hframe
    refine State.flag_congr (writeSpecial_fr hwrite fun hfr => hf ?_) f
    have hrd : rd = 0x23#8 := BitVec.eq_of_toNat_eq (eq_of_specialOfNumber_fr (hfr ▸ hr))
    cases f <;> simp [listedFlags, hrd]
  case iret => cases f <;> simp [listedFlags] at hf
  case kcall | kpush | kpop | kret =>
    rw [hframe.2]
    rfl
  case hlt =>
    rw [hframe]
    rfl
  all_goals
    rw [hframe]
    rfl

/-! ### The mode (R280) -/

/-- An instruction's own effect writes `MSR` only by `IRET` and by `MTS` to it (R33, R40). -/
theorem effect_msr {i : Instr} {s t : State} (h : effect i s = .ok t) :
    t.msr = s.msr ∨ (i = .iret ∧ s.mode = .supervisor ∧ t.msr = s.ie4) ∨
      ∃ (rs : Word) (r : Fin 32), i = .mts 0x2C#8 rs ∧ s.mode = .supervisor ∧ rs.toNat = r.val ∧ t.msr = s.reg r := by
  obtain ⟨-, -, -, hframe⟩ := effect_frame h
  cases i
  case mts rd rs =>
    obtain ⟨r, g, hr, hg, hwrite, huser⟩ := hframe
    by_cases hmsr : r = .msr
    · subst hmsr
      have hrd : rd = 0x2C#8 := BitVec.eq_of_toNat_eq (eq_of_specialOfNumber_msr hr)
      have hsup : s.mode = .supervisor := by
        cases hm : s.mode with
        | supervisor => rfl
        | user => cases huser hm
      cases hwrite
      exact .inr (.inr ⟨rs, g, by rw [hrd], hsup, hg, rfl⟩)
    · exact .inl (writeSpecial_msr hwrite hmsr)
  case iret =>
    obtain ⟨hsup, rfl⟩ := hframe
    exact .inr (.inl ⟨rfl, hsup, rfl⟩)
  case kcall | kpush | kpop | kret => exact .inl (by rw [hframe.2])
  case hlt => exact .inl (by rw [hframe, State.setRun_msr])
  all_goals exact .inl (by rw [hframe])

/-- In user mode no instruction's own effect writes `MSR` (R42, R283). -/
theorem effect_msr_of_user {i : Instr} {s t : State} (h : effect i s = .ok t) (hm : s.mode = .user) : t.msr = s.msr := by
  rcases effect_msr h with hmsr | ⟨-, hsup, -⟩ | ⟨-, -, -, hsup, -⟩
  · exact hmsr
  · rw [hm] at hsup
    cases hsup
  · rw [hm] at hsup
    cases hsup

/-- User mode is bit 31 of `MSR` clear (R40). -/
theorem mode_eq_user_iff {s : State} : s.mode = .user ↔ s.msr.getLsbD 31 = false := by
  unfold State.mode
  cases s.msr.getLsbD 31 <;> simp

/-- Supervisor mode is bit 31 of `MSR` set (R40). -/
theorem mode_eq_supervisor_iff {s : State} : s.mode = .supervisor ↔ s.msr.getLsbD 31 = true := by
  unfold State.mode
  cases s.msr.getLsbD 31 <;> simp

/-- An instruction's own effect leaves supervisor mode only by `IRET` of a user `IE4` and by `MTS` of a user value to
`MSR` (R280). -/
theorem effect_to_user {i : Instr} {s t : State} (h : effect i s = .ok t) (hs : s.mode = .supervisor)
    (ht : t.mode = .user) :
    (i = .iret ∧ s.ie4.getLsbD 31 = false) ∨
      ∃ (rs : Word) (r : Fin 32), i = .mts 0x2C#8 rs ∧ rs.toNat = r.val ∧ (s.reg r).getLsbD 31 = false := by
  rw [mode_eq_user_iff] at ht
  rcases effect_msr h with hmsr | ⟨hi, -, hmsr⟩ | ⟨rs, r, hi, -, hr, hmsr⟩
  · rw [hmsr, mode_eq_supervisor_iff.1 hs] at ht
    cases ht
  · exact .inl ⟨hi, hmsr ▸ ht⟩
  · exact .inr ⟨rs, r, hi, hr, hmsr ▸ ht⟩

/-- A step that ends in an entry has the defaults of `FR` and `MSR`, with those before it saved (R250). -/
theorem closeStep_enter {n : Word} {c : Byte} {v t : State} (h : closeStep (enter n c v) = .next t) :
    t.fr = 0x00#8 ∧ t.msr = 0x80000000#32 ∧ t.ie3 = v.fr ∧ t.ie4 = v.msr := by
  obtain ⟨x, hx, rfl⟩ := closeStep_eq_next.1 h
  exact ⟨enter_fr (t := x) hx, enter_msr (t := x) hx, enter_ie3 (t := x) hx, enter_ie4 (t := x) hx⟩

/-! ### What the fetch and the advance of `I0` keep -/

/-- After the fetch and the advance, only memory, the platform's records and `I0` differ from the boundary's state. -/
theorem advance_of_memFetch {s u : State} {w : InstrWord} (h : memFetch (beginStep s) s.i0 = .ok (w, u)) :
    advance u = { s with i0 := s.i0 + 8#32, mem := u.mem, plat := u.plat, intTaken := false } := by
  obtain ⟨ws, -, ⟨⟨hu, -⟩, -⟩, -⟩ := memFetch_frame h
  rw [hu]
  rfl

/-! ### User mode (R283) -/

theorem SameSystemState.refl (s : State) : SameSystemState s s :=
  ⟨rfl, rfl, rfl, rfl, rfl, rfl, rfl, rfl, rfl, rfl, fun _ _ => rfl⟩

/-- No instruction of user mode changes the system state by its own effect (R42, R283). -/
theorem effect_sameSystemState {i : Instr} {s t : State} (h : effect i s = .ok t) (hm : s.mode = .user) :
    SameSystemState s t := by
  have hflag : ∀ f ∈ [Flag.i, .g, .t], f ∉ listedFlags i → t.flag f = s.flag f := fun f _ => effect_flag h
  obtain ⟨-, -, -, hframe⟩ := effect_frame h
  cases i
  case add | sub | mul | div | and | or | xor | lsl | lsr | cmp | mov | ldr =>
    have hhigh : ∀ f ∈ [Flag.i, .g, .t], t.flag f = s.flag f := fun f hf =>
      hflag f hf (by fin_cases hf <;> simp [listedFlags])
    rw [hframe] at hhigh ⊢
    exact ⟨rfl, rfl, rfl, rfl, rfl, rfl, rfl, rfl, rfl, rfl, hhigh⟩
  case mts =>
    obtain ⟨r, g, -, -, hwrite, huser⟩ := hframe
    rw [eq_s0_of_userWriteFault (huser hm)] at hwrite
    cases hwrite
    exact SameSystemState.refl s
  case iret | kcall | kpush | kpop | kret =>
    have hsup := hframe.1
    rw [hm] at hsup
    cases hsup
  case hlt =>
    rw [hframe]
    exact SameSystemState.refl s
  all_goals
    rw [hframe]
    exact SameSystemState.refl s

/-- What a step from user mode reaches has the system state of its start. -/
theorem Reached.sameSystemState {s v : State} (h : Reached s v) (hm : s.mode = .user) : SameSystemState s v := by
  cases h with
  | boundary => exact SameSystemState.refl s
  | fetched _ _ hfetch =>
    rw [advance_of_memFetch hfetch]
    exact SameSystemState.refl s
  | completed _ _ hfetch _ heffect =>
    rw [advance_of_memFetch hfetch] at heffect
    have hkept := effect_sameSystemState heffect hm
    exact hkept

/-- Settles O15: what the step reaches has the system state of its start, and an entry from there saves it. -/
theorem userModeKeepsSystemState : Obligations.UserModeKeepsSystemState := by
  intro s t hm h
  rcases step_reached h with ⟨v, hv, rfl⟩ | ⟨n, c, v, hv, hstep⟩
  · exact .inl (hv.sameSystemState hm)
  · obtain ⟨x, hx, rfl⟩ := closeStep_eq_next.1 (hstep.symm.trans h)
    obtain ⟨hmsr, hs1, hivtr, htpdr, htsp, -, -, -, -, -, hflags⟩ := hv.sameSystemState hm
    right
    rw [enter_spec hx]
    exact ⟨rfl, rfl, hs1, hivtr, htpdr, htsp, hmsr, rfl, hflags⟩

/-- Settles O16: an effect lowers the mode only by `IRET` and `MTS` and never raises it, and an entry only raises it; of the
states a step reaches, only the completed one can be in another mode than the start. -/
theorem modeChangesOnlyByEntryIretOrMts : Obligations.ModeChangesOnlyByEntryIretOrMts := by
  refine ⟨fun i s t h0 h => ?_, fun s t h => ⟨fun hs ht => ?_, fun hs ht => ?_⟩⟩
  · rcases exec_cases h with heffect | ⟨n, c, -, henter⟩
    · refine ⟨fun hs ht => ?_, effect_to_user heffect⟩
      rw [State.mode_congr (effect_msr_of_user heffect hs), hs] at ht
      cases ht
    · refine ⟨fun _ _ => ⟨enter_intTaken henter, enter_msr henter⟩, fun _ ht => ?_⟩
      rw [enter_mode henter] at ht
      cases ht
  · rcases step_reached h with ⟨v, hv, rfl⟩ | ⟨n, c, v, hv, hstep⟩
    · have hmode : v.mode = s.mode := State.mode_congr (hv.sameSystemState hs).1
      cases hs.symm.trans (hmode.symm.trans ht)
    · obtain ⟨hfr, hmsr, -, hie4⟩ := closeStep_enter (hstep.symm.trans h)
      have hkept : v.msr = s.msr := (hv.sameSystemState hs).1
      exact ⟨hie4.trans hkept, hfr, hmsr, n, c, v, (State.mode_congr hkept).trans hs, hstep⟩
  · rcases step_reached h with ⟨v, hv, rfl⟩ | ⟨n, c, v, hv, hstep⟩
    · have hmode : v.mode = .user := ht
      cases hv with
      | boundary => cases hs.symm.trans hmode
      | fetched _ _ hfetch =>
        rw [advance_of_memFetch hfetch] at hmode
        cases hs.symm.trans hmode
      | completed hrun hirq hfetch hdecode heffect =>
        rw [advance_of_memFetch hfetch] at heffect
        refine ⟨hrun, hirq, _, _, hfetch, ?_⟩
        rcases effect_to_user heffect hs hmode with ⟨rfl, hie4⟩ | ⟨rs, r, rfl, hr, hreg⟩
        · exact .inl ⟨hdecode, hie4⟩
        · exact .inr ⟨rs, r, hdecode, hr, hreg⟩
    · obtain ⟨-, hmsr, -, -⟩ := closeStep_enter (hstep.symm.trans h)
      rw [mode_eq_user_iff, hmsr] at ht
      cases ht

/-- What a step reaches has every flag of its start that no instruction of the step lists. -/
theorem Reached.flag {s v : State} {f : Flag} (h : Reached s v)
    (hf : ∀ (w : InstrWord) (u : State) (i : Instr), s.run = .running →
      acceptedIrq (presentedIrq s) (beginStep s) = none → memFetch (beginStep s) s.i0 = .ok (w, u) → decode w = .ok i →
      f ∉ listedFlags i) : v.flag f = s.flag f := by
  cases h with
  | boundary => rfl
  | fetched _ _ hfetch =>
    rw [advance_of_memFetch hfetch]
    rfl
  | completed hrun hirq hfetch hdecode heffect =>
    rw [effect_flag heffect (hf _ _ _ hrun hirq hfetch hdecode), advance_of_memFetch hfetch]
    rfl

/-- Settles O17: an effect writes the flags its row lists, so what the step reaches has the others as they were, and an entry
from there saves them in `IE3`. -/
theorem flagsChangeOnlyAsListed : Obligations.FlagsChangeOnlyAsListed := by
  refine ⟨fun i s t f h0 h ht hne => ?_, fun s t f h hf => ?_⟩
  · rcases exec_cases_intTaken h h0 with ⟨-, heffect⟩ | ⟨htaken, -⟩
    · by_contra hlisted
      exact hne (effect_flag heffect hlisted)
    · rw [ht] at htaken
      cases htaken
  · rcases step_reached h with ⟨v, hv, rfl⟩ | ⟨n, c, v, hv, hstep⟩
    · exact .inl (hv.flag hf)
    · obtain ⟨hfr, hmsr, hie3, -⟩ := closeStep_enter (hstep.symm.trans h)
      exact .inr ⟨hfr, hmsr, by rw [hie3]; exact hv.flag hf, n, c, v, hstep⟩

end Sys2Proof.Machine
end

section
/-! SUPPORT. Where the model stops (spec/20_memory.md R70, decision D40): on a platform whose whole space is present nothing does,
so that no run stops; and an access that touches an absent address stops its instruction or step. -/

namespace Sys2Proof.Machine

/-! ### A part of an instruction that does not stop -/

/-- The part answers or raises an interrupt: the model does not stop in it. -/
def GoesOn {α : Type} (x : Act α) : Prop := ∀ f, x ≠ .error (.fault f)

theorem GoesOn.ok {α : Type} (a : α) : GoesOn (.ok a : Act α) := fun _ h => by cases h

theorem GoesOn.interrupt {α : Type} (n : Word) (c : Byte) : GoesOn (.error (.interrupt n c) : Act α) :=
  fun _ h => by cases h

/-- A sequence of parts that go on goes on. -/
theorem GoesOn.bind {α β : Type} {x : Act α} {f : α → Act β} (hx : GoesOn x) (hf : ∀ a, x = .ok a → GoesOn (f a)) :
    GoesOn (x >>= f) := by
  intro e he
  rcases act_bind_eq_error.1 he with h | ⟨a, ha, h⟩
  · exact hx e h
  · exact hf a ha e h

theorem gpr_goesOn (n : Nat) : GoesOn (gpr n) := by
  intro f h
  cases (gpr_eq_error.1 h).2

theorem requireSupervisor_goesOn (s : State) : GoesOn (requireSupervisor s) := by
  unfold requireSupervisor
  cases s.mode with
  | supervisor => exact .ok ()
  | user => exact .interrupt _ _

theorem requirePort_goesOn (s : State) (port : Word) : GoesOn (requirePort s port) := by
  unfold requirePort
  split
  · exact .ok ()
  · exact .interrupt _ _

theorem targetValue_goesOn (s : State) (tgt : Target) : GoesOn (targetValue s tgt) := by
  intro f h
  cases targetValue_error h

theorem regImmValue_goesOn (s : State) (src : RegImm) : GoesOn (regImmValue s src) := by
  intro f h
  cases regImmValue_error h

theorem readForZext_goesOn (s : State) (n : Nat) : GoesOn (readForZext s n) := by
  unfold readForZext
  split
  · exact .interrupt _ _
  · split
    · exact .interrupt _ _
    · split
      · exact .interrupt _ _
      · exact .ok _

theorem readForMfs_goesOn (s : State) (n : Nat) : GoesOn (readForMfs s n) := by
  unfold readForMfs
  split
  · exact .interrupt _ _
  · split
    · exact .interrupt _ _
    · split
      · exact .interrupt _ _
      · exact .ok _

theorem moveToSpecial_goesOn (s : State) (rd rs : Nat) : GoesOn (moveToSpecial s rd rs) := by
  unfold moveToSpecial
  split
  · exact .interrupt _ _
  · refine .bind (gpr_goesOn rs) fun g _ => ?_
    split
    · exact .interrupt _ _
    · split
      · exact .interrupt _ _
      · exact .ok _

/-! ### A platform without absent addresses -/

section
variable {s : State}

theorem regionOf_of_allPresent {p : Platform} (h : p.AllPresent) (pa : Word) : regionOf p pa ≠ .absent := by
  have hnone : inRanges p.absent pa.toNat = false := by rw [h, inRanges, List.any_nil]
  unfold regionOf
  cases inRanges p.devices pa.toNat <;> simp [hnone]

theorem entryRegion_of_allPresent {p : Platform} (h : p.AllPresent) (pa : Word) : entryRegion p pa ≠ .absent := by
  have hbyte : ∀ a, Region.absent ≠ regionOf p a := fun a => (regionOf_of_allPresent h a).symm
  simp only [entryRegion, List.contains_iff_mem, List.mem_cons, List.not_mem_nil, or_false, hbyte, if_false]
  split <;> simp

theorem readEntry_goesOn (h : s.plat.AllPresent) (pa : Word) : GoesOn (readEntry s pa) := by
  unfold readEntry
  split
  · rename_i habsent
    exact (entryRegion_of_allPresent h pa habsent).elim
  · exact .ok _
  · exact .ok _

theorem translate_goesOn (h : s.plat.AllPresent) (kind : AccessKind) (la : Word) : GoesOn (translate s kind la) := by
  unfold translate
  split
  · refine .bind (readEntry_goesOn h _) fun pde _ => .bind (readEntry_goesOn h _) fun pte _ => ?_
    split
    · exact .interrupt _ _
    · exact .ok _
  · exact .ok _

theorem translateFrom_goesOn (h : s.plat.AllPresent) (kind : AccessKind) (la : Word) (n : Nat) :
    GoesOn (translateFrom s kind la n) := by
  induction n generalizing la with
  | zero => exact .ok _
  | succ n ih => exact .bind (translate_goesOn h kind la) fun w _ => .bind (ih _) fun ws _ => .ok _

theorem readBytes_goesOn (h : s.plat.AllPresent) (kind : AccessKind) (la : Word) (n : Nat) :
    GoesOn (readBytes s kind la n) := by
  refine .bind (translateFrom_goesOn h kind la n) fun ws _ => ?_
  obtain ⟨r, hr⟩ := readWalks_present (ws := ws) (s := markUsed ws s) fun w _ => by
    rw [regionOf_congr (markUsed_spec ws s).1.1.2]
    exact regionOf_of_allPresent h w.pa
  rw [hr]
  exact .ok r

theorem memRead_goesOn (h : s.plat.AllPresent) (la : Word) : GoesOn (memRead s la) :=
  .bind (readBytes_goesOn h _ _ _) fun _ _ => .ok _

theorem memFetch_goesOn (h : s.plat.AllPresent) (la : Word) : GoesOn (memFetch s la) :=
  .bind (readBytes_goesOn h _ _ _) fun _ _ => .ok _

theorem memWrite_goesOn (h : s.plat.AllPresent) (la v : Word) : GoesOn (memWrite s la v) := by
  intro f hf
  cases hws : translateFrom s .write la 4 with
  | error e =>
    have he : memWrite s la v = .error e := by rw [memWrite, hws, act_error_bind]
    rw [he] at hf
    cases hf
    exact translateFrom_goesOn h _ _ _ _ hws
  | ok ws =>
    obtain ⟨t, ht⟩ := memWrite_present (v := v) hws fun w _ => regionOf_of_allPresent h w.pa
    rw [ht] at hf
    cases hf

theorem push_goesOn (h : s.plat.AllPresent) (p : StackPtr) (v : Word) : GoesOn (push s p v) :=
  .bind (memWrite_goesOn h _ _) fun _ _ => .ok _

theorem pop_goesOn (h : s.plat.AllPresent) (p : StackPtr) : GoesOn (pop s p) :=
  .bind (memRead_goesOn h _) fun _ _ => .ok _

theorem sourceValue_goesOn (h : s.plat.AllPresent) (src : Source) : GoesOn (sourceValue s src) := by
  cases src with
  | reg rs => exact .bind (gpr_goesOn _) fun _ _ => .ok _
  | imm i => exact .ok _
  | addr i => exact memRead_goesOn h i

theorem arith_goesOn (h : s.plat.AllPresent) (op : Word → Word → Byte → Word × Byte) (rd : BitVec 8) (src : Source) :
    GoesOn (arith op rd src s) :=
  .bind (gpr_goesOn _) fun _ _ => .bind (sourceValue_goesOn h src) fun _ _ => .ok _

theorem branchIf_goesOn (cond : Bool) (tgt : Target) : GoesOn (branchIf cond tgt s) :=
  .bind (targetValue_goesOn s tgt) fun _ _ => .ok _

theorem callOn_goesOn (h : s.plat.AllPresent) (p : StackPtr) (tgt : Target) : GoesOn (callOn p tgt s) :=
  .bind (targetValue_goesOn s tgt) fun _ _ => .bind (push_goesOn h _ _) fun _ _ => .ok _

theorem returnOn_goesOn (h : s.plat.AllPresent) (p : StackPtr) : GoesOn (returnOn p s) :=
  .bind (pop_goesOn h p) fun _ _ => .ok _

theorem pushOn_goesOn (h : s.plat.AllPresent) (p : StackPtr) (src : RegImm) : GoesOn (pushOn p src s) :=
  .bind (regImmValue_goesOn s src) fun _ _ => push_goesOn h _ _

theorem popOn_goesOn (h : s.plat.AllPresent) (p : StackPtr) (rs : Word) : GoesOn (popOn p rs s) :=
  .bind (gpr_goesOn _) fun _ _ => .bind (pop_goesOn h p) fun _ _ => .ok _

theorem stepReg_goesOn (delta rs : Word) : GoesOn (stepReg delta rs s) := .bind (gpr_goesOn _) fun _ _ => .ok _

/-- Every instruction's own effect goes on: it is made, or it raises an interrupt. -/
theorem effect_goesOn (h : s.plat.AllPresent) (i : Instr) : GoesOn (effect i s) := by
  have gated {act : Act State} (hact : GoesOn act) : GoesOn (requireSupervisor s >>= fun _ => act) :=
    .bind (requireSupervisor_goesOn s) fun _ _ => hact
  cases i
  case add | sub | mul | div | and | or | xor | lsl | lsr | mov => exact arith_goesOn h _ _ _
  case cmp => exact .bind (gpr_goesOn _) fun _ _ => .bind (sourceValue_goesOn h _) fun _ _ => .ok _
  case zext => exact .bind (gpr_goesOn _) fun _ _ => .bind (readForZext_goesOn _ _) fun _ _ => .ok _
  case mfs => exact .bind (gpr_goesOn _) fun _ _ => .bind (readForMfs_goesOn _ _) fun _ _ => .ok _
  case mts => exact moveToSpecial_goesOn _ _ _
  case ldr =>
    exact .bind (gpr_goesOn _) fun _ _ => .bind (targetValue_goesOn s _) fun _ _ => .bind (memRead_goesOn h _) fun _ _ => .ok _
  case str =>
    exact .bind (gpr_goesOn _) fun _ _ => .bind (targetValue_goesOn s _) fun _ _ => memWrite_goesOn h _ _
  case jmp | beq | bne | bz | bnz | bg | bl => exact branchIf_goesOn _ _
  case jar => exact .bind (targetValue_goesOn s _) fun _ _ => .ok _
  case call => exact callOn_goesOn h _ _
  case kcall => exact gated (callOn_goesOn h _ _)
  case push => exact pushOn_goesOn h _ _
  case kpush => exact gated (pushOn_goesOn h _ _)
  case pop => exact popOn_goesOn h _ _
  case kpop => exact gated (popOn_goesOn h _ _)
  case swi => exact .bind (regImmValue_goesOn s _) fun _ _ => .interrupt _ _
  case inc | dec => exact stepReg_goesOn _ _
  case ret => exact returnOn_goesOn h _
  case kret => exact gated (returnOn_goesOn h _)
  case iret => exact gated (.ok _)
  case nop | hlt => exact .ok _
  case portIn | portOut =>
    exact .bind (gpr_goesOn _) fun _ _ => .bind (regImmValue_goesOn s _) fun _ _ =>
      .bind (requirePort_goesOn s _) fun _ _ => .ok _

end

/-! ### A step and a run that do not stop -/

/-- Entry never stops (R250 to R256). -/
theorem enter_proceeds (n : Word) (code : Byte) (s : State) : Proceeds (enter n code s) := by
  obtain ⟨c, run, i0, es, h⟩ := enter_next n code s
  exact ⟨_, h⟩

/-- An instruction whose effect goes on has a next state. -/
theorem finish_proceeds {s : State} {r : Act State} (h : GoesOn r) : Proceeds (finish s r) := by
  cases r with
  | ok t => exact ⟨t, rfl⟩
  | error e =>
    cases e with
    | interrupt n c => exact enter_proceeds n c s
    | fault f => exact (h f rfl).elim

theorem trapAfter_proceeds {b : Bool} {o : Host.Outcome State Fault Refusal} (h : Proceeds o) :
    Proceeds (trapAfter b o) := by
  obtain ⟨t, rfl⟩ := h
  unfold trapAfter
  dsimp only
  split
  · exact enter_proceeds _ _ t
  · exact ⟨t, rfl⟩

theorem closeStep_proceeds {o : Host.Outcome State Fault Refusal} (h : Proceeds o) : Proceeds (closeStep o) := by
  obtain ⟨t, rfl⟩ := h
  exact ⟨_, rfl⟩

/-- A fetch marks entries; it installs nothing. -/
theorem memFetch_absent {s u : State} {la : Word} {w : InstrWord} (h : memFetch s la = .ok (w, u)) :
    u.plat.absent = s.plat.absent := by
  obtain ⟨ws, -, ⟨⟨-, hplat⟩, -⟩, -⟩ := memFetch_frame h
  exact hplat.1

theorem fetchExecute_proceeds {s : State} (h : s.plat.AllPresent) : Proceeds (fetchExecute exec s) := by
  have hgoes := memFetch_goesOn h s.i0
  unfold fetchExecute
  split
  · rename_i e he
    exact finish_proceeds fun f hf => hgoes f (by rw [he, ← Except.error.inj hf])
  · rename_i w u hw
    split
    · exact enter_proceeds _ _ _
    · rename_i i hi
      have hu : (advance u).plat.AllPresent := (memFetch_absent hw).trans h
      rw [exec_eq_finish]
      exact trapAfter_proceeds (finish_proceeds (effect_goesOn hu i))

/-- A dead processor only uses up the boundary's input (R256). -/
theorem step_of_dead {s : State} (h : s.run = .dead) : step s = .next (beginStep s) := by simp [step, cycle, h]

/-- A processor that is not dead takes the external interrupt it accepts (R240). -/
theorem step_of_irq {s : State} {n : Word} (h : s.run ≠ .dead)
    (hirq : acceptedIrq (presentedIrq s) (beginStep s) = some n) :
    step s = closeStep (enter n 0x00#8 (beginStep s)) := by simp [step, cycle, h, hirq]

/-- A halted processor that accepts no interrupt only uses up the boundary's input (R230). -/
theorem step_of_halted {s : State} (h : s.run = .halted) (hirq : acceptedIrq (presentedIrq s) (beginStep s) = none) :
    step s = .next (beginStep s) := by simp [step, cycle, h, hirq]

/-- On a platform without absent addresses every step has a next state. -/
theorem step_proceeds {s : State} (h : s.plat.AllPresent) : Proceeds (step s) := by
  by_cases hdead : s.run = .dead
  · exact ⟨_, step_of_dead hdead⟩
  cases hirq : acceptedIrq (presentedIrq s) (beginStep s) with
  | some n =>
    rw [step_of_irq hdead hirq]
    exact closeStep_proceeds (enter_proceeds n _ _)
  | none =>
    cases hrun : s.run with
    | dead => exact (hdead hrun).elim
    | halted => exact ⟨_, step_of_halted hrun hirq⟩
    | running =>
      rw [step_of_running hrun hirq]
      exact closeStep_proceeds (fetchExecute_proceeds (s := beginStep s) h)

/-- A step installs nothing and takes nothing away: what a step reaches has the same absent ranges. -/
theorem Reached.absent {s v : State} (h : Reached s v) : v.plat.absent = s.plat.absent := by
  cases h with
  | boundary => rfl
  | fetched _ _ hfetch =>
    have hkept := memFetch_absent hfetch
    exact hkept
  | completed _ _ hfetch _ heffect =>
    obtain ⟨-, habsent, -⟩ := effect_frame heffect
    have hkept := memFetch_absent hfetch
    exact habsent.trans hkept

theorem step_absent {s t : State} (h : step s = .next t) : t.plat.absent = s.plat.absent := by
  rcases step_reached h with ⟨v, hv, rfl⟩ | ⟨n, c, v, hv, hstep⟩
  · exact hv.absent
  · obtain ⟨x, hx, rfl⟩ := closeStep_eq_next.1 (hstep.symm.trans h)
    rw [State.setIntTaken_plat, enter_absent hx]
    exact hv.absent

/-- A run of one step more goes on from the step's next state. -/
theorem core_run_succ {s t : State} (h : step s = .next t) (n : Nat) :
    Sys2Proof.core.run (n + 1) s = Sys2Proof.core.run n t := by
  simp only [Host.Core.run, show Sys2Proof.core.step s = .next t from h]

/-- Settles O14, by induction on the number of steps: a step from such a platform has a next state, on the same platform. -/
theorem fullyBackedPlatformNeverStops : Obligations.FullyBackedPlatformNeverStops := by
  intro n
  induction n with
  | zero => exact fun s h => ⟨s, rfl, h⟩
  | succ n ih =>
    intro s h
    obtain ⟨t, ht⟩ := step_proceeds h
    obtain ⟨r, hr, hpresent⟩ := ih t ((step_absent ht).trans h)
    exact ⟨r, (core_run_succ ht n).trans hr, hpresent⟩

end Sys2Proof.Machine
end

section
/-! SUPPORT. What user mode cannot see (spec/60_exceptions.md R283): every operation an instruction of user mode is made of
commutes with giving `S1` and `TSP` other values, and so do an entry, an instruction and a step. -/

namespace Sys2Proof.Machine

/-! ### Other values of `S1` and `TSP` -/

/-- The state with other values of `S1` and `TSP`. -/
def State.withKernel (a b : Word) (s : State) : State := { s with s1 := a, tsp := b }

/-- The outcome with another next state. -/
def mapNext (f : State → State) : Host.Outcome State Fault Refusal → Host.Outcome State Fault Refusal
  | .next t => .next (f t)
  | .fault e => .fault e
  | .refused r => .refused r

/-- A sequence of parts that commute with a change of the state commutes with it. -/
theorem act_map_bind {α β γ δ : Type} {x : Act α} {y : Act β} {f : α → Act γ} {k : β → Act δ} {g : α → β} {g' : γ → δ}
    (hx : y = x.map g) (hf : ∀ a, x = .ok a → k (g a) = (f a).map g') : (y >>= k) = (x >>= f).map g' := by
  subst hx
  cases x with
  | error e => rfl
  | ok a => exact hf a rfl

/-- A sequence whose first part is the same commutes where its second part does. -/
theorem act_same_bind {α γ δ : Type} {x y : Act α} {f : α → Act γ} {k : α → Act δ} {g' : γ → δ} (hx : y = x)
    (hf : ∀ a, x = .ok a → k a = (f a).map g') : (y >>= k) = (x >>= f).map g' := by
  subst hx
  cases y with
  | error e => rfl
  | ok a => exact hf a rfl

section
variable (a b : Word)

/-- The pair of a value and a state, the state with other values of `S1` and `TSP`. -/
def withKernelPair {α : Type} (r : α × State) : α × State := (r.1, r.2.withKernel a b)

/-! ### Physical accesses -/

theorem physWrite8_withKernel (s : State) (pa : Word) (v : Byte) :
    physWrite8 (s.withKernel a b) pa v = (physWrite8 s pa v).withKernel a b := by
  simp only [physWrite8, show (s.withKernel a b).plat = s.plat from rfl]
  cases regionOf s.plat pa <;> rfl

theorem physWriteFrom_withKernel (s : State) (pa : Word) (bs : List Byte) :
    physWriteFrom (s.withKernel a b) pa bs = (physWriteFrom s pa bs).withKernel a b := by
  induction bs generalizing s pa with
  | nil => rfl
  | cons v bs ih => rw [physWriteFrom, physWriteFrom, physWrite8_withKernel, ih]

theorem tableReads_withKernel (s : State) (es : List EntryUse) : tableReads (s.withKernel a b) es = tableReads s es := by
  induction es with
  | nil => rfl
  | cons e es ih =>
    rw [tableReads, tableReads, ih]
    rfl

theorem markEntries_withKernel (p : Platform) (es : List EntryUse) (s : State) :
    markEntries p es (s.withKernel a b) = (markEntries p es s).withKernel a b := by
  induction es generalizing s with
  | nil => rfl
  | cons e es ih => rw [markEntries, markEntries, physWrite32, physWrite32, physWriteFrom_withKernel, ih]

theorem markUsed_withKernel (ws : List Walk) (s : State) :
    markUsed ws (s.withKernel a b) = (markUsed ws s).withKernel a b := by
  have htold : (s.withKernel a b).tell (tableReads s (usedEntries ws)) =
      (s.tell (tableReads s (usedEntries ws))).withKernel a b := rfl
  simp only [markUsed, Config.setABit, if_true, tableReads_withKernel, htold, markEntries_withKernel]
  rfl

/-! ### Accesses -/

theorem translate_withKernel (s : State) (kind : AccessKind) (la : Word) :
    translate (s.withKernel a b) kind la = translate s kind la := rfl

theorem translateFrom_withKernel (s : State) (kind : AccessKind) (la : Word) (n : Nat) :
    translateFrom (s.withKernel a b) kind la n = translateFrom s kind la n := by
  induction n generalizing la with
  | zero => rfl
  | succ n ih => rw [translateFrom, translateFrom, translate_withKernel, ih]

theorem readByte_withKernel (s : State) (pa : Word) :
    readByte (s.withKernel a b) pa = (readByte s pa).map (withKernelPair a b) := by
  simp only [readByte, show (s.withKernel a b).plat = s.plat from rfl]
  cases regionOf s.plat pa <;> rfl

theorem readWalks_withKernel (ws : List Walk) (s : State) :
    readWalks ws (s.withKernel a b) = (readWalks ws s).map (withKernelPair a b) := by
  induction ws generalizing s with
  | nil => rfl
  | cons w ws ih =>
    exact act_map_bind (readByte_withKernel a b s w.pa) fun r _ => act_map_bind (ih r.2) fun _ _ => rfl

theorem writeByte_withKernel (s : State) (pa : Word) (v : Byte) :
    writeByte (s.withKernel a b) pa v = (writeByte s pa v).map (State.withKernel a b) := by
  simp only [writeByte, show (s.withKernel a b).plat = s.plat from rfl, physWrite8_withKernel]
  cases regionOf s.plat pa <;> rfl

theorem writeWalks_withKernel (ws : List Walk) (bs : List Byte) (s : State) :
    writeWalks ws bs (s.withKernel a b) = (writeWalks ws bs s).map (State.withKernel a b) := by
  induction ws generalizing bs s with
  | nil => cases bs <;> rfl
  | cons w ws ih =>
    cases bs with
    | nil => rfl
    | cons v bs => exact act_map_bind (writeByte_withKernel a b s w.pa v) fun t _ => ih bs t

theorem readBytes_withKernel (s : State) (kind : AccessKind) (la : Word) (n : Nat) :
    readBytes (s.withKernel a b) kind la n = (readBytes s kind la n).map (withKernelPair a b) :=
  act_same_bind (translateFrom_withKernel a b s kind la n) fun ws _ => by
    rw [markUsed_withKernel, readWalks_withKernel]

theorem memRead_withKernel (s : State) (la : Word) :
    memRead (s.withKernel a b) la = (memRead s la).map (withKernelPair a b) :=
  act_map_bind (readBytes_withKernel a b s .read la 4) fun _ _ => rfl

theorem memFetch_withKernel (s : State) (la : Word) :
    memFetch (s.withKernel a b) la = (memFetch s la).map (withKernelPair a b) :=
  act_map_bind (readBytes_withKernel a b s .fetch la 8) fun _ _ => rfl

theorem memWrite_withKernel (s : State) (la v : Word) :
    memWrite (s.withKernel a b) la v = (memWrite s la v).map (State.withKernel a b) :=
  act_same_bind (translateFrom_withKernel a b s .write la 4) fun ws _ => by
    rw [markUsed_withKernel, writeWalks_withKernel]

/-! ### The shapes of user mode's instructions -/

theorem push_user_withKernel (s : State) (v : Word) :
    push (s.withKernel a b) .user v = (push s .user v).map (State.withKernel a b) :=
  act_map_bind (memWrite_withKernel a b s (pushAddr s .user) v) fun _ _ => rfl

theorem pop_user_withKernel (s : State) :
    pop (s.withKernel a b) .user = (pop s .user).map (withKernelPair a b) :=
  act_map_bind (memRead_withKernel a b s s.s0) fun _ _ => rfl

theorem sourceValue_withKernel (s : State) (src : Source) :
    sourceValue (s.withKernel a b) src = (sourceValue s src).map (withKernelPair a b) := by
  cases src with
  | reg rs => exact act_same_bind rfl fun _ _ => rfl
  | imm i => rfl
  | addr i => exact memRead_withKernel a b s i

theorem regImmValue_withKernel (s : State) (src : RegImm) : regImmValue (s.withKernel a b) src = regImmValue s src := by
  cases src <;> rfl

theorem targetValue_withKernel (s : State) (tgt : Target) : targetValue (s.withKernel a b) tgt = targetValue s tgt := by
  cases tgt <;> rfl

theorem arith_withKernel (op : Word → Word → Byte → Word × Byte) (rd : BitVec 8) (src : Source) (s : State) :
    arith op rd src (s.withKernel a b) = (arith op rd src s).map (State.withKernel a b) :=
  act_same_bind rfl fun _ _ => act_map_bind (sourceValue_withKernel a b s src) fun _ _ => rfl

theorem branchIf_withKernel (cond : Bool) (tgt : Target) (s : State) :
    branchIf cond tgt (s.withKernel a b) = (branchIf cond tgt s).map (State.withKernel a b) :=
  act_same_bind (targetValue_withKernel a b s tgt) fun _ _ => by cases cond <;> rfl

/-- `ZEXT` reads neither register (R171). -/
theorem readForZext_withKernel (s : State) (n : Nat) : readForZext (s.withKernel a b) n = readForZext s n := by
  unfold readForZext
  cases specialOfNumber n with
  | none => rfl
  | some r => cases r <;> rfl

/-- `MFS` reads neither register in user mode (R42, R172). -/
theorem readForMfs_withKernel {s : State} (hm : s.mode = .user) (n : Nat) :
    readForMfs (s.withKernel a b) n = readForMfs s n := by
  have hm' : (s.withKernel a b).mode = .user := hm
  unfold readForMfs
  cases specialOfNumber n with
  | none => rfl
  | some r => cases r <;> simp [readSpecial32, userReads, hm, hm'] <;> rfl

/-- `MTS` depends on neither register in user mode, and writes neither (R42, R173). -/
theorem moveToSpecial_withKernel {s : State} (hm : s.mode = .user) (rd rs : Nat) :
    moveToSpecial (s.withKernel a b) rd rs = (moveToSpecial s rd rs).map (State.withKernel a b) := by
  have hm' : (s.withKernel a b).mode = .user := hm
  unfold moveToSpecial
  cases specialOfNumber rd with
  | none => rfl
  | some r =>
    refine act_same_bind rfl fun g _ => ?_
    cases r <;> simp only [writeSpecial, userWriteFault, hm, hm'] <;> rfl

/-- A privileged instruction raises `IPF(0x00)` in user mode, whatever `S1` and `TSP` are. -/
theorem requireSupervisor_withKernel {s : State} (hm : s.mode = .user) {x y : Act State} :
    (requireSupervisor (s.withKernel a b) >>= fun _ => y) =
      (requireSupervisor s >>= fun _ => x).map (State.withKernel a b) := by
  rw [requireSupervisor_of_user hm, requireSupervisor_of_user (s := s.withKernel a b) hm]
  rfl

/-- The effect of an instruction of user mode commutes with other values of `S1` and `TSP`. -/
theorem effect_withKernel {s : State} (hm : s.mode = .user) (i : Instr) :
    effect i (s.withKernel a b) = (effect i s).map (State.withKernel a b) := by
  cases i
  case add | sub | mul | div | and | or | xor | lsl | lsr | mov => exact arith_withKernel a b _ _ _ s
  case cmp => exact act_same_bind rfl fun _ _ => act_map_bind (sourceValue_withKernel a b s _) fun _ _ => rfl
  case zext => exact act_same_bind rfl fun _ _ => act_same_bind (readForZext_withKernel a b s _) fun _ _ => rfl
  case mfs => exact act_same_bind rfl fun _ _ => act_same_bind (readForMfs_withKernel a b hm _) fun _ _ => rfl
  case mts => exact moveToSpecial_withKernel a b hm _ _
  case ldr =>
    exact act_same_bind rfl fun _ _ => act_same_bind (targetValue_withKernel a b s _) fun _ _ =>
      act_map_bind (memRead_withKernel a b s _) fun _ _ => rfl
  case str =>
    exact act_same_bind rfl fun _ _ => act_same_bind (targetValue_withKernel a b s _) fun _ _ =>
      memWrite_withKernel a b s _ _
  case jmp | beq | bne | bz | bnz | bg | bl => exact branchIf_withKernel a b _ _ s
  case jar => exact act_same_bind (targetValue_withKernel a b s _) fun _ _ => rfl
  case call =>
    exact act_same_bind (targetValue_withKernel a b s _) fun _ _ =>
      act_map_bind (push_user_withKernel a b s _) fun _ _ => rfl
  case push => exact act_same_bind (regImmValue_withKernel a b s _) fun _ _ => push_user_withKernel a b s _
  case pop => exact act_same_bind rfl fun _ _ => act_map_bind (pop_user_withKernel a b s) fun _ _ => rfl
  case swi => exact act_same_bind (regImmValue_withKernel a b s _) fun _ _ => rfl
  case inc | dec => exact act_same_bind rfl fun _ _ => rfl
  case ret => exact act_map_bind (pop_user_withKernel a b s) fun _ _ => rfl
  case kcall | kpush | kpop | kret | iret => exact requireSupervisor_withKernel a b hm
  case nop | hlt => rfl
  case portIn | portOut =>
    exact act_same_bind rfl fun _ _ => act_same_bind (regImmValue_withKernel a b s _) fun _ _ =>
      act_same_bind rfl fun _ _ => rfl

/-! ### Entry, instruction and step -/

theorem physRead32_withKernel (s : State) (pa : Word) :
    physRead32 (s.withKernel a b) pa = (physRead32 s pa).map (withKernelPair a b) := by
  simp only [physRead32, show (s.withKernel a b).plat = s.plat from rfl]
  cases entryRegion s.plat pa <;> rfl

theorem raiseNmi_withKernel (code : Byte) (s : State) :
    raiseNmi code (s.withKernel a b) = mapNext (State.withKernel a b) (raiseNmi code s) := by
  have hread := physRead32_withKernel a b { s with ie0 := code } (s.ivtr + 12#32)
  unfold raiseNmi
  dsimp only
  rw [show ({ s.withKernel a b with ie0 := code } : State) = ({ s with ie0 := code } : State).withKernel a b from rfl,
    show (s.withKernel a b).ivtr = s.ivtr from rfl, hread]
  cases physRead32 { s with ie0 := code } (s.ivtr + 12#32) with
  | none => rfl
  | some r =>
    simp only [Option.map_some, withKernelPair]
    split <;> rfl

theorem enter_withKernel (n : Word) (code : Byte) (s : State) :
    enter n code (s.withKernel a b) = mapNext (State.withKernel a b) (enter n code s) := by
  have hread := physRead32_withKernel a b (saveContext code s) (s.ivtr + 4#32 * n)
  unfold enter deliver
  rw [show saveContext code (s.withKernel a b) = (saveContext code s).withKernel a b from rfl,
    show ((saveContext code s).withKernel a b).ivtr = s.ivtr from rfl, saveContext_ivtr, hread]
  cases physRead32 (saveContext code s) (s.ivtr + 4#32 * n) with
  | none => exact raiseNmi_withKernel a b _ _
  | some r =>
    simp only [Option.map_some, withKernelPair]
    split
    · exact raiseNmi_withKernel a b _ _
    · rfl

theorem finish_withKernel {s : State} {x y : Act State} (h : y = x.map (State.withKernel a b)) :
    finish (s.withKernel a b) y = mapNext (State.withKernel a b) (finish s x) := by
  subst h
  cases x with
  | ok t => rfl
  | error e =>
    cases e with
    | interrupt n c => exact enter_withKernel a b n c s
    | fault f => rfl

theorem exec_withKernel {s : State} (hm : s.mode = .user) (i : Instr) :
    exec i (s.withKernel a b) = mapNext (State.withKernel a b) (exec i s) := by
  rw [exec_eq_finish, exec_eq_finish, finish_withKernel a b (effect_withKernel a b hm i)]

theorem trapAfter_withKernel (t : Bool) (o : Host.Outcome State Fault Refusal) :
    trapAfter t (mapNext (State.withKernel a b) o) = mapNext (State.withKernel a b) (trapAfter t o) := by
  cases o with
  | next s =>
    simp only [trapAfter, mapNext, show (s.withKernel a b).intTaken = s.intTaken from rfl]
    split
    · exact enter_withKernel a b _ _ s
    · rfl
  | fault f => rfl
  | refused r => rfl

theorem closeStep_withKernel (o : Host.Outcome State Fault Refusal) :
    closeStep (mapNext (State.withKernel a b) o) = mapNext (State.withKernel a b) (closeStep o) := by
  cases o <;> rfl

/-- The fetch keeps the mode. -/
theorem memFetch_mode {s u : State} {la : Word} {w : InstrWord} (h : memFetch s la = .ok (w, u)) : u.mode = s.mode := by
  obtain ⟨ws, -, ⟨⟨hu, -⟩, -⟩, -⟩ := memFetch_frame h
  rw [hu]
  rfl

theorem fetchExecute_withKernel {s : State} (hm : s.mode = .user) :
    fetchExecute exec (s.withKernel a b) = mapNext (State.withKernel a b) (fetchExecute exec s) := by
  unfold fetchExecute
  rw [show (s.withKernel a b).i0 = s.i0 from rfl, memFetch_withKernel]
  cases hfetch : memFetch s s.i0 with
  | error e => exact finish_withKernel a b (x := .error e) rfl
  | ok r =>
    obtain ⟨w, u⟩ := r
    have hu : (advance u).mode = .user := (memFetch_mode hfetch).trans hm
    simp only [Except.map, withKernelPair]
    cases decode w with
    | error e => exact enter_withKernel a b _ _ (advance u)
    | ok i =>
      have hexec := exec_withKernel a b hu i
      exact (congrArg (trapAfter (s.flag .t)) hexec).trans (trapAfter_withKernel a b _ _)

theorem step_withKernel {s : State} (hm : s.mode = .user) :
    step (s.withKernel a b) = mapNext (State.withKernel a b) (step s) := by
  have hbegin : beginStep (s.withKernel a b) = (beginStep s).withKernel a b := rfl
  by_cases hdead : s.run = .dead
  · rw [step_of_dead hdead, step_of_dead (s := s.withKernel a b) hdead, hbegin, mapNext]
  cases hirq : acceptedIrq (presentedIrq s) (beginStep s) with
  | some n =>
    rw [step_of_irq hdead hirq, step_of_irq (s := s.withKernel a b) hdead hirq, hbegin, enter_withKernel,
      closeStep_withKernel]
  | none =>
    cases hrun : s.run with
    | dead => exact (hdead hrun).elim
    | halted => rw [step_of_halted hrun hirq, step_of_halted (s := s.withKernel a b) hrun hirq, hbegin, mapNext]
    | running =>
      rw [step_of_running hrun hirq, step_of_running (s := s.withKernel a b) hrun hirq, hbegin,
        fetchExecute_withKernel a b (s := beginStep s) hm, closeStep_withKernel]

end

/-- In user mode an instruction changes neither `S1` nor `TSP`, by its effect or by an entry. -/
theorem exec_keeps_kernel {i : Instr} {s t : State} (hm : s.mode = .user) (h : exec i s = .next t) :
    t.s1 = s.s1 ∧ t.tsp = s.tsp := by
  rcases exec_cases h with heffect | ⟨n, c, -, henter⟩
  · obtain ⟨-, hs1, -, -, htsp, -⟩ := effect_sameSystemState heffect hm
    exact ⟨hs1, htsp⟩
  · rw [enter_spec henter]
    exact ⟨rfl, rfl⟩

/-- A step from user mode changes neither `S1` nor `TSP`. -/
theorem step_keeps_kernel {s t : State} (hm : s.mode = .user) (h : step s = .next t) : t.s1 = s.s1 ∧ t.tsp = s.tsp := by
  rcases userModeKeepsSystemState s t hm h with ⟨-, hs1, -, -, htsp, -⟩ | ⟨-, -, hs1, -, -, htsp, -⟩
  · exact ⟨hs1, htsp⟩
  · exact ⟨hs1, htsp⟩

/-- Settles O19: an instruction and a step of user mode commute with other values of `S1` and `TSP`, and keep both. -/
theorem userModeBlindToKernelStackAndTask : Obligations.UserModeBlindToKernelStackAndTask := by
  intro s a b hm
  refine ⟨fun i => ⟨fun t h => ?_, fun t => exec_keeps_kernel hm, fun f h => ?_⟩,
    fun t h => ⟨?_, step_keeps_kernel hm h⟩, fun f h => ?_⟩
  · exact (exec_withKernel a b hm i).trans (congrArg _ h)
  · exact (exec_withKernel a b hm i).trans (congrArg _ h)
  · exact (step_withKernel a b hm).trans (congrArg _ h)
  · exact (step_withKernel a b hm).trans (congrArg _ h)

end Sys2Proof.Machine
end

section
/-! SUPPORT. The statements about the decoder and the encoder (spec/30_encoding.md sections 1 to 3): the round trip both ways, the
opcode bits, and which words are instructions. -/

namespace Sys2Proof

/-! ### Decoding an encoding -/

/-- Every instruction decodes from its own word, the fields read back where the layout packed them (R102 to R104). -/
theorem decode_encode (i : Instr) : decode (encode i) = .ok i := by
  cases i
  case add | sub | mul | div | and | or | xor | lsl | lsr | cmp | mov => simp [encode, opcodeOf, decode, Except.map]
  case zext | mfs | mts => simp [encode, opcodeOf, decode, decodeReg, Except.map]
  case ldr | str | jmp | jar | beq | bne | bz | bnz | bg | bl | call | kcall => simp [encode, opcodeOf, decode]
  case push | kpush | swi | portIn | portOut => simp [encode, opcodeOf, decode, Except.map]
  case pop | kpop | inc | dec => simp [encode, opcodeOf, decode, decodeReg, Except.map]
  case ret | kret | iret | nop | hlt => simp [encode, opcodeOf, decode]

/-- The decoder on bytes takes a word's eight and leaves what follows (R66, R100). -/
theorem decodeBytes_instrBytes_append (w : InstrWord) (rest : List Byte) :
    decodeBytes (instrBytes w ++ rest) = (decode w).map fun i => (i, rest) := by
  have hlen : ¬ (instrBytes w ++ rest).length < 8 := by simp
  rw [decodeBytes, if_neg hlen, List.take_left' (length_instrBytes w), List.drop_left' (length_instrBytes w),
    instrOfBytes_instrBytes]

/-- Settles O1: the fields read back from the packed word, and the word from its bytes. -/
theorem decodeOfEncodeIsTheInstruction : Obligations.DecodeOfEncodeIsTheInstruction := by
  refine fun i => ⟨decode_encode i, fun rest => ?_⟩
  rw [decodeBytes_instrBytes_append, decode_encode]
  rfl

/-! ### The fields of a word, packed again -/

/-- Two fields that stand side by side are one field (R102, R103). -/
theorem extract_append (w : InstrWord) (start low high : Nat) :
    w.extractLsb' (start + low) high ++ w.extractLsb' start low = w.extractLsb' start (high + low) :=
  BitVec.extractLsb'_append_extractLsb'_eq_extractLsb' rfl

/-- A word is its RR/I fields and its reserved bits (R103). -/
theorem rri_fields (w : InstrWord) : opField w ++ amField w ++ rriRd w ++ rriMain w ++ w.extractLsb' 0 16 = w := by
  unfold opField amField rriRd rriMain
  rw [extract_append w 56 2 6, extract_append w 48 8, extract_append w 16 32, extract_append w 0 16]
  exact BitVec.extractLsb'_eq_self

/-- A word is its R/I fields and its reserved bits (R102). -/
theorem ri_fields (w : InstrWord) :
    opField w ++ amField w ++ riMain w ++ riRo w ++ riRd w ++ w.extractLsb' 0 8 = w := by
  unfold opField amField riMain riRo riRd
  rw [extract_append w 56 2 6, extract_append w 24 32, extract_append w 16 8, extract_append w 8 8, extract_append w 0 8]
  exact BitVec.extractLsb'_eq_self

/-- Packing the fields of a word by the RR/I layout clears its reserved bits (R103). -/
theorem packRri_fields (w : InstrWord) :
    packRri (opField w) (amField w) (rriRd w) (rriMain w) = w &&& 0xFFFFFFFFFFFF0000#64 := by
  have hmask : 0xFFFFFFFFFFFF0000#64 =
      BitVec.allOnes 6 ++ BitVec.allOnes 2 ++ BitVec.allOnes 8 ++ BitVec.allOnes 32 ++ 0#16 := by decide
  have hand : (opField w ++ amField w ++ rriRd w ++ rriMain w ++ w.extractLsb' 0 16) &&&
      (BitVec.allOnes 6 ++ BitVec.allOnes 2 ++ BitVec.allOnes 8 ++ BitVec.allOnes 32 ++ 0#16) =
        opField w ++ amField w ++ rriRd w ++ rriMain w ++ 0#16 := by
    simp only [BitVec.and_append, BitVec.and_allOnes, BitVec.and_zero]
  rw [hmask, packRri, ← hand]
  exact congrArg (· &&& _) (rri_fields w)

/-- Packing the fields of a word by the R/I layout, `ro` and `rd` under masks, masks them in the word and clears its reserved
bits (R102). -/
theorem packRi_fields (w : InstrWord) (ro rd : BitVec 8) :
    packRi (opField w) (amField w) (riMain w) (riRo w &&& ro) (riRd w &&& rd) =
      w &&& (0xFFFFFFFFFF#40 ++ ro ++ rd ++ 0#8) := by
  have hmask : 0xFFFFFFFFFF#40 = BitVec.allOnes 6 ++ BitVec.allOnes 2 ++ BitVec.allOnes 32 := by decide
  have hand : (opField w ++ amField w ++ riMain w ++ riRo w ++ riRd w ++ w.extractLsb' 0 8) &&&
      (BitVec.allOnes 6 ++ BitVec.allOnes 2 ++ BitVec.allOnes 32 ++ ro ++ rd ++ 0#8) =
        opField w ++ amField w ++ riMain w ++ (riRo w &&& ro) ++ (riRd w &&& rd) ++ 0#8 := by
    simp only [BitVec.and_append, BitVec.and_allOnes, BitVec.and_zero]
  rw [hmask, packRi, ← hand]
  exact congrArg (· &&& _) (ri_fields w)

/-! ### The operand a mode and a field decode to -/

/-- The four values of `am`. -/
theorem am_cases (am : BitVec 2) : am = 0#2 ∨ am = 1#2 ∨ am = 2#2 ∨ am = 3#2 := by
  revert am
  decide

theorem decodeSource_eq_ok {am : BitVec 2} {main : Word} {src : Source} (h : decodeSource am main = .ok src) :
    src.mode = am ∧ src.field = main := by
  rcases am_cases am with rfl | rfl | rfl | rfl <;> cases h <;> exact ⟨rfl, rfl⟩

theorem decodeRegImm_eq_ok {am : BitVec 2} {main : Word} {src : RegImm} (h : decodeRegImm am main = .ok src) :
    src.mode = am ∧ src.field = main := by
  rcases am_cases am with rfl | rfl | rfl | rfl <;> cases h <;> exact ⟨rfl, rfl⟩

theorem decodeReg_eq_ok {am : BitVec 2} {main rs : Word} (h : decodeReg am main = .ok rs) : am = 0#2 ∧ rs = main := by
  rcases am_cases am with rfl | rfl | rfl | rfl <;> cases h
  exact ⟨rfl, rfl⟩

/-- The bits of `ro` a target of the mode uses (R102, R106). -/
def offsetMask (am : BitVec 2) : BitVec 8 := if am.getLsbD 1 then 0xFF#8 else 0#8

theorem decodeTarget_fields (am : BitVec 2) (main : Word) (ro : BitVec 8) :
    (decodeTarget am main ro).mode = am ∧ (decodeTarget am main ro).field = main ∧
      (decodeTarget am main ro).offset = ro &&& offsetMask am := by
  have hkept : ro &&& 0xFF#8 = ro := BitVec.and_allOnes
  obtain rfl | rfl | rfl | rfl := am_cases am
  · exact ⟨rfl, rfl, BitVec.and_zero.symm⟩
  · exact ⟨rfl, rfl, BitVec.and_zero.symm⟩
  · exact ⟨rfl, rfl, hkept.symm⟩
  · exact ⟨rfl, rfl, hkept.symm⟩

/-! ### What a word that decodes was -/

theorem opField_eq {w : InstrWord} {n : Nat} (h : (opField w).toNat = n) : opField w = BitVec.ofNat 6 n := by
  rw [← h, BitVec.ofNat_toNat, BitVec.setWidth_eq]

/-- What a word that decodes to the instruction has: its opcode, and its encoding on every examined bit. -/
def Reencodes (w : InstrWord) (i : Instr) : Prop := opcodeOf i = opField w ∧ encode i = w &&& examinedMask i

theorem except_map_eq_ok {α β : Type} {x : Except DecodeError α} {f : α → β} {b : β} :
    x.map f = .ok b ↔ ∃ a, x = .ok a ∧ b = f a := by
  cases x <;> simp [Except.map, eq_comm]

section
variable {w : InstrWord} {op : BitVec 6} {i : Instr}

/-- A row of the RR/I layout with an operand of `ADD` to `MOV`. -/
theorem reencodes_of_source {f : Source → Instr} (hop : opField w = op)
    (h : (decodeSource (amField w) (rriMain w)).map f = .ok i) (hcode : ∀ src, opcodeOf (f src) = op)
    (hpack : ∀ src, encode (f src) = packRri op src.mode (rriRd w) src.field)
    (hmask : ∀ src, examinedMask (f src) = 0xFFFFFFFFFFFF0000#64) : Reencodes w i := by
  obtain ⟨src, hsrc, rfl⟩ := except_map_eq_ok.1 h
  obtain ⟨hmode, hfield⟩ := decodeSource_eq_ok hsrc
  exact ⟨(hcode src).trans hop.symm, by rw [hpack, hmask, hmode, hfield, ← hop, packRri_fields]⟩

/-- A row of the RR/I layout with a register-or-immediate operand. -/
theorem reencodes_of_port {f : RegImm → Instr} (hop : opField w = op)
    (h : (decodeRegImm (amField w) (rriMain w)).map f = .ok i) (hcode : ∀ src, opcodeOf (f src) = op)
    (hpack : ∀ src, encode (f src) = packRri op src.mode (rriRd w) src.field)
    (hmask : ∀ src, examinedMask (f src) = 0xFFFFFFFFFFFF0000#64) : Reencodes w i := by
  obtain ⟨src, hsrc, rfl⟩ := except_map_eq_ok.1 h
  obtain ⟨hmode, hfield⟩ := decodeRegImm_eq_ok hsrc
  exact ⟨(hcode src).trans hop.symm, by rw [hpack, hmask, hmode, hfield, ← hop, packRri_fields]⟩

/-- A row of the RR/I layout with a register field alone. -/
theorem reencodes_of_special {f : Word → Instr} (hop : opField w = op)
    (h : (decodeReg (amField w) (rriMain w)).map f = .ok i) (hcode : ∀ rs, opcodeOf (f rs) = op)
    (hpack : ∀ rs, encode (f rs) = packRri op 0#2 (rriRd w) rs)
    (hmask : ∀ rs, examinedMask (f rs) = 0xFFFFFFFFFFFF0000#64) : Reencodes w i := by
  obtain ⟨rs, hrs, rfl⟩ := except_map_eq_ok.1 h
  obtain ⟨hmode, rfl⟩ := decodeReg_eq_ok hrs
  exact ⟨(hcode _).trans hop.symm, by rw [hpack, hmask, ← hmode, ← hop, packRri_fields]⟩

/-- The R/I layout without `ro` and data register. -/
theorem packRi_main (w : InstrWord) :
    packRi (opField w) (amField w) (riMain w) 0#8 0#8 = w &&& 0xFFFFFFFFFF000000#64 := by
  have h := packRi_fields w 0#8 0#8
  rwa [BitVec.and_zero, BitVec.and_zero] at h

/-- A row of the R/I layout with a register-or-immediate operand. -/
theorem reencodes_of_value {f : RegImm → Instr} (hop : opField w = op)
    (h : (decodeRegImm (amField w) (riMain w)).map f = .ok i) (hcode : ∀ src, opcodeOf (f src) = op)
    (hpack : ∀ src, encode (f src) = packRi op src.mode src.field 0#8 0#8)
    (hmask : ∀ src, examinedMask (f src) = 0xFFFFFFFFFF000000#64) : Reencodes w i := by
  obtain ⟨src, hsrc, rfl⟩ := except_map_eq_ok.1 h
  obtain ⟨hmode, hfield⟩ := decodeRegImm_eq_ok hsrc
  exact ⟨(hcode src).trans hop.symm, by rw [hpack, hmask, hmode, hfield, ← hop, packRi_main]⟩

/-- A row of the R/I layout with a register field alone. -/
theorem reencodes_of_one {f : Word → Instr} (hop : opField w = op)
    (h : (decodeReg (amField w) (riMain w)).map f = .ok i) (hcode : ∀ rs, opcodeOf (f rs) = op)
    (hpack : ∀ rs, encode (f rs) = packRi op 0#2 rs 0#8 0#8)
    (hmask : ∀ rs, examinedMask (f rs) = 0xFFFFFFFFFF000000#64) : Reencodes w i := by
  obtain ⟨rs, hrs, rfl⟩ := except_map_eq_ok.1 h
  obtain ⟨hmode, rfl⟩ := decodeReg_eq_ok hrs
  exact ⟨(hcode _).trans hop.symm, by rw [hpack, hmask, ← hmode, ← hop, packRi_main]⟩

/-- The target a word of the R/I layout holds. -/
def targetOf (w : InstrWord) : Target := decodeTarget (amField w) (riMain w) (riRo w)

/-- A row of the R/I layout with a target and no data register. -/
theorem reencodes_of_target {f : Target → Instr} (hop : opField w = op) (hi : f (targetOf w) = i)
    (hcode : ∀ tgt, opcodeOf (f tgt) = op)
    (hpack : ∀ tgt, encode (f tgt) = packRi op tgt.mode tgt.field tgt.offset 0#8)
    (hmask : ∀ tgt, examinedMask (f tgt) = examinedMask.targetMask tgt) : Reencodes w i := by
  subst hi
  obtain ⟨hmode, hfield, hoffset⟩ := decodeTarget_fields (amField w) (riMain w) (riRo w)
  have hbits : examinedMask.targetMask (targetOf w) = 0xFFFFFFFFFF#40 ++ offsetMask (amField w) ++ 0#8 ++ 0#8 := by
    rw [examinedMask.targetMask, targetOf, hmode, offsetMask]
    split <;> decide
  have hfields := packRi_fields w (offsetMask (amField w)) 0#8
  rw [BitVec.and_zero] at hfields
  exact ⟨(hcode _).trans hop.symm, by rw [hpack, hmask, hbits, targetOf, hmode, hfield, hoffset, ← hop, hfields]⟩

/-- A row of the R/I layout with a target and a data register. -/
theorem reencodes_of_loadStore {f : Target → Instr} (hop : opField w = op) (hi : f (targetOf w) = i)
    (hcode : ∀ ea, opcodeOf (f ea) = op)
    (hpack : ∀ ea, encode (f ea) = packRi op ea.mode ea.field ea.offset (riRd w))
    (hmask : ∀ ea, examinedMask (f ea) =
      if ea.mode.getLsbD 1 then 0xFFFFFFFFFFFFFF00#64 else 0xFFFFFFFFFF00FF00#64) : Reencodes w i := by
  subst hi
  obtain ⟨hmode, hfield, hoffset⟩ := decodeTarget_fields (amField w) (riMain w) (riRo w)
  have hbits : (if (targetOf w).mode.getLsbD 1 then 0xFFFFFFFFFFFFFF00#64 else 0xFFFFFFFFFF00FF00#64) =
      0xFFFFFFFFFF#40 ++ offsetMask (amField w) ++ BitVec.allOnes 8 ++ 0#8 := by
    rw [targetOf, hmode, offsetMask]
    split <;> decide
  have hfields := packRi_fields w (offsetMask (amField w)) (BitVec.allOnes 8)
  rw [BitVec.and_allOnes] at hfields
  exact ⟨(hcode _).trans hop.symm, by rw [hpack, hmask, hbits, targetOf, hmode, hfield, hoffset, ← hop, hfields]⟩

/-- A row of the N/A layout (R104). -/
theorem reencodes_of_bare (hop : opField w = op) (hcode : opcodeOf i = op) (hpack : encode i = packNa op)
    (hmask : examinedMask i = 0xFC00000000000000#64) : Reencodes w i :=
  ⟨hcode.trans hop.symm, by rw [hpack, hmask, and_opcodeMask, hop, packNa]⟩

end

/-- A word that decodes has its instruction's opcode and is its encoding on every examined bit: the rows of R120, each by
its layout. -/
theorem reencodes_of_decode {w : InstrWord} {i : Instr} (h : decode w = .ok i) : Reencodes w i := by
  unfold decode at h
  dsimp only at h
  split at h
  case h_1 hop | h_2 hop | h_3 hop | h_4 hop | h_5 hop | h_6 hop | h_7 hop | h_8 hop | h_9 hop | h_10 hop | h_11 hop =>
    exact reencodes_of_source (opField_eq hop) h (fun _ => rfl) (fun _ => rfl) (fun _ => rfl)
  case h_12 hop | h_13 hop | h_14 hop =>
    exact reencodes_of_special (opField_eq hop) h (fun _ => rfl) (fun _ => rfl) (fun _ => rfl)
  case h_15 hop | h_16 hop =>
    exact reencodes_of_loadStore (opField_eq hop) (Except.ok.inj h) (fun _ => rfl) (fun _ => rfl) (fun _ => rfl)
  case h_17 hop | h_18 hop | h_19 hop | h_20 hop | h_21 hop | h_22 hop | h_23 hop | h_24 hop | h_25 hop | h_26 hop =>
    exact reencodes_of_target (opField_eq hop) (Except.ok.inj h) (fun _ => rfl) (fun _ => rfl) (fun _ => rfl)
  case h_27 hop | h_29 hop | h_31 hop =>
    exact reencodes_of_value (opField_eq hop) h (fun _ => rfl) (fun _ => rfl) (fun _ => rfl)
  case h_28 hop | h_30 hop | h_32 hop | h_33 hop =>
    exact reencodes_of_one (opField_eq hop) h (fun _ => rfl) (fun _ => rfl) (fun _ => rfl)
  case h_34 hop | h_35 hop | h_36 hop | h_37 hop | h_38 hop =>
    cases h
    exact reencodes_of_bare (opField_eq hop) rfl rfl rfl
  case h_39 hop | h_40 hop =>
    exact reencodes_of_port (opField_eq hop) h (fun _ => rfl) (fun _ => rfl) (fun _ => rfl)
  case h_41 => cases h

/-- Settles O2: the encoding packs the fields the decoder took from the word. -/
theorem decodedWordReencodes : Obligations.DecodedWordReencodes := by
  intro w i h
  obtain ⟨-, hencode⟩ := reencodes_of_decode h
  exact hencode

/-! ### The opcode bits -/

/-- The `match` of a row is its opcode above zeros (R120). -/
theorem tableMatch_eq (i : Instr) : Machine.tableMatch i = opcodeOf i ++ 0#58 := by
  cases i <;> simp only [Machine.tableMatch, opcodeOf] <;> decide

/-- The opcode field of an instruction's word is its row's (R105, R120). -/
theorem opField_encode (i : Instr) : opField (encode i) = opcodeOf i := by
  obtain ⟨hcode, -⟩ := reencodes_of_decode (decode_encode i)
  exact hcode.symm

/-- A word is refused for its opcode only where no row has it (R122). -/
theorem decode_invalidOpcode {w : InstrWord} {op : BitVec 6} (h : decode w = .error (.invalidOpcode op)) :
    op = opField w ∧ ((opField w).toNat = 0 ∨ 0x29 ≤ (opField w).toNat) := by
  have hmode {α : Type} {x : Except DecodeError α} {f : α → Instr} (hx : ∀ op, x ≠ .error (.invalidOpcode op)) :
      x.map f ≠ .error (.invalidOpcode op) := by
    cases x with
    | ok a => simp [Except.map]
    | error e => exact fun he => hx op (congrArg Except.error (Except.error.inj he))
  have hsource : ∀ am main op, decodeSource am main ≠ .error (.invalidOpcode op) := fun am main op => by
    rcases am_cases am with rfl | rfl | rfl | rfl <;> simp [decodeSource]
  have hregImm : ∀ am main op, decodeRegImm am main ≠ .error (.invalidOpcode op) := fun am main op => by
    rcases am_cases am with rfl | rfl | rfl | rfl <;> simp [decodeRegImm]
  have hreg : ∀ am main op, decodeReg am main ≠ .error (.invalidOpcode op) := fun am main op => by
    rcases am_cases am with rfl | rfl | rfl | rfl <;> simp [decodeReg]
  unfold decode at h
  dsimp only at h
  split at h
  case h_1 | h_2 | h_3 | h_4 | h_5 | h_6 | h_7 | h_8 | h_9 | h_10 | h_11 => exact (hmode (hsource _ _) h).elim
  case h_12 | h_13 | h_14 | h_28 | h_30 | h_32 | h_33 => exact (hmode (hreg _ _) h).elim
  case h_27 | h_29 | h_31 | h_39 | h_40 => exact (hmode (hregImm _ _) h).elim
  case h_41 =>
    cases h
    refine ⟨rfl, ?_⟩
    simp only [imp_false] at *
    omega
  all_goals cases h

/-- Settles O3: the decoder takes the opcode from those bits, and refuses a word for its opcode by them alone. -/
theorem opcodeIsTopSixBits : Obligations.OpcodeIsTopSixBits := by
  refine ⟨fun w i h => ?_, fun i => ?_, fun w op h => ?_⟩
  · obtain ⟨hcode, -⟩ := reencodes_of_decode h
    exact ⟨by rw [and_opcodeMask, tableMatch_eq, hcode], hcode⟩
  · exact Machine.hasOpcode_of_opField (opField_encode i) (tableMatch_eq i).symm
  · obtain ⟨rfl, hunassigned⟩ := decode_invalidOpcode h
    refine ⟨rfl, fun v hv => ?_⟩
    have hfield : opField v = opField w := hv
    rw [← hfield] at hunassigned ⊢
    exact decode_of_unassigned hunassigned

/-! ### The words that are instructions -/

/-- The modes of each opcode (R108); none where no row has it (R122). -/
def allowedModes (op : Nat) : List Nat :=
  if 0x01 ≤ op ∧ op ≤ 0x0B then [0, 1, 3]
  else if 0x0C ≤ op ∧ op ≤ 0x0E then [0]
  else if 0x0F ≤ op ∧ op ≤ 0x1A then [0, 1, 2, 3]
  else if op = 0x1B ∨ op = 0x1D ∨ op = 0x1F then [0, 1]
  else if op = 0x1C ∨ op = 0x1E ∨ op = 0x20 ∨ op = 0x21 then [0]
  else if 0x22 ≤ op ∧ op ≤ 0x26 then [0, 1, 2, 3]
  else if op = 0x27 ∨ op = 0x28 then [0, 1]
  else []

theorem exists_map_eq_ok {α : Type} {x : Except DecodeError α} {f : α → Instr} :
    (∃ i, x.map f = .ok i) ↔ ∃ a, x = .ok a := by
  cases x <;> simp [Except.map]

/-- A word is an instruction exactly in a mode its opcode allows (R108, R122, R123). -/
theorem exists_decode_iff (w : InstrWord) :
    (∃ i, decode w = .ok i) ↔ (amField w).toNat ∈ allowedModes (opField w).toNat := by
  have hall : (amField w).toNat ∈ [0, 1, 2, 3] := by
    have := (amField w).isLt
    simp only [List.mem_cons, List.not_mem_nil, or_false]
    omega
  unfold decode
  dsimp only
  split
  case h_1 hop | h_2 hop | h_3 hop | h_4 hop | h_5 hop | h_6 hop | h_7 hop | h_8 hop | h_9 hop | h_10 hop | h_11 hop =>
    rw [hop]
    exact exists_map_eq_ok.trans (exists_decodeSource_iff _ _)
  case h_12 hop | h_13 hop | h_14 hop | h_28 hop | h_30 hop | h_32 hop | h_33 hop =>
    rw [hop]
    exact exists_map_eq_ok.trans (exists_decodeReg_iff _ _)
  case h_27 hop | h_29 hop | h_31 hop | h_39 hop | h_40 hop =>
    rw [hop]
    exact exists_map_eq_ok.trans (exists_decodeRegImm_iff _ _)
  case h_41 =>
    simp only [imp_false] at *
    have hnone : allowedModes (opField w).toNat = [] := by
      unfold allowedModes
      iterate 7 rw [if_neg (by omega)]
    simp [hnone]
  all_goals
    rename_i hop
    rw [hop]
    exact ⟨fun _ => hall, fun _ => ⟨_, rfl⟩⟩

/-- Settles O4: the allowed modes row by row, and a step on any other word is the entry of `IOP`. -/
theorem onlyAllowedModesAreInstructions : Obligations.OnlyAllowedModesAreInstructions := by
  refine ⟨fun w => ?_, fun s u w hrun hirq hfetch hnot => ?_⟩
  · have ham : (w >>> 56).toNat % 4 < 4 := Nat.mod_lt _ (by decide)
    rw [exists_decode_iff, opField_toNat, amField_toNat]
    dsimp only
    generalize (w >>> 58).toNat = op
    generalize (w >>> 56).toNat % 4 = am at ham ⊢
    unfold allowedModes
    split_ifs
    case neg =>
      simp only [List.not_mem_nil, false_iff]
      omega
    all_goals
      simp only [List.mem_cons, List.not_mem_nil, or_false]
      constructor <;> omega
  · cases hw : decode w with
    | ok i => exact (hnot i hw).elim
    | error e =>
      have hstep := Machine.step_of_invalid hrun hirq hfetch hw
      refine ⟨hstep, fun t ht => ?_⟩
      obtain ⟨x, hx, rfl⟩ := Machine.closeStep_eq_next.1 (hstep.symm.trans ht)
      exact Machine.enter_ie1 (t := x) hx

/-- Settles O5: eight closed words. -/
theorem workedWordsDecode : Obligations.WorkedWordsDecode := by
  unfold Obligations.WorkedWordsDecode
  decide

end Sys2Proof
end

section
/-! SUPPORT. The statements about one step (spec/60_exceptions.md R240, R262, R264) and about interrupt entry and return (R250 to
R256): what is taken at a boundary, the trap, the ways a delivery ends, and the instructions that enter or leave a vector. -/

namespace Sys2Proof.Machine

/-! ### The step -/

/-- Settles O6: the fetch's frame and the step on a word that decodes. -/
theorem stepRunsTheDecodedInstruction : Obligations.StepRunsTheDecodedInstruction := by
  intro s u w i hrun hirq hfetch hdecode
  obtain ⟨ws, hws, hframe, -⟩ := memFetch_frame hfetch
  exact ⟨⟨ws, hws, hframe⟩, step_of_decoded hrun hirq hfetch hdecode⟩

/-- An instruction that entered an interrupt is not followed by the trap (R264, decision D25). -/
theorem trapAfter_taken {b : Bool} {t : State} (h : t.intTaken = true) : trapAfter b (.next t) = .next t := by
  cases b <;> simp [trapAfter, h]

/-- Settles O8: the trap follows by T as it stood at the start, and by the trace an entry leaves. -/
theorem tracedInstructionIsFollowedByBrk : Obligations.TracedInstructionIsFollowedByBrk := by
  intro s u t w i hrun hirq hfetch hdecode hexec
  have hstep := step_of_decoded hrun hirq hfetch hdecode
  rw [hexec] at hstep
  refine ⟨fun hset hclear => ?_, fun hnot => ?_⟩
  · rw [hstep, hset, trapAfter_set hclear]
  · rcases hnot with hclear | htaken
    · rw [hstep, hclear, trapAfter_clear]
      rfl
    · rw [hstep, trapAfter_taken htaken]
      rfl

/-- A step whose fetch ends early ends as an instruction that began at the boundary does (R240). -/
theorem step_of_fetchStop {s : State} {e : Stop} (hrun : s.run = .running)
    (hirq : acceptedIrq (presentedIrq s) (beginStep s) = none) (hfetch : memFetch (beginStep s) s.i0 = .error e) :
    step s = closeStep (finish (beginStep s) (.error e)) := by
  rw [step_of_running hrun hirq]
  simp only [fetchExecute, beginStep_i0, hfetch]

/-- Settles O9: the fault is entered from the boundary's state, whose `I0` entry saves. -/
theorem fetchFaultSavesTheFetchAddress : Obligations.FetchFaultSavesTheFetchAddress := by
  intro s n code hrun hirq hfetch
  obtain ⟨rfl, hcode⟩ := memFetch_interrupt hfetch
  have hstep := step_of_fetchStop hrun hirq hfetch
  rw [finish_interrupt] at hstep
  refine ⟨rfl, hcode, hstep, fun t ht => ?_⟩
  obtain ⟨x, hx, rfl⟩ := closeStep_eq_next.1 (hstep.symm.trans ht)
  have hie1 := enter_ie1 hx
  exact hie1

/-- What is presented is taken where I is set, running or halted (R240, R262, log 20). -/
theorem acceptedIrq_eq (irq : Option Word) (s : State) :
    acceptedIrq irq s = if s.fr.getLsbD 5 then irq else none := by
  simp [acceptedIrq, Config.hltWakesOnInterrupt, State.flag, getFlag, Flag.bit]

theorem presentedIrq_eq_some {s : State} {n : Word} :
    presentedIrq s = some n ↔ ∃ rest, s.plat.irqInputs = some n :: rest := by
  unfold presentedIrq
  cases s.plat.irqInputs with
  | nil => simp
  | cons x rest => simp

/-- None is taken where none is presented or I is clear. -/
theorem acceptedIrq_eq_none {s : State} :
    acceptedIrq (presentedIrq s) (beginStep s) = none ↔ presentedIrq s = none ∨ s.fr.getLsbD 5 = false := by
  rw [acceptedIrq_eq, show (beginStep s).fr = s.fr from rfl]
  cases s.fr.getLsbD 5 <;> simp

/-- A step looks at its boundary's input alone: where the rest is the same and neither is taken, the steps are. -/
theorem step_congr {s t : State} (hbegin : beginStep s = beginStep t)
    (hs : acceptedIrq (presentedIrq s) (beginStep s) = none) (ht : acceptedIrq (presentedIrq t) (beginStep t) = none) :
    step s = step t := by
  simp only [step, cycle, hs, ht]
  rw [hbegin]

/-- Settles O10: what the boundary accepts is what is presented where I is set. -/
theorem externalInterruptTakenOrMasked : Obligations.ExternalInterruptTakenOrMasked := by
  refine ⟨fun s n hpresent hset hrun => ?_, fun s hclear => ?_, fun s n => presentedIrq_eq_some,
    fun s => acceptedIrq_eq_none, fun s hrun hnone => step_of_running hrun (acceptedIrq_eq_none.2 hnone)⟩
  · refine step_of_irq hrun ?_
    rw [acceptedIrq_eq, hpresent]
    exact if_pos hset
  · exact step_congr rfl (acceptedIrq_eq_none.2 (.inr hclear)) (acceptedIrq_eq_none.2 (.inr hclear))

/-- Settles O11: neither looks at anything but the boundary's input. -/
theorem haltedAndDeadProcessorsWait : Obligations.HaltedAndDeadProcessorsWait := by
  rintro s (hdead | ⟨hhalted, hirq⟩)
  · exact step_of_dead hdead
  · exact step_of_halted hhalted hirq

/-! ### The ways a delivery ends (R255, R256) -/

theorem physRead32_absent {s : State} {pa : Word} (h : entryRegion s.plat pa = .absent) : physRead32 s pa = none := by
  simp [physRead32, h]

theorem physRead32_present {s : State} {pa : Word} (h : entryRegion s.plat pa ≠ .absent) :
    physRead32 s pa = some (physWord s pa, s.tell (readEvents s pa)) := by
  rcases physRead32_spec s pa with ⟨habsent, -⟩ | ⟨-, hread⟩
  · exact (h habsent).elim
  · exact hread

section
variable {n : Word} {code : Byte} {s : State}

/-- A present entry that is not zero is jumped to, wherever it stands (R255). -/
theorem enter_of_present (hp : entryRegion s.plat (s.ivtr + 4#32 * n) ≠ .absent)
    (hz : physWord s (s.ivtr + 4#32 * n) ≠ 0#32) :
    enter n code s = .next (((saveContext code s).tell (readEvents s (s.ivtr + 4#32 * n))).setI0
      (physWord s (s.ivtr + 4#32 * n))) := by
  have hread := physRead32_present (s := saveContext code s) hp
  have hword : physWord (saveContext code s) (s.ivtr + 4#32 * n) = physWord s (s.ivtr + 4#32 * n) := rfl
  simp only [enter, deliver, saveContext_ivtr, hread, hword, hz, if_false]
  rfl

/-- An absent entry is an `NMI(0x00)` (R255, decision D27). -/
theorem enter_of_absent (hp : entryRegion s.plat (s.ivtr + 4#32 * n) = .absent) :
    enter n code s = raiseNmi 0x00#8 (saveContext code s) := by
  have hread := physRead32_absent (s := saveContext code s) hp
  simp only [enter, deliver, saveContext_ivtr, hread]

/-- A present entry that is zero is an `NMI(0x01)`, once the platform is told of the read (R255, log 34). -/
theorem enter_of_zero (hp : entryRegion s.plat (s.ivtr + 4#32 * n) ≠ .absent)
    (hz : physWord s (s.ivtr + 4#32 * n) = 0#32) :
    enter n code s = raiseNmi 0x01#8 ((saveContext code s).tell (readEvents s (s.ivtr + 4#32 * n))) := by
  have hread := physRead32_present (s := saveContext code s) hp
  have hword : physWord (saveContext code s) (s.ivtr + 4#32 * n) = physWord s (s.ivtr + 4#32 * n) := rfl
  simp only [enter, deliver, saveContext_ivtr, hread, hword, hz, if_true]
  rfl

/-- Vector 3 absent: the processor is dead (R256). -/
theorem raiseNmi_of_absent (hp : entryRegion s.plat (s.ivtr + 12#32) = .absent) :
    raiseNmi code s = .next { s with ie0 := code, run := .dead } := by
  have hread := physRead32_absent (s := { s with ie0 := code }) hp
  simp only [raiseNmi, hread]
  rfl

/-- Vector 3 present and zero: the processor is dead, and the platform has been told of the read (R256, log 37). -/
theorem raiseNmi_of_zero (hp : entryRegion s.plat (s.ivtr + 12#32) ≠ .absent)
    (hz : physWord s (s.ivtr + 12#32) = 0#32) :
    raiseNmi code s = .next (({ s with ie0 := code, run := .dead } : State).tell (readEvents s (s.ivtr + 12#32))) := by
  have hread := physRead32_present (s := { s with ie0 := code }) hp
  have hword : physWord { s with ie0 := code } (s.ivtr + 12#32) = physWord s (s.ivtr + 12#32) := rfl
  simp only [raiseNmi, hread, hword, hz, if_true]
  rfl

/-- Vector 3 present and not zero is jumped to (R256). -/
theorem raiseNmi_of_present (hp : entryRegion s.plat (s.ivtr + 12#32) ≠ .absent)
    (hz : physWord s (s.ivtr + 12#32) ≠ 0#32) :
    raiseNmi code s = .next (({ s with ie0 := code, i0 := physWord s (s.ivtr + 12#32) } : State).tell
      (readEvents s (s.ivtr + 12#32))) := by
  have hread := physRead32_present (s := { s with ie0 := code }) hp
  have hword : physWord { s with ie0 := code } (s.ivtr + 12#32) = physWord s (s.ivtr + 12#32) := rfl
  simp only [raiseNmi, hread, hword, hz, if_false]
  rfl

end

/-- Settles O22: the two failed readings of the entry are the two `NMI`s, and each ends by its reading of vector 3. -/
theorem failedDeliveryIsNmiOrDeath : Obligations.FailedDeliveryIsNmiOrDeath := by
  intro n code c s es
  dsimp only
  intro hfailed
  have hnmi : enter n code s = raiseNmi c ((saveContext code s).tell es) := by
    rcases hfailed with ⟨hp, rfl, rfl⟩ | ⟨hp, hz, rfl, rfl⟩
    · rw [enter_of_absent hp, State.tell_nil]
    · exact enter_of_zero hp hz
  refine ⟨fun hp hz => ?_, fun hp => ?_, fun hp hz => ?_, fun a ha => ⟨physWord_ram ha, readEvents_ram ha⟩⟩
  · exact hnmi.trans (raiseNmi_of_present (s := (saveContext code s).tell es) hp hz)
  · exact hnmi.trans (raiseNmi_of_absent (s := (saveContext code s).tell es) hp)
  · exact hnmi.trans (raiseNmi_of_zero (s := (saveContext code s).tell es) hp hz)

/-- Settles O21: entry is the saved context delivered, and each cause is entered by its own vector. -/
theorem entrySavesContextAndJumps : Obligations.EntrySavesContextAndJumps := by
  refine ⟨fun n code s => ⟨rfl, fun hr hz => enter_of_ram hr hz, fun hp hz => enter_of_present hp hz⟩,
    fun s u w e hfetch hw => ?_, fun code s => rfl, fun code s => rfl, fun s h => trapAfter_set h, fun n s => rfl,
    fun n s hpresent hset hrun => ?_⟩
  · simp only [fetchExecute, hfetch, hw, advance, State.setI0, memFetch_i0 hfetch]
  · obtain ⟨htaken, -⟩ := externalInterruptTakenOrMasked
    exact htaken s n hpresent hset (by rw [hrun]; decide)

/-! ### What an interrupted instruction wrote -/

/-- Every event is the read of a byte in a device window. -/
def DeviceReads (p : Platform) (es : List IoEvent) : Prop :=
  ∀ e ∈ es, ∃ (pa : Word) (b : Byte), e = .memRead pa b ∧ regionOf p pa = .device

theorem DeviceReads.append {p : Platform} {es fs : List IoEvent} (h : DeviceReads p es) (k : DeviceReads p fs) :
    DeviceReads p (es ++ fs) := by
  intro e he
  rcases List.mem_append.1 he with he | he
  · exact h e he
  · exact k e he

theorem readEvents_deviceReads (s : State) (pa : Word) : DeviceReads s.plat (readEvents s pa) := by
  intro e he
  simp only [readEvents, List.mem_map, List.mem_filter, decide_eq_true_eq] at he
  obtain ⟨a, ⟨-, ha⟩, rfl⟩ := he
  exact ⟨a, _, rfl, ha⟩

/-- What a failed delivery tells the platform is what reading vector 3 gave in device windows. -/
theorem raiseNmi_deviceReads (code : Byte) (s : State) :
    ∃ (run : RunState) (i0 : Word) (es : List IoEvent), DeviceReads s.plat es ∧
      raiseNmi code s = .next (({ s with ie0 := code, i0 := i0, run := run } : State).tell es) := by
  have hnone : DeviceReads s.plat [] := fun e he => by cases he
  by_cases hp : entryRegion s.plat (s.ivtr + 12#32) = .absent
  · exact ⟨.dead, s.i0, [], hnone, raiseNmi_of_absent hp⟩
  · by_cases hz : physWord s (s.ivtr + 12#32) = 0#32
    · exact ⟨.dead, s.i0, _, readEvents_deviceReads s _, raiseNmi_of_zero hp hz⟩
    · exact ⟨s.run, _, _, readEvents_deviceReads s _, raiseNmi_of_present hp hz⟩

/-- What an entry tells the platform is what reading the IVT gave in device windows (R255, R256, log 34). -/
theorem enter_deviceReads (n : Word) (code : Byte) (s : State) :
    ∃ (c : Byte) (run : RunState) (i0 : Word) (es : List IoEvent), DeviceReads s.plat es ∧
      enter n code s = .next (({ saveContext code s with ie0 := c, i0 := i0, run := run } : State).tell es) := by
  by_cases hp : entryRegion s.plat (s.ivtr + 4#32 * n) = .absent
  · obtain ⟨run, i0, es, hes, hnmi⟩ := raiseNmi_deviceReads 0x00#8 (saveContext code s)
    exact ⟨_, run, i0, es, hes, (enter_of_absent hp).trans hnmi⟩
  · by_cases hz : physWord s (s.ivtr + 4#32 * n) = 0#32
    · obtain ⟨run, i0, es, hes, hnmi⟩ :=
        raiseNmi_deviceReads 0x01#8 ((saveContext code s).tell (readEvents s (s.ivtr + 4#32 * n)))
      refine ⟨0x01#8, run, i0, es ++ readEvents s (s.ivtr + 4#32 * n), .append hes (readEvents_deviceReads s _), ?_⟩
      rw [enter_of_zero hp hz, hnmi, ← State.tell_tell]
      rfl
    · exact ⟨code, .running, _, _, readEvents_deviceReads s _, enter_of_present hp hz⟩

/-- Settles O18: the instruction ended in an entry from the state it began in. -/
theorem interruptedInstructionWroteNothing : Obligations.InterruptedInstructionWroteNothing := by
  intro i s t h0 h htaken
  rcases exec_cases_intTaken h h0 with ⟨hclear, -⟩ | ⟨-, n, c, henter⟩
  · rw [htaken] at hclear
    cases hclear
  · obtain ⟨code, run, i0, es, hes, hnext⟩ := enter_deviceReads n c s
    rw [hnext] at henter
    cases henter
    exact ⟨es, hes, rfl⟩

/-! ### The instructions that enter or leave a vector -/

/-- Settles O23: the restored context, past the check of the mode. -/
theorem iretRestoresTheSavedState : Obligations.IretRestoresTheSavedState := by
  intro s hm
  rw [exec_eq_finish, effect, requireSupervisor_of_supervisor hm, act_ok_bind, finish_ok, restoreContext]

/-- `SWI` on an operand that can be read is the entry of its vector (R226). -/
theorem exec_swi_of_value {src : RegImm} {n : Word} {s : State} (h : regImmValue s src = .ok n) :
    exec (.swi src) s = enter n 0x00#8 s := by
  rw [exec_eq_finish, effect, h, act_ok_bind, finish_interrupt]

/-- Settles O25: `SWI` is the entry, and the entry jumps by the IVT. -/
theorem swiEntersItsVector : Obligations.SwiEntersItsVector := by
  intro src n s hvalue
  have hswi := exec_swi_of_value hvalue
  exact ⟨hswi, fun hp hz => hswi.trans (enter_of_present hp hz), fun hr => ⟨physWord_ram hr, readEvents_ram hr⟩⟩

/-- Settles O58: `HLT` has one effect. -/
theorem hltHaltsInEitherMode : Obligations.HltHaltsInEitherMode := by
  intro s
  rw [exec_eq_finish, effect, finish_ok, State.setRun]

end Sys2Proof.Machine
end

section
/-! SUPPORT. The statements about register fields (spec/30_encoding.md R114, R116), special registers
(spec/41_special_register_moves.md) and privileged instructions (spec/60_exceptions.md R282). -/

namespace Sys2Proof.Machine

/-! ### Register fields outside their class (R116) -/

/-- `IPF(0x03)`, what a register field outside its class raises. -/
def badRegister : Stop := integrityFault 0x03#8

theorem gpr_of_notGpr {n : Nat} (h : isGprNumber n = false) : gpr n = .error badRegister := by
  simp only [isGprNumber, decide_eq_false_iff_not] at h
  exact gpr_of_ge (by omega)

/-- A register field and a check after it: where either fails the part ends with `IPF(0x03)`. -/
theorem gpr_bind_of_illFormed {α : Type} {n : Nat} {ok : Bool} {f : Fin 32 → Act α}
    (h : (isGprNumber n && ok) = false) (hf : ok = false → ∀ d, f d = .error badRegister) :
    (gpr n >>= f) = .error badRegister := by
  cases hn : isGprNumber n with
  | false => rw [gpr_of_notGpr hn, act_error_bind]
  | true =>
    rw [hn, Bool.true_and] at h
    have hlt : n < 32 := by simpa [isGprNumber] using hn
    rw [gpr_of_eq (d := ⟨n, hlt⟩) rfl, act_ok_bind, hf h]

section
variable (s : State)

theorem sourceValue_of_illFormed {src : Source} (h : src.wellFormed = false) :
    sourceValue s src = .error badRegister := by
  cases src with
  | reg rs => rw [sourceValue, gpr_of_notGpr h, act_error_bind]
  | imm i => cases h
  | addr i => cases h

theorem regImmValue_of_illFormed {src : RegImm} (h : src.wellFormed = false) :
    regImmValue s src = .error badRegister := by
  cases src with
  | reg rs => rw [regImmValue, gpr_of_notGpr h, act_error_bind]
  | imm i => cases h

theorem targetValue_of_illFormed {tgt : Target} (h : tgt.wellFormed = false) :
    targetValue s tgt = .error badRegister := by
  cases tgt with
  | reg rs => rw [targetValue, gpr_of_notGpr h, act_error_bind]
  | imm i => cases h
  | regOff rs ro => exact gpr_bind_of_illFormed h fun hro d => by rw [gpr_of_notGpr hro, act_error_bind]
  | immOff i ro => rw [targetValue, gpr_of_notGpr h, act_error_bind]

/-- A number of no readable 8-bit register is refused by `ZEXT` (R171). -/
theorem readForZext_of_illFormed {n : Nat} (h : isSpecial8Number n = false) :
    readForZext s n = .error badRegister := by
  have hnone : ∀ r, specialOfNumber n = some r → readSpecial8 s r = none := by
    intro r hr
    unfold specialOfNumber at hr
    split at hr <;> simp_all [isSpecial8Number, Config.ie4Regnum] <;> subst hr <;> rfl
  unfold readForZext
  cases hn : specialOfNumber n with
  | none => rfl
  | some r =>
    simp only [hnone r hn]
    rfl

/-- A number of no readable 32-bit register is refused by `MFS` (R172). -/
theorem readForMfs_of_illFormed {n : Nat} (h : isSpecial32Number n = false) : readForMfs s n = .error badRegister := by
  have hnone : ∀ r, specialOfNumber n = some r → readSpecial32 s r = none := by
    intro r hr
    unfold specialOfNumber at hr
    split at hr <;> simp_all [isSpecial32Number, Config.ie4Regnum] <;> subst hr <;> rfl
  unfold readForMfs
  cases hn : specialOfNumber n with
  | none => rfl
  | some r =>
    simp only [hnone r hn]
    rfl

/-- A number of no writable special register is refused by `MTS` (R173). -/
theorem moveToSpecial_of_notWritable {rd : Nat} (rs : Nat) (h : isWritableSpecialNumber rd = false) :
    moveToSpecial s rd rs = .error badRegister := by
  have hnone : ∀ r v, specialOfNumber rd = some r → writeSpecial s r v = none := by
    intro r v hr
    unfold specialOfNumber at hr
    split at hr <;> simp_all [isWritableSpecialNumber, isSpecial32Number, Config.ie4Regnum] <;> subst hr <;> rfl
  unfold moveToSpecial
  cases hn : specialOfNumber rd with
  | none => rfl
  | some r =>
    dsimp only
    cases hg : gpr rs with
    | error e => rw [act_error_bind, (gpr_eq_error.1 hg).2, badRegister]
    | ok g =>
      rw [act_ok_bind]
      simp only [hnone r (s.reg g) hn]
      rfl

theorem moveToSpecial_of_illFormed {rd rs : Nat} (h : (isWritableSpecialNumber rd && isGprNumber rs) = false) :
    moveToSpecial s rd rs = .error badRegister := by
  cases hrd : isWritableSpecialNumber rd with
  | false => exact moveToSpecial_of_notWritable s rs hrd
  | true =>
    rw [hrd, Bool.true_and] at h
    unfold moveToSpecial
    cases specialOfNumber rd with
    | none => rfl
    | some r => exact congrArg (· >>= _) (gpr_of_notGpr h)

/-- A target outside its class ends every part that begins with it. -/
theorem targetValue_bind_of_illFormed {α : Type} {tgt : Target} (f : Word → Act α) (h : tgt.wellFormed = false) :
    (targetValue s tgt >>= f) = .error badRegister := by
  rw [targetValue_of_illFormed s h, act_error_bind]

theorem regImmValue_bind_of_illFormed {α : Type} {src : RegImm} (f : Word → Act α) (h : src.wellFormed = false) :
    (regImmValue s src >>= f) = .error badRegister := by
  rw [regImmValue_of_illFormed s h, act_error_bind]

theorem gpr_bind_of_notGpr {α : Type} {n : Nat} (f : Fin 32 → Act α) (h : isGprNumber n = false) :
    (gpr n >>= f) = .error badRegister := by
  rw [gpr_of_notGpr h, act_error_bind]

theorem arith_of_illFormed (op : Word → Word → Byte → Word × Byte) {rd : BitVec 8} {src : Source}
    (h : (isGprNumber rd.toNat && src.wellFormed) = false) : arith op rd src s = .error badRegister :=
  gpr_bind_of_illFormed h fun hsrc d => by rw [sourceValue_of_illFormed s hsrc, act_error_bind]

/-- An ill-formed instruction's effect ends with `IPF(0x03)`, past the check of the mode where it is privileged (R126). -/
theorem effect_of_illFormed {i : Instr} (h : i.wellFormed = false)
    (hm : s.mode = .supervisor ∨ ((∀ tgt, i ≠ .kcall tgt) ∧ (∀ src, i ≠ .kpush src) ∧ ∀ rs, i ≠ .kpop rs)) :
    effect i s = .error badRegister := by
  cases i
  case add | sub | mul | div | and | or | xor | lsl | lsr | mov => exact arith_of_illFormed s _ h
  case cmp => exact gpr_bind_of_illFormed h fun hsrc d => by rw [sourceValue_of_illFormed s hsrc, act_error_bind]
  case zext => exact gpr_bind_of_illFormed h fun hrs d => by rw [readForZext_of_illFormed s hrs, act_error_bind]
  case mfs => exact gpr_bind_of_illFormed h fun hrs d => by rw [readForMfs_of_illFormed s hrs, act_error_bind]
  case mts => exact moveToSpecial_of_illFormed s h
  case ldr | str => exact gpr_bind_of_illFormed h fun hea d => targetValue_bind_of_illFormed s _ hea
  case jmp | jar | beq | bne | bz | bnz | bg | bl | call => exact targetValue_bind_of_illFormed s _ h
  case push | swi => exact regImmValue_bind_of_illFormed s _ h
  case pop | inc | dec => exact gpr_bind_of_notGpr _ h
  case portIn | portOut => exact gpr_bind_of_illFormed h fun hport d => regImmValue_bind_of_illFormed s _ hport
  case kcall tgt =>
    have hsup := hm.resolve_right fun hother => hother.1 tgt rfl
    exact (effect_of_supervisor (act := callOn .kernel tgt s) rfl hsup).trans (targetValue_bind_of_illFormed s _ h)
  case kpush src =>
    have hsup := hm.resolve_right fun hother => hother.2.1 src rfl
    exact (effect_of_supervisor (act := pushOn .kernel src s) rfl hsup).trans (regImmValue_bind_of_illFormed s _ h)
  case kpop rs =>
    have hsup := hm.resolve_right fun hother => hother.2.2 rs rfl
    exact (effect_of_supervisor (act := popOn .kernel rs s) rfl hsup).trans (gpr_bind_of_notGpr _ h)
  case ret | kret | iret | nop | hlt => cases h

end

/-- Settles O20: the fault is raised by the effect, so it is entered from the state the instruction began in. -/
theorem illFormedInstructionRaisesIpf3 : Obligations.IllFormedInstructionRaisesIpf3 := by
  intro i s h hm
  rw [exec_eq_finish, effect_of_illFormed s h hm, badRegister, integrityFault, finish_interrupt]

/-- Settles O32: each form is its register fields, checked in order, and the sum. -/
theorem targetForms : Obligations.TargetForms := by
  intro s rs i ro
  have hbad {n : Nat} (h : 32 ≤ n) : gpr n = .error (.interrupt 2#32 0x03#8) := gpr_of_ge h
  refine ⟨fun r hr => ?_, rfl, fun r o hr ho => ?_, fun o ho => ?_, fun h => ?_, fun h => ?_, fun h => ?_⟩
  · rw [targetValue, gpr_of_eq hr, act_ok_bind]
  · rw [targetValue, gpr_of_eq hr, act_ok_bind, gpr_of_eq ho, act_ok_bind]
  · rw [targetValue, gpr_of_eq ho, act_ok_bind]
  · rw [targetValue, hbad h, act_error_bind]
  · rw [targetValue]
    by_cases hrs : rs.toNat < 32
    · rw [gpr_of_eq (d := ⟨rs.toNat, hrs⟩) rfl, act_ok_bind, hbad (h.resolve_left (by omega)), act_error_bind]
    · rw [hbad (by omega), act_error_bind]
  · rw [targetValue, hbad h, act_error_bind]

/-! ### The special registers (R22, R42, R171 to R173) -/

section
variable {s : State} {rd : BitVec 8} {d : Fin 32} {rs : Word}

theorem mode_ne_user : s.mode ≠ .user ↔ s.mode = .supervisor := by cases s.mode <;> simp

/-- What `ZEXT` reads, number by number (R42, R171). -/
theorem readForZext_eq (s : State) (rs : Word) :
    readForZext s rs.toNat =
      if rs = 0x23#32 then .ok s.fr
      else if rs = 0x2B#32 then .ok 0x41#8
      else if rs = 0x25#32 ∧ s.mode = .supervisor then .ok s.ie0
      else if rs = 0x28#32 ∧ s.mode = .supervisor then .ok s.ie3
      else .error badRegister := by
  split_ifs with hfr hprr hie0 hie3
  · rw [hfr]
    simp [readForZext, specialOfNumber, readSpecial8, userReads]
  · rw [hprr]
    simp [readForZext, specialOfNumber, readSpecial8, userReads, Config.prr]
  · rw [hie0.1]
    simp [readForZext, specialOfNumber, readSpecial8, hie0.2]
  · rw [hie3.1]
    simp [readForZext, specialOfNumber, readSpecial8, hie3.2]
  · by_cases hrs : rs = 0x25#32 ∨ rs = 0x28#32
    · have hm : s.mode = .user := by
        by_contra hm
        exact hrs.elim (fun h => hie0 ⟨h, mode_ne_user.1 hm⟩) fun h => hie3 ⟨h, mode_ne_user.1 hm⟩
      rcases hrs with rfl | rfl <;> simp [readForZext, specialOfNumber, readSpecial8, userReads, hm, badRegister]
    · refine readForZext_of_illFormed s ?_
      simp only [BitVec.toNat_eq, BitVec.toNat_ofNat] at hfr hprr hrs
      simp [isSpecial8Number]
      omega

/-- Settles O42: `ZEXT` writes what it reads, zero-extended. -/
theorem zextReadsTheByteRegisters : Obligations.ZextReadsTheByteRegisters := by
  intro s rd d rs hd
  have hexec : exec (.zext rd rs) s =
      finish s (readForZext s rs.toNat >>= fun b => .ok (s.setReg d (BitVec.ofNat 32 b.toNat))) := by
    rw [exec_eq_finish, effect, gpr_of_eq hd, act_ok_bind]
    simp only [zextByte, Config.zextMode, BitVec.ofNat_toNat]
  rw [hexec, readForZext_eq]
  dsimp only
  split_ifs <;> rfl

/-- Only 0x21 names `S0` (R22). -/
theorem eq_of_specialOfNumber_s0 {n : Nat} (h : specialOfNumber n = some .s0) : n = 0x21 := by
  unfold specialOfNumber at h
  split at h <;> simp_all [Config.ie4Regnum]

/-- In user mode `MFS` reads `S0` and `MSR` alone (R42, R172). -/
theorem readForMfs_of_user (hm : s.mode = .user) (hs0 : rs ≠ 0x21#32) (hmsr : rs ≠ 0x2C#32) :
    readForMfs s rs.toNat = .error badRegister := by
  unfold readForMfs
  cases hr : specialOfNumber rs.toNat with
  | none => rfl
  | some r =>
    cases r
    case s0 => exact (hs0 (BitVec.eq_of_toNat_eq (eq_of_specialOfNumber_s0 hr))).elim
    case msr => exact (hmsr (BitVec.eq_of_toNat_eq (eq_of_specialOfNumber_msr hr))).elim
    all_goals simp [readSpecial32, userReads, hm, badRegister]

/-- What `MFS` reads, number by number (R42, R172). -/
theorem readForMfs_eq (s : State) (rs : Word) :
    readForMfs s rs.toNat =
      if rs = 0x21#32 then .ok s.s0
      else if rs = 0x2C#32 then .ok s.msr
      else if s.mode = .user then .error badRegister
      else if rs = 0x22#32 then .ok s.s1
      else if rs = 0x24#32 then .ok s.ivtr
      else if rs = 0x26#32 then .ok s.ie1
      else if rs = 0x27#32 then .ok s.ie2
      else if rs = 0x29#32 then .ok s.tpdr
      else if rs = 0x2A#32 then .ok s.tsp
      else .error badRegister := by
  have named {r : SpecialReg} {v : Word} (hr : specialOfNumber rs.toNat = some r) (hv : readSpecial32 s r = some v)
      (hm : s.mode = .user → userReads r = true) : readForMfs s rs.toNat = .ok v := by
    simp only [readForMfs, hr, hv]
    cases hmode : s.mode with
    | supervisor => rfl
    | user => simp [hm hmode]
  split_ifs with hs0 hmsr hm hs1 hivtr hie1 hie2 htpdr htsp
  · exact named (r := .s0) (by rw [hs0]; rfl) rfl fun _ => rfl
  · exact named (r := .msr) (by rw [hmsr]; rfl) rfl fun _ => rfl
  · exact readForMfs_of_user hm hs0 hmsr
  · exact named (r := .s1) (by rw [hs1]; rfl) rfl fun h => (hm h).elim
  · exact named (r := .ivtr) (by rw [hivtr]; rfl) rfl fun h => (hm h).elim
  · exact named (r := .ie1) (by rw [hie1]; rfl) rfl fun h => (hm h).elim
  · exact named (r := .ie2) (by rw [hie2]; rfl) rfl fun h => (hm h).elim
  · exact named (r := .tpdr) (by rw [htpdr]; rfl) rfl fun h => (hm h).elim
  · exact named (r := .tsp) (by rw [htsp]; rfl) rfl fun h => (hm h).elim
  · refine readForMfs_of_illFormed s ?_
    simp only [BitVec.toNat_eq, BitVec.toNat_ofNat] at hs0 hmsr hs1 hivtr hie1 hie2 htpdr htsp
    simp [isSpecial32Number, Config.ie4Regnum]
    omega

/-- Settles O43: `MFS` writes what it reads. -/
theorem mfsReadsTheWordRegisters : Obligations.MfsReadsTheWordRegisters := by
  intro s rd d rs hd
  have hexec : exec (.mfs rd rs) s = finish s (readForMfs s rs.toNat >>= fun v => .ok (s.setReg d v)) := by
    rw [exec_eq_finish, effect, gpr_of_eq hd, act_ok_bind]
  rw [hexec, readForMfs_eq]
  dsimp only
  split_ifs <;> rfl

/-- `MTS` to a named register in supervisor mode is its write (R173). -/
theorem exec_mts_of_supervisor {r : SpecialReg} {g : Fin 32} {t : State} (hrd : specialOfNumber rd.toNat = some r)
    (hrs : rs.toNat = g.val) (hwrite : writeSpecial s r (s.reg g) = some t)
    (hm : s.mode = .user → userWriteFault r = none) : exec (.mts rd rs) s = .next t := by
  have hmove : moveToSpecial s rd.toNat rs.toNat = .ok t := by
    simp only [moveToSpecial, hrd, gpr_of_eq hrs, act_ok_bind, hwrite]
    cases hmode : s.mode with
    | supervisor => rfl
    | user => rw [hm hmode]
  rw [exec_eq_finish, effect, hmove, finish_ok]

/-- `MTS` from user mode to a register it may not write raises `IPF(0x04)` (R41, R42, log 11). -/
theorem exec_mts_of_user {r : SpecialReg} {g : Fin 32} {t : State} (hrd : specialOfNumber rd.toNat = some r)
    (hrs : rs.toNat = g.val) (hwrite : writeSpecial s r (s.reg g) = some t) (hm : s.mode = .user)
    (hfault : userWriteFault r = some 0x04#8) : exec (.mts rd rs) s = enter 2#32 0x04#8 s := by
  have hmove : moveToSpecial s rd.toNat rs.toNat = .error (integrityFault 0x04#8) := by
    simp only [moveToSpecial, hrd, gpr_of_eq hrs, act_ok_bind, hwrite, hm, hfault]
  rw [exec_eq_finish, effect, hmove, integrityFault, finish_interrupt]

end

/-- Every register between `S1` and `MSR` but `PRR` is written by its own number, and not by user mode (R22, R42). -/
theorem special_of_restricted {rd : BitVec 8} (s : State) (v : Word)
    (h : ¬ (rd.toNat < 0x22 ∨ rd = 0x2B#8 ∨ 0x2C < rd.toNat)) :
    ∃ r t, specialOfNumber rd.toNat = some r ∧ writeSpecial s r v = some t ∧ userWriteFault r = some 0x04#8 := by
  simp only [BitVec.toNat_eq, BitVec.toNat_ofNat, not_or, Nat.not_lt] at h
  obtain ⟨hlo, hprr, hhi⟩ := h
  generalize rd.toNat = n at hlo hprr hhi ⊢
  obtain hbelow | rfl : n ≤ 0x2A ∨ n = 0x2C := by omega
  · interval_cases n <;> exact ⟨_, _, rfl, rfl, rfl⟩
  · exact ⟨_, _, rfl, rfl, rfl⟩

/-- Settles O44: the number names its register, whose write or refusal follows by the mode. -/
theorem mtsWritesTheSpecialRegister : Obligations.MtsWritesTheSpecialRegister := by
  intro s rd rs g hg
  dsimp only
  rw [show BitVec.ofNat 8 (s.reg g).toNat = (s.reg g).setWidth 8 from BitVec.ofNat_toNat _ _]
  by_cases hs0 : rd = 0x21#8
  · rw [if_pos hs0]
    exact exec_mts_of_supervisor (r := .s0) (by rw [hs0]; rfl) hg rfl fun _ => rfl
  rw [if_neg hs0]
  by_cases hnone : rd.toNat < 0x22 ∨ rd = 0x2B#8 ∨ 0x2C < rd.toNat
  · have hbad : isWritableSpecialNumber rd.toNat = false := by
      simp only [BitVec.toNat_eq, BitVec.toNat_ofNat] at hs0 hnone
      simp [isWritableSpecialNumber, isSpecial32Number, Config.ie4Regnum]
      omega
    rw [if_pos hnone, exec_eq_finish, effect, moveToSpecial_of_notWritable s _ hbad, badRegister, integrityFault,
      finish_interrupt]
  rw [if_neg hnone]
  by_cases hm : s.mode = .user
  · obtain ⟨r, t, hr, hwrite, hfault⟩ := special_of_restricted s (s.reg g) hnone
    rw [if_pos hm]
    exact exec_mts_of_user hr hg hwrite hm hfault
  rw [if_neg hm]
  split_ifs with hs1 hfr hivtr hie0 hie1 hie2 hie3 htpdr htsp
  · exact exec_mts_of_supervisor (r := .s1) (by rw [hs1]; rfl) hg rfl fun h => (hm h).elim
  · exact exec_mts_of_supervisor (r := .fr) (by rw [hfr]; rfl) hg rfl fun h => (hm h).elim
  · exact exec_mts_of_supervisor (r := .ivtr) (by rw [hivtr]; rfl) hg rfl fun h => (hm h).elim
  · exact exec_mts_of_supervisor (r := .ie0) (by rw [hie0]; rfl) hg rfl fun h => (hm h).elim
  · exact exec_mts_of_supervisor (r := .ie1) (by rw [hie1]; rfl) hg rfl fun h => (hm h).elim
  · exact exec_mts_of_supervisor (r := .ie2) (by rw [hie2]; rfl) hg rfl fun h => (hm h).elim
  · exact exec_mts_of_supervisor (r := .ie3) (by rw [hie3]; rfl) hg rfl fun h => (hm h).elim
  · exact exec_mts_of_supervisor (r := .tpdr) (by rw [htpdr]; rfl) hg rfl fun h => (hm h).elim
  · exact exec_mts_of_supervisor (r := .tsp) (by rw [htsp]; rfl) hg rfl fun h => (hm h).elim
  · have hmsr : rd.toNat = 0x2C := by
      simp only [BitVec.toNat_eq, BitVec.toNat_ofNat] at *
      omega
    exact exec_mts_of_supervisor (r := .msr) (by rw [hmsr]; rfl) hg rfl fun h => (hm h).elim

end Sys2Proof.Machine
end

section
/-! SUPPORT. The statements about transfers (spec/43_control_transfer.md), `STR` (spec/42_load_store.md), ports
(spec/47_port_io.md) and the instructions user mode may and may not run (spec/60_exceptions.md R282). -/

namespace Sys2Proof.Machine

/-! ### Transfers -/

/-- Settles O48: the target is computed first, from the state `JAR` began in. -/
theorem jarSavesTheReturnAddress : Obligations.JarSavesTheReturnAddress := by
  intro tgt s t ht
  rw [exec_eq_finish, effect, ht, act_ok_bind, finish_ok]
  rfl

section
variable {i : Instr} {cond : Bool} {tgt : Target} {s : State}

/-- An instruction that is a branch goes to its target where its condition holds, else on (R190). -/
theorem exec_of_branchIf (he : effect i s = branchIf cond tgt s) {t : Word} (ht : targetValue s tgt = .ok t) :
    exec i s = .next { s with i0 := if cond then t else s.i0 } := by
  rw [exec_eq_finish, he, branchIf, ht, act_ok_bind, finish_ok]
  cases cond <;> rfl

/-- A branch to a target that names no general register raises `IPF(0x03)`, whether or not it would be made (R190). -/
theorem exec_of_branchIf_badTarget (he : effect i s = branchIf cond tgt s) {e : Stop}
    (ht : targetValue s tgt = .error e) : exec i s = enter 2#32 0x03#8 s := by
  rw [exec_eq_finish, he, branchIf, ht, act_error_bind, targetValue_error ht, integrityFault, finish_interrupt]

end

/-- Settles O49: each of the six is the branch on its one flag. -/
theorem branchesTestOneFlag : Obligations.BranchesTestOneFlag := by
  intro tgt s
  refine ⟨fun t ht => ?_, fun e ht i hi => ?_, ?_, ?_, ?_, ?_, ?_, ?_⟩
  · exact ⟨exec_of_branchIf (cond := s.flag .c) rfl ht, exec_of_branchIf (cond := !s.flag .c) rfl ht,
      exec_of_branchIf (cond := s.flag .z) rfl ht, exec_of_branchIf (cond := !s.flag .z) rfl ht,
      exec_of_branchIf (cond := s.flag .e) rfl ht, exec_of_branchIf (cond := !s.flag .e) rfl ht⟩
  · have he : ∃ cond, effect i s = branchIf cond tgt s := by
      simp only [List.mem_cons, List.not_mem_nil, or_false] at hi
      obtain rfl | rfl | rfl | rfl | rfl | rfl := hi <;> exact ⟨_, rfl⟩
    obtain ⟨cond, he⟩ := he
    exact exec_of_branchIf_badTarget he ht
  · exact hasOpcode_of_opField (opField_encode _) (tableMatch_eq _).symm
  · exact hasOpcode_of_opField (opField_encode _) (tableMatch_eq _).symm
  · exact hasOpcode_of_opField (opField_encode _) (tableMatch_eq _).symm
  · exact hasOpcode_of_opField (opField_encode _) (tableMatch_eq _).symm
  · exact hasOpcode_of_opField (opField_encode _) (tableMatch_eq _).symm
  · exact hasOpcode_of_opField (opField_encode _) (tableMatch_eq _).symm

/-- Settles O51: in supervisor mode `KCALL` is the call on the kernel stack, which ends by its write or by the write's page
fault. -/
theorem kcallPushesOnTheKernelStack : Obligations.KcallPushesOnTheKernelStack := by
  intro tgt s hm
  have hcall : effect (.kcall tgt) s = callOn .kernel tgt s := effect_of_supervisor rfl hm
  refine ⟨fun t u ws ht hws hw => ⟨?_, memWrite_of_walks hws hw⟩, fun t n c ht hw => ?_⟩
  · rw [exec_eq_finish, hcall, callOn_of_write ht hw, finish_ok]
    rfl
  · obtain ⟨rfl, hc⟩ := memWrite_interrupt hw
    refine ⟨rfl, hc, ?_⟩
    rw [exec_eq_finish, hcall, callOn_of_stop ht hw, finish_interrupt]

/-! ### Stores -/

/-- Past the checks of its register fields, `STR` is the write of its register at its effective address (R182). -/
theorem effect_str_of_address {s : State} {rd : BitVec 8} {d : Fin 32} {ea : Target} {a : Word} (hd : rd.toNat = d.val)
    (ha : targetValue s ea = .ok a) : effect (.str rd ea) s = memWrite s a (s.reg d) := by
  rw [effect, gpr_of_eq hd, act_ok_bind, ha, act_ok_bind]

/-- Settles O46: `STR` ends by its write or by the write's page fault. -/
theorem strStoresTheWord : Obligations.StrStoresTheWord := by
  intro s rd d ea a hd ha
  have hstr := effect_str_of_address hd ha
  refine ⟨fun u ws hws hw => ⟨?_, memWrite_of_walks hws hw⟩, fun n c hw => ?_⟩
  · rw [exec_eq_finish, hstr, hw, finish_ok]
  · obtain ⟨rfl, hc⟩ := memWrite_interrupt hw
    refine ⟨rfl, hc, ?_⟩
    rw [exec_eq_finish, hstr, hw, finish_interrupt]

/-! ### Ports (R92, R235 to R237) -/

theorem requirePort_of_permitted {s : State} {port : Word} (h : ioPermitted s port = true) :
    requirePort s port = .ok () := by rw [requirePort, if_pos h]

theorem requirePort_of_refused {s : State} {port : Word} (h : ioPermitted s port = false) :
    requirePort s port = .error (integrityFault 0x01#8) := by
  rw [requirePort, if_neg (by simp [h])]

theorem ioPermitted_of_supervisor {s : State} (h : s.mode = .supervisor) (port : Word) : ioPermitted s port = true := by
  simp [ioPermitted, h]

theorem ioPermitted_of_user {s : State} (h : s.mode = .user) (port : Word) :
    ioPermitted s port = inRanges s.plat.userPorts port.toNat := by simp [ioPermitted, h]

theorem inRanges_eq_true {rs : List (Nat × Nat)} {n : Nat} : inRanges rs n = true ↔ ∃ r ∈ rs, r.1 ≤ n ∧ n ≤ r.2 := by
  simp [inRanges]

/-- User mode is permitted the ports in the ranges of the platform (R92, log 17). -/
theorem ioPermitted_user_iff {s : State} (h : s.mode = .user) (port : Word) :
    ioPermitted s port = true ↔ ∃ r ∈ s.plat.userPorts, r.1 ≤ port.toNat ∧ port.toNat ≤ r.2 := by
  rw [ioPermitted_of_user h, inRanges_eq_true]

/-- The first answer lined up for a port is found wherever it stands, and only it is used up (R92, log 18). -/
theorem answer_of_first {pre more : List (Word × Word)} {port x : Word} (h : ∀ y, (port, y) ∉ pre) :
    findAnswer (pre ++ (port, x) :: more) port = some x ∧
      dropAnswer (pre ++ (port, x) :: more) port = pre ++ more := by
  induction pre with
  | nil => simp [findAnswer, dropAnswer]
  | cons a pre ih =>
    obtain ⟨p, v⟩ := a
    have hne : p ≠ port := fun hp => h v (by simp [hp])
    obtain ⟨hfind, hdrop⟩ := ih fun y hy => h y (by simp [hy])
    simp [findAnswer, dropAnswer, hne, hfind, hdrop]

/-- Where none is lined up for the port, none is used up. -/
theorem dropAnswer_of_none {answers : List (Word × Word)} {port : Word} (h : ∀ x, (port, x) ∉ answers) :
    dropAnswer answers port = answers := by
  induction answers with
  | nil => rfl
  | cons a answers ih =>
    obtain ⟨p, v⟩ := a
    have hne : p ≠ port := fun hp => h v (by simp [hp])
    simp [dropAnswer, hne, ih fun x hx => h x (by simp [hx])]

section
variable {s : State} {rd : BitVec 8} {d : Fin 32} {port : RegImm} {p : Word}

/-- `IN` of a permitted port takes the platform's answer (R236). -/
theorem exec_portIn_of_permitted (hd : rd.toNat = d.val) (hp : regImmValue s port = .ok p)
    (hio : ioPermitted s p = true) :
    exec (.portIn rd port) s = .next ((portRead s p).2.setReg d (portRead s p).1) := by
  rw [exec_eq_finish, effect, gpr_of_eq hd, act_ok_bind, hp, act_ok_bind, requirePort_of_permitted hio, act_ok_bind,
    finish_ok]

/-- `OUT` of a permitted port hands the platform its register (R237). -/
theorem exec_portOut_of_permitted (hd : rd.toNat = d.val) (hp : regImmValue s port = .ok p)
    (hio : ioPermitted s p = true) : exec (.portOut rd port) s = .next (portWrite s p (s.reg d)) := by
  rw [exec_eq_finish, effect, gpr_of_eq hd, act_ok_bind, hp, act_ok_bind, requirePort_of_permitted hio, act_ok_bind,
    finish_ok]

/-- A port instruction: the check of its registers, then of the port, then what it does (R235). -/
def portAccess (rd : BitVec 8) (port : RegImm) (s : State) (f : Fin 32 → Word → State) : Act State := do
  let d ← gpr rd.toNat
  let p ← regImmValue s port
  requirePort s p
  .ok (f d p)

/-- `IN` and `OUT` are port instructions. -/
theorem effect_portIn (rd : BitVec 8) (port : RegImm) (s : State) :
    effect (.portIn rd port) s = portAccess rd port s fun d p => (portRead s p).2.setReg d (portRead s p).1 := rfl

theorem effect_portOut (rd : BitVec 8) (port : RegImm) (s : State) :
    effect (.portOut rd port) s = portAccess rd port s fun d p => portWrite s p (s.reg d) := rfl

variable {i : Instr} {f : Fin 32 → Word → State}

/-- A port instruction on a port that is not permitted raises `IPF(0x01)` (R126, R235). -/
theorem exec_of_portAccess_refused (he : effect i s = portAccess rd port s f) (hrd : rd.toNat < 32)
    (hp : regImmValue s port = .ok p) (hio : ioPermitted s p = false) : exec i s = enter 2#32 0x01#8 s := by
  rw [exec_eq_finish, he, portAccess, gpr_of_eq (d := ⟨rd.toNat, hrd⟩) rfl, act_ok_bind, hp, act_ok_bind,
    requirePort_of_refused hio, act_error_bind, integrityFault, finish_interrupt]

/-- A port instruction with a bad register number raises `IPF(0x03)` before anything else (R116, R126). -/
theorem exec_of_portAccess_badRegister (he : effect i s = portAccess rd port s f)
    (h : 32 ≤ rd.toNat ∨ ∃ e, regImmValue s port = .error e) : exec i s = enter 2#32 0x03#8 s := by
  by_cases hrd : rd.toNat < 32
  · obtain ⟨e, hport⟩ := h.resolve_left (by omega)
    rw [exec_eq_finish, he, portAccess, gpr_of_eq (d := ⟨rd.toNat, hrd⟩) rfl, act_ok_bind, hport, act_error_bind,
      regImmValue_error hport, integrityFault, finish_interrupt]
  · rw [exec_eq_finish, he, portAccess, gpr_of_ge (by omega), act_error_bind, integrityFault, finish_interrupt]

end

/-- The modes of each opcode are the ones `DecodesOnlyIn` asks for (R108). -/
theorem decodesOnlyIn_allowedModes (op : Nat) : DecodesOnlyIn op (allowedModes op) := by
  intro w hop
  rw [exists_decode_iff, opField_toNat, hop, amField_toNat]

/-- Settles O59: `IN` ends by the platform's answer, by the check of the port, or by the check of its registers. -/
theorem inReadsThePort : Obligations.InReadsThePort := by
  intro s rd port
  have he := effect_portIn rd port s
  refine ⟨fun d p hd hp => ⟨fun hio => ?_, fun hio => ?_⟩, exec_of_portAccess_badRegister he,
    fun p hm => ioPermitted_of_supervisor hm p, fun p hm => ioPermitted_user_iff hm p, ?_, ?_⟩
  · refine ⟨portAnswer s.plat p, dropAnswer s.plat.portAnswers p, exec_portIn_of_permitted hd hp hio,
      fun pre x more hline hfirst => ?_, dropAnswer_of_none⟩
    obtain ⟨hfind, hdrop⟩ := answer_of_first (x := x) (more := more) hfirst
    rw [portAnswer, hline, hfind, hdrop]
    exact ⟨rfl, rfl⟩
  · exact exec_of_portAccess_refused he (by omega) hp hio
  · exact decodesOnlyIn_allowedModes 0x27
  · exact hasOpcode_of_opField (opField_encode _) (tableMatch_eq _).symm

/-- Settles O60: `OUT` ends by the platform's record, by the check of the port, or by the check of its registers. -/
theorem outWritesThePort : Obligations.OutWritesThePort := by
  intro s rd port
  have he := effect_portOut rd port s
  refine ⟨fun d p hd hp => ⟨exec_portOut_of_permitted hd hp, fun hio => ?_⟩, exec_of_portAccess_badRegister he,
    fun p hm => ioPermitted_of_supervisor hm p, fun p hm => ioPermitted_user_iff hm p, ?_, ?_⟩
  · exact exec_of_portAccess_refused he (by omega) hp hio
  · exact decodesOnlyIn_allowedModes 0x28
  · exact hasOpcode_of_opField (opField_encode _) (tableMatch_eq _).symm

/-! ### What user mode may run (R282) -/

/-- Settles O24: the privileged five check the mode first; the others have no such check. -/
theorem privilegedInstructionsFaultInUserMode : Obligations.PrivilegedInstructionsFaultInUserMode := by
  intro s hm
  refine ⟨fun tgt => exec_of_user (act := callOn .kernel tgt s) rfl hm,
    fun src => exec_of_user (act := pushOn .kernel src s) rfl hm, fun rs => exec_of_user (act := popOn .kernel rs s) rfl hm,
    exec_of_user (act := returnOn .kernel s) rfl hm, exec_of_user (act := .ok (restoreContext s)) rfl hm,
    hltHaltsInEitherMode s, fun n => exec_swi_of_value rfl, fun rd p hrd hports i hi => ?_, fun rd p hrd hports i hi => ?_⟩
  all_goals simp only [List.mem_cons, List.not_mem_nil, or_false] at hi
  · have hio : ioPermitted s p = true := (ioPermitted_of_user hm p).trans hports
    rcases hi with rfl | rfl
    · exact ⟨_, exec_portIn_of_permitted (d := ⟨rd.toNat, hrd⟩) rfl rfl hio, rfl, rfl, rfl⟩
    · exact ⟨_, exec_portOut_of_permitted (d := ⟨rd.toNat, hrd⟩) rfl rfl hio, rfl, rfl, rfl⟩
  · have hio : ioPermitted s p = false := (ioPermitted_of_user hm p).trans hports
    rcases hi with rfl | rfl
    · exact exec_of_portAccess_refused (effect_portIn rd _ s) hrd rfl hio
    · exact exec_of_portAccess_refused (effect_portOut rd _ s) hrd rfl hio

end Sys2Proof.Machine
end

section
/-! SUPPORT. The statements about `ADD` to `MOV` (spec/40_alu.md): what each operation answers in terms of words, the flags it
leaves, shifts as repeated single shifts, and the faults of the operands. -/

namespace Sys2Proof.Machine

/-! ### What the operations answer -/

theorem signedOverflow_eq (x : Int) : signedOverflow x = decide (x < -(2 ^ 31) ∨ 2 ^ 31 - 1 < x) := by
  rw [signedOverflow, ← Bool.decide_or]
  exact decide_eq_decide.2 (by omega)

/-- A signed sum overflows exactly where both signs are equal and the result's is different (decision D13). -/
theorem signedOverflow_add (a b : Word) :
    signedOverflow (a.toInt + b.toInt) = decide (a.msb = b.msb ∧ (a + b).msb ≠ a.msb) := by
  have hover : signedOverflow (a.toInt + b.toInt) = a.saddOverflow b := Bool.or_comm _ _
  rw [hover, BitVec.saddOverflow_eq]
  cases a.msb <;> cases b.msb <;> cases (a + b).msb <;> rfl

/-- A signed difference overflows exactly where the signs differ and the result's is not the first one's (decision D14). -/
theorem signedOverflow_sub (a b : Word) :
    signedOverflow (a.toInt - b.toInt) = decide (a.msb ≠ b.msb ∧ (a - b).msb ≠ a.msb) := by
  have hover : signedOverflow (a.toInt - b.toInt) = a.ssubOverflow b := Bool.or_comm _ _
  rw [hover, BitVec.ssubOverflow_eq]
  cases a.msb <;> cases b.msb <;> cases (a - b).msb <;> rfl

/-- An unsigned product does not fit exactly where the high half of the double-width product is not zero (decision D15). -/
theorem carry_mul (a b : Word) :
    decide (2 ^ 32 ≤ a.toNat * b.toNat) =
      decide ((a.setWidth 64 * b.setWidth 64).extractLsb' 32 32 ≠ 0#32) := by
  have hlt : a.toNat * b.toNat < 2 ^ 64 :=
    calc a.toNat * b.toNat < 2 ^ 32 * 2 ^ 32 := Nat.mul_lt_mul'' a.isLt b.isLt
      _ = 2 ^ 64 := by norm_num
  have hprod : (a.setWidth 64 * b.setWidth 64).toNat = a.toNat * b.toNat := by
    rw [BitVec.toNat_mul, BitVec.toNat_setWidth_of_le (by decide), BitVec.toNat_setWidth_of_le (by decide),
      Nat.mod_eq_of_lt hlt]
  have hhigh : ((a.setWidth 64 * b.setWidth 64).extractLsb' 32 32).toNat = a.toNat * b.toNat / 2 ^ 32 := by
    rw [BitVec.extractLsb'_toNat, hprod, Nat.shiftRight_eq_div_pow]
    omega
  rw [decide_eq_decide, ne_eq, BitVec.toNat_eq, hhigh, BitVec.toNat_ofNat]
  omega

theorem ofNat_toNat_add (a b : Word) : BitVec.ofNat 32 (a.toNat + b.toNat) = a + b := by
  rw [BitVec.ofNat_add, BitVec.ofNat_toNat, BitVec.ofNat_toNat, BitVec.setWidth_eq, BitVec.setWidth_eq]

theorem ofNat_toNat_mul (a b : Word) : BitVec.ofNat 32 (a.toNat * b.toNat) = a * b := by
  rw [BitVec.ofNat_mul, BitVec.ofNat_toNat, BitVec.ofNat_toNat, BitVec.setWidth_eq, BitVec.setWidth_eq]

theorem ofInt_toInt_sub (a b : Word) : BitVec.ofInt 32 (a.toInt - b.toInt) = a - b :=
  BitVec.eq_of_toInt_eq (by rw [BitVec.toInt_ofInt, BitVec.toInt_sub])

/-- The signed quotient rounds toward zero and wraps (decision D16, log 7). -/
theorem quotient_eq_sdiv (a b : Word) : quotient a b = a.sdiv b :=
  BitVec.eq_of_toInt_eq (by simp only [quotient, Config.divSigned, if_true, BitVec.toInt_ofInt, BitVec.toInt_sdiv])

/-- `ADD` on words: the sum, C by the exact sum, V by the signs (R141, decision D13). -/
theorem addOp_eq (a b : Word) (fr : Byte) :
    addOp a b fr = (a + b, putFlag (putS (putZ (putFlag fr .c (decide (2 ^ 32 ≤ a.toNat + b.toNat))) (a + b)) (a + b)) .v
      (decide (a.msb = b.msb ∧ (a + b).msb ≠ a.msb))) := by
  simp only [addOp, ofNat_toNat_add, signedOverflow_add]

/-- `SUB` on words: the difference, V by the signs (R142, decision D14). -/
theorem subOp_eq (a b : Word) (fr : Byte) :
    subOp a b fr = (a - b, putFlag (putS (putZ fr (a - b)) (a - b)) .v
      (decide (a.msb ≠ b.msb ∧ (a - b).msb ≠ a.msb))) := by
  simp only [subOp, ofInt_toInt_sub, signedOverflow_sub]

/-- `MUL` on words: the low half of the product, C by its high half, V by the exact signed product (R143, decision D15). -/
theorem mulOp_eq (a b : Word) (fr : Byte) :
    mulOp a b fr = (a * b, putFlag (putS (putZ (putFlag fr .c
      (decide ((a.setWidth 64 * b.setWidth 64).extractLsb' 32 32 ≠ 0#32))) (a * b)) (a * b)) .v
        (decide (a.toInt * b.toInt < -(2 ^ 31) ∨ 2 ^ 31 - 1 < a.toInt * b.toInt))) := by
  simp only [mulOp, ofNat_toNat_mul, carry_mul, signedOverflow_eq]

/-! ### The flags an operation leaves -/

/-- `FlagsAre` says what each flag reads (R30). -/
theorem flagsAre_of_getFlag {f : Byte} {p : Flag → Bool} (h : ∀ q, getFlag f q = p q) :
    FlagsAre f (p .c) (p .z) (p .s) (p .v) (p .e) (p .i) (p .g) (p .t) :=
  ⟨h .c, h .z, h .s, h .v, h .e, h .i, h .g, h .t⟩

/-- Z and S from the result, then V: what `SUB` leaves of `fr`, and `ADD` and `MUL` of `fr` with C written. -/
theorem getFlag_putV_putS_putZ (fr : Byte) (r : Word) (v : Bool) (q : Flag) :
    getFlag (putFlag (putS (putZ fr r) r) .v v) q =
      if q = .v then v else if q = .s then r.msb else if q = .z then decide (r = 0#32) else getFlag fr q := by
  rw [getFlag_putFlag, getFlag_putS, getFlag_putZ]

/-- What `ADD` and `MUL` leave: C, V, and Z and S from the result. -/
theorem flagsAre_czsv (fr : Byte) (r : Word) (c v : Bool) :
    FlagsAre (putFlag (putS (putZ (putFlag fr .c c) r) r) .v v) c (decide (r = 0#32)) r.msb v (fr.getLsbD 4)
      (fr.getLsbD 5) (fr.getLsbD 6) (fr.getLsbD 7) :=
  flagsAre_of_getFlag (p := fun
    | .c => c
    | .z => decide (r = 0#32)
    | .s => r.msb
    | .v => v
    | q => getFlag fr q) fun q => by
      rw [getFlag_putV_putS_putZ, getFlag_putFlag]
      cases q <;> rfl

/-- What `SUB` leaves: V, and Z and S from the result. -/
theorem flagsAre_zsv (fr : Byte) (r : Word) (v : Bool) :
    FlagsAre (putFlag (putS (putZ fr r) r) .v v) (fr.getLsbD 0) (decide (r = 0#32)) r.msb v (fr.getLsbD 4)
      (fr.getLsbD 5) (fr.getLsbD 6) (fr.getLsbD 7) :=
  flagsAre_of_getFlag (p := fun
    | .z => decide (r = 0#32)
    | .s => r.msb
    | .v => v
    | q => getFlag fr q) fun q => by
      rw [getFlag_putV_putS_putZ]
      cases q <;> rfl

/-- What a shift leaves: C, and Z from the result. -/
theorem flagsAre_cz (fr : Byte) (r : Word) (c : Bool) :
    FlagsAre (putZ (putFlag fr .c c) r) c (decide (r = 0#32)) (fr.getLsbD 2) (fr.getLsbD 3) (fr.getLsbD 4)
      (fr.getLsbD 5) (fr.getLsbD 6) (fr.getLsbD 7) :=
  flagsAre_of_getFlag (p := fun
    | .c => c
    | .z => decide (r = 0#32)
    | q => getFlag fr q) fun q => by
      rw [getFlag_putZ, getFlag_putFlag]
      cases q <;> rfl

/-- Writing a flag at the value it has changes nothing (R30). -/
theorem putFlag_getFlag (fr : Byte) (f : Flag) : putFlag fr f (getFlag fr f) = fr := by
  apply fr_ext
  intro q
  rw [getFlag_putFlag]
  split
  · rename_i hq
    rw [hq]
  · rfl

/-- What `DIV` leaves: E says whether the divisor was zero, and only a quotient writes Z and S (decision D16). -/
theorem flagsAre_divOp (a b : Word) (fr : Byte) :
    FlagsAre (divOp a b fr).2 (fr.getLsbD 0)
      (if b = 0#32 then fr.getLsbD 1 else decide ((if b = 0#32 then a else a.sdiv b) = 0#32))
      (if b = 0#32 then fr.getLsbD 2 else (if b = 0#32 then a else a.sdiv b).msb) (fr.getLsbD 3) (decide (b = 0#32))
      (fr.getLsbD 5) (fr.getLsbD 6) (fr.getLsbD 7) := by
  by_cases hb : b = 0#32
  · simp only [divOp, hb, if_true, decide_true]
    exact flagsAre_of_getFlag (p := fun
      | .e => true
      | q => getFlag fr q) fun q => by
        rw [getFlag_putFlag]
        cases q <;> rfl
  · simp only [divOp, hb, if_false, decide_false, quotient_eq_sdiv]
    exact flagsAre_of_getFlag (p := fun
      | .z => decide (a.sdiv b = 0#32)
      | .s => (a.sdiv b).msb
      | .e => false
      | q => getFlag fr q) fun q => by
        rw [getFlag_putS, getFlag_putZ, getFlag_putFlag]
        cases q <;> rfl

/-- `DIV` answers the quotient, and the dividend where there is none (R144). -/
theorem divOp_fst (a b : Word) (fr : Byte) : (divOp a b fr).1 = if b = 0#32 then a else a.sdiv b := by
  by_cases hb : b = 0#32
  · simp only [divOp, hb, if_true]
  · simp only [divOp, hb, if_false, quotient_eq_sdiv]

/-- What `CMP` leaves of E: greater in the signed order, kept where the operands are equal (decision D18, log 6). -/
theorem getFlag_cmpFlags_e (a b : Word) (fr : Byte) :
    getFlag (cmpFlags a b fr) .e = if a = b then getFlag fr .e else b.slt a := by
  have hne : a ≠ b → a.toInt ≠ b.toInt := fun h hint => h (BitVec.eq_of_toInt_eq hint)
  simp only [cmpFlags, cmpLess, Config.cmpSigned, if_true, decide_eq_true_eq, BitVec.slt_eq_decide]
  by_cases heq : a = b
  · subst heq
    simp [getFlag_putFlag]
  · rcases lt_or_gt_of_ne (hne heq) with hlt | hgt
    · simp [getFlag_putFlag, heq, hlt, not_lt_of_gt hlt]
    · simp [getFlag_putFlag, heq, hgt]

/-- What `CMP` leaves of the seven other flags (R150). -/
theorem getFlag_cmpFlags_of_ne_e (a b : Word) (fr : Byte) {q : Flag} (hq : q ≠ .e) :
    getFlag (cmpFlags a b fr) q =
      if q = .s then a.msb && b.msb
      else if q = .z then decide (a = 0#32) || decide (b = 0#32)
      else if q = .c then decide (a = b) else getFlag fr q := by
  have hlast (x : Byte) (v : Bool) : getFlag (putFlag x .e v) q = getFlag x q := by rw [getFlag_putFlag, if_neg hq]
  unfold cmpFlags
  dsimp only
  split
  · rw [hlast, getFlag_putFlag, getFlag_putFlag, getFlag_putFlag]
  · split
    · rw [hlast, getFlag_putFlag, getFlag_putFlag, getFlag_putFlag]
    · rw [getFlag_putFlag, getFlag_putFlag, getFlag_putFlag]

theorem flagsAre_cmpFlags (a b : Word) (fr : Byte) :
    FlagsAre (cmpFlags a b fr) (decide (a = b)) (decide (a = 0#32 ∨ b = 0#32)) (a.msb && b.msb) (fr.getLsbD 3)
      (if a = b then fr.getLsbD 4 else b.slt a) (fr.getLsbD 5) (fr.getLsbD 6) (fr.getLsbD 7) :=
  flagsAre_of_getFlag (p := fun
    | .c => decide (a = b)
    | .z => decide (a = 0#32 ∨ b = 0#32)
    | .s => a.msb && b.msb
    | .e => if a = b then getFlag fr .e else b.slt a
    | q => getFlag fr q) fun q => by
      cases q
      case e => exact getFlag_cmpFlags_e a b fr
      case z => exact (getFlag_cmpFlags_of_ne_e a b fr (by decide)).trans (Bool.decide_or _ _).symm
      all_goals exact getFlag_cmpFlags_of_ne_e a b fr (by decide)

/-! ### Shifts (R148, R149) -/

/-- One bit to the left, and the bit that leaves. -/
def shiftLeftOnce (p : Word × Bool) : Word × Bool := (p.1 <<< 1, p.1.msb)

/-- One bit to the right, and the bit that leaves. -/
def shiftRightOnce (p : Word × Bool) : Word × Bool := (p.1 >>> 1, p.1.getLsbD 0)

/-- After some single shifts to the left the word is shifted so far, and C is the bit that left last. -/
theorem iterate_shiftLeftOnce (a : Word) (c : Bool) (n : Nat) :
    shiftLeftOnce^[n] (a, c) = (a <<< n, if n = 0 then c else (a <<< (n - 1)).msb) := by
  induction n with
  | zero => simp
  | succ n ih =>
    rw [Function.iterate_succ_apply', ih, shiftLeftOnce, ← BitVec.shiftLeft_add, if_neg (Nat.succ_ne_zero n)]
    rfl

theorem iterate_shiftRightOnce (a : Word) (c : Bool) (n : Nat) :
    shiftRightOnce^[n] (a, c) = (a >>> n, if n = 0 then c else (a >>> (n - 1)).getLsbD 0) := by
  induction n with
  | zero => simp
  | succ n ih =>
    rw [Function.iterate_succ_apply', ih, shiftRightOnce, ← BitVec.shiftRight_add, if_neg (Nat.succ_ne_zero n)]
    rfl

/-- `LSL` is as many single shifts as its operand says, and keeps C where that is none. -/
theorem lslOp_eq (a b : Word) (fr : Byte) :
    lslOp a b fr = ((shiftLeftOnce^[b.toNat] (a, getFlag fr .c)).1,
      putZ (putFlag fr .c (shiftLeftOnce^[b.toNat] (a, getFlag fr .c)).2)
        (shiftLeftOnce^[b.toNat] (a, getFlag fr .c)).1) := by
  simp only [iterate_shiftLeftOnce, lslOp, shiftAmount, Config.shiftMode]
  by_cases hzero : b.toNat = 0
  · simp [hzero, putFlag_getFlag]
  · by_cases hle : b.toNat ≤ 32
    · have hbit : a.getLsbD (32 - b.toNat) = (a <<< (b.toNat - 1)).msb := by
        rw [BitVec.msb_shiftLeft, BitVec.getMsbD_eq_getLsbD]
        simp [show b.toNat - 1 < 32 by omega, show 31 - (b.toNat - 1) = 32 - b.toNat by omega]
      simp only [hzero, hle, if_true, if_false, hbit]
    · have hout : a <<< b.toNat = 0#32 := BitVec.shiftLeft_eq_zero (by omega)
      have hlast : a <<< (b.toNat - 1) = 0#32 := BitVec.shiftLeft_eq_zero (by omega)
      simp [hzero, hle, hout, hlast]

/-- `LSR` is as many single shifts as its operand says, and keeps C where that is none. -/
theorem lsrOp_eq (a b : Word) (fr : Byte) :
    lsrOp a b fr = ((shiftRightOnce^[b.toNat] (a, getFlag fr .c)).1,
      putZ (putFlag fr .c (shiftRightOnce^[b.toNat] (a, getFlag fr .c)).2)
        (shiftRightOnce^[b.toNat] (a, getFlag fr .c)).1) := by
  simp only [iterate_shiftRightOnce, lsrOp, shiftAmount, Config.shiftMode]
  by_cases hzero : b.toNat = 0
  · simp [hzero, putFlag_getFlag]
  · by_cases hle : b.toNat ≤ 32
    · have hbit : a.getLsbD (b.toNat - 1) = (a >>> (b.toNat - 1)).getLsbD 0 := by
        rw [BitVec.getLsbD_ushiftRight, Nat.add_zero]
      simp only [hzero, hle, if_true, if_false, hbit]
    · have hout : a >>> b.toNat = 0#32 := BitVec.ushiftRight_eq_zero (by omega)
      have hlast : a >>> (b.toNat - 1) = 0#32 := BitVec.ushiftRight_eq_zero (by omega)
      simp [hzero, hle, hout, hlast]

/-! ### The instructions -/

/-- An instruction of the template of R140, its result and flags given in another form. -/
theorem arithWrites_of_op {op : Word → Word → Byte → Word × Byte} {i : Instr} {rd : BitVec 8} {src : Source}
    {s u : State} {d : Fin 32} {b r : Word} {f : Byte} (he : effect i s = arith op rd src s) (hd : rd.toNat = d.val)
    (hs : sourceValue s src = .ok (b, u)) (hop : op (s.reg d) b s.fr = (r, f)) : ArithWrites i d src s u r f := by
  have h := arithWrites_of_effect he hd hs
  rwa [hop] at h

/-- Settles O33: the template of R140 on the sum. -/
theorem addResultAndFlags : Obligations.AddResultAndFlags := by
  intro s u rd d src b hd hs
  exact ⟨_, arithWrites_of_op (op := addOp) rfl hd hs (addOp_eq _ _ _), flagsAre_czsv _ _ _ _⟩

/-- Settles O34: the template of R140 on the difference. -/
theorem subResultAndFlags : Obligations.SubResultAndFlags := by
  intro s u rd d src b hd hs
  exact ⟨_, arithWrites_of_op (op := subOp) rfl hd hs (subOp_eq _ _ _), flagsAre_zsv _ _ _⟩

/-- Settles O35: the template of R140 on the product. -/
theorem mulResultAndFlags : Obligations.MulResultAndFlags := by
  intro s u rd d src b hd hs
  exact ⟨_, arithWrites_of_op (op := mulOp) rfl hd hs (mulOp_eq _ _ _), flagsAre_czsv _ _ _ _⟩

/-- Settles O36: the template of R140 on the quotient. -/
theorem divResultAndFlags : Obligations.DivResultAndFlags := by
  intro s u rd d src b hd hs
  exact ⟨_, arithWrites_of_op (op := divOp) rfl hd hs (Prod.ext (divOp_fst _ _ _) rfl), flagsAre_divOp _ _ _⟩

/-- Settles O38: the template of R140 on the repeated single shifts. -/
theorem shiftsAreRepeatedSingleShifts : Obligations.ShiftsAreRepeatedSingleShifts := by
  intro s u rd d src b hd hs
  exact ⟨⟨_, arithWrites_of_op (op := lslOp) rfl hd hs (lslOp_eq _ _ _), flagsAre_cz _ _ _⟩,
    ⟨_, arithWrites_of_op (op := lsrOp) rfl hd hs (lsrOp_eq _ _ _), flagsAre_cz _ _ _⟩⟩

/-- Settles O39: `CMP` writes its flags into the state its operand's read left. -/
theorem cmpWritesFlagsOnly : Obligations.CmpWritesFlagsOnly := by
  intro s u rd d src b hd hs
  refine ⟨_, sourceFrame_of_ok hs, ?_, flagsAre_cmpFlags _ _ _⟩
  rw [exec_eq_finish, effect, compare_eq_ok hd hs, finish_ok, State.setFr]

/-! ### The faults of the operands -/

/-- An operand of `ADD` to `MOV` raises `IPF(0x03)` or the page fault of its read (R112). -/
theorem sourceValue_interrupt {s : State} {src : Source} {n : Word} {c : Byte}
    (h : sourceValue s src = .error (.interrupt n c)) :
    (n = 2#32 ∧ c = 0x03#8) ∨ (n = 1#32 ∧ c ∈ [0x00#8, 0x03#8, 0x02#8]) := by
  cases src with
  | reg rs =>
    rcases act_bind_eq_error.1 h with hreg | ⟨r, -, hok⟩
    · cases (gpr_eq_error.1 hreg).2
      exact .inl ⟨rfl, rfl⟩
    · cases hok
  | imm i => cases h
  | addr i => exact .inr (memRead_interrupt h)

/-- `CMP` checks its first register before the operand is read (R116, R126). -/
theorem exec_cmp_of_badRegister {rd : BitVec 8} {src : Source} {s : State} (hrd : 32 ≤ rd.toNat) :
    exec (.cmp rd src) s = enter 2#32 0x03#8 s := by
  rw [exec_eq_finish, effect, compare, gpr_of_ge hrd, act_error_bind, integrityFault, finish_interrupt]

/-- An interrupt of the operand's read of `CMP` is entered from the state the instruction began in (R253). -/
theorem exec_cmp_of_sourceInterrupt {rd : BitVec 8} {src : Source} {s : State} {n : Word} {c : Byte}
    (hrd : rd.toNat < 32) (hs : sourceValue s src = .error (.interrupt n c)) : exec (.cmp rd src) s = enter n c s := by
  rw [exec_eq_finish, effect, compare, gpr_of_eq (d := ⟨rd.toNat, hrd⟩) rfl, act_ok_bind, hs, act_error_bind,
    finish_interrupt]

/-- Settles O40: ten of the eleven are the template of R140, and `CMP` checks and reads in the same order. -/
theorem arithmeticFaultsWriteNothing : Obligations.ArithmeticFaultsWriteNothing := by
  intro s rd src
  refine ⟨fun i hi => ?_, fun op hlo hhi => decodesOnlyIn_of_source_opcode hlo hhi⟩
  have hshape : i = .cmp rd src ∨ ∃ op, effect i s = arith op rd src s := by
    simp only [List.mem_cons, List.not_mem_nil, or_false] at hi
    rcases hi with rfl | rfl | rfl | rfl | rfl | rfl | rfl | rfl | rfl | rfl | rfl
    exacts [.inr ⟨addOp, rfl⟩, .inr ⟨subOp, rfl⟩, .inr ⟨mulOp, rfl⟩, .inr ⟨divOp, rfl⟩, .inr ⟨andOp, rfl⟩,
      .inr ⟨orOp, rfl⟩, .inr ⟨xorOp, rfl⟩, .inr ⟨lslOp, rfl⟩, .inr ⟨lsrOp, rfl⟩, .inl rfl, .inr ⟨movOp, rfl⟩]
  rcases hshape with rfl | ⟨op, he⟩
  · exact ⟨exec_cmp_of_badRegister,
      fun n c hrd hs => ⟨exec_cmp_of_sourceInterrupt hrd hs, sourceValue_interrupt hs⟩⟩
  · exact ⟨exec_of_effect_badReg he,
      fun n c hrd hs => ⟨exec_of_effect_sourceInterrupt he hrd hs, sourceValue_interrupt hs⟩⟩

end Sys2Proof.Machine
end

section
/-! SUPPORT. The statements about physical memory, translation and accesses that stop (spec/20_memory.md R65, R70, R80, decision
D40): the bytes of a value, the walk in the spec's own bit operations, and which instructions a fault of an access stops. -/

namespace Sys2Proof

/-! ### The bytes of a value -/

/-- The byte at a place of a list is that digit of its value. -/
theorem valueOf_digit {bs : List Byte} {k : Nat} {b : Byte} (h : bs[k]? = some b) :
    valueOf bs / 256 ^ k % 256 = b.toNat := by
  induction bs generalizing k with
  | nil => simp at h
  | cons x bs ih =>
    have hx := x.isLt
    cases k with
    | zero =>
      cases h
      simp only [valueOf, Nat.pow_zero]
      omega
    | succ k =>
      have hdrop : valueOf (x :: bs) / 256 = valueOf bs := by
        simp only [valueOf]
        omega
      rw [Nat.pow_succ', ← Nat.div_div_eq_div_mul, hdrop]
      exact ih h

/-- The byte at the lowest address is a word's bits 7 to 0, and so on up (R65, log 1). -/
theorem extract_wordOfBytes {bs : List Byte} {k : Nat} {b : Byte} (hk : k < 4) (h : bs[k]? = some b) :
    (wordOfBytes bs).extractLsb' (8 * k) 8 = b := by
  have hdigit := valueOf_digit h
  apply BitVec.eq_of_toNat_eq
  rw [BitVec.extractLsb'_toNat, wordOfBytes, BitVec.toNat_ofNat, Nat.shiftRight_eq_div_pow, ← hdigit]
  simp only [inByteOrder, Config.byteOrder]
  interval_cases k <;> omega

/-- The byte at the lowest address is an instruction's bits 7 to 0, and so on up (R66, log 1). -/
theorem extract_instrOfBytes {bs : List Byte} {k : Nat} {b : Byte} (hk : k < 8) (h : bs[k]? = some b) :
    (instrOfBytes bs).extractLsb' (8 * k) 8 = b := by
  have hdigit := valueOf_digit h
  apply BitVec.eq_of_toNat_eq
  rw [BitVec.extractLsb'_toNat, instrOfBytes, BitVec.toNat_ofNat, Nat.shiftRight_eq_div_pow, ← hdigit]
  simp only [inByteOrder, Config.byteOrder]
  interval_cases k <;> omega

namespace Machine

/-- The next address, and some more (R70). -/
theorem add_one_add_ofNat (a : Word) (k : Nat) : a + 1#32 + BitVec.ofNat 32 k = a + BitVec.ofNat 32 (k + 1) := by
  rw [BitVec.add_assoc, BitVec.ofNat_add, BitVec.add_comm 1#32]

/-- The bytes read at consecutive addresses, one by one. -/
theorem Memory.readFrom_getElem? (m : Memory) (pa : Word) {n k : Nat} (hk : k < n) :
    (m.readFrom pa n)[k]? = some (m.read (pa + BitVec.ofNat 32 k).toNat) := by
  induction n generalizing pa k with
  | zero => omega
  | succ n ih =>
    cases k with
    | zero => simp [Memory.readFrom]
    | succ k =>
      rw [Memory.readFrom, List.getElem?_cons_succ, ih _ (by omega), add_one_add_ofNat]

/-- The events of a `PhysRead32` are its device bytes, the latest first (R95, log 34). -/
theorem readEvents_eq (s : State) (pa : Word) :
    readEvents s pa =
      ((([pa, pa + 1#32, pa + 2#32, pa + 3#32].map fun a => (a, physByte s a)).filter fun x =>
        decide (regionOf s.plat x.1 = .device)).map fun x => IoEvent.memRead x.1 x.2).reverse := by
  have hrev : [pa + 3#32, pa + 2#32, pa + 1#32, pa] = [pa, pa + 1#32, pa + 2#32, pa + 3#32].reverse := rfl
  rw [readEvents, hrev, List.filter_reverse, List.map_reverse, List.filter_map, List.map_map]
  rfl

/-- Settles O26: the laws of the canonical memory, and `PhysRead32` by what stands behind its bytes. -/
theorem writtenBytesAndWordsReadBack : Obligations.WrittenBytesAndWordsReadBack := by
  refine ⟨fun m hm => ⟨fun a p b => ?_, fun a b ha => Memory.wf_write b hm ha, fun pa v => ?_⟩, fun s pa => ?_⟩
  · split
    · rename_i hp
      rw [hp, Memory.read_write_same hm]
    · rename_i hp
      exact Memory.read_write_other m b hp
  · have hword := Memory.readWord_writeWord hm pa v
    refine ⟨hword, Memory.wf_writeWord pa v hm, fun k hk => ?_, fun p hp => Memory.read_writeWord_other m pa v hp⟩
    have hbyte := extract_wordOfBytes hk (Memory.readFrom_getElem? (m.writeWord pa v) pa hk)
    rw [← hbyte]
    exact congrArg _ hword
  · refine ⟨physRead32_absent, physRead32_ram, fun hp => ⟨physByte s pa, physByte s (pa + 1#32), physByte s (pa + 2#32),
      physByte s (pa + 3#32), ?_⟩⟩
    dsimp only
    refine ⟨fun x hx hram => ?_, ?_⟩
    · have hbyte : x.2 = physByte s x.1 := by
        simp only [List.mem_cons, List.not_mem_nil, or_false] at hx
        rcases hx with rfl | rfl | rfl | rfl <;> rfl
      rw [hbyte, physByte_ram hram]
    · rw [physRead32_present hp, readEvents_eq]
      rfl

/-! ### The walk in the spec's bit operations (R80, R81) -/

theorem directoryIndex_eq (la : Word) : (directoryIndex la).setWidth 32 = la >>> 22 := by
  have := la.isLt
  apply BitVec.eq_of_toNat_eq
  rw [BitVec.toNat_setWidth, directoryIndex, BitVec.extractLsb'_toNat, BitVec.toNat_ushiftRight,
    Nat.shiftRight_eq_div_pow]
  omega

theorem tableIndex_eq (la : Word) : (tableIndex la).setWidth 32 = la >>> 12 &&& 0x3FF#32 := by
  apply BitVec.eq_of_toNat_eq
  rw [BitVec.toNat_setWidth, tableIndex, BitVec.extractLsb'_toNat, BitVec.toNat_and, BitVec.toNat_ushiftRight,
    Nat.shiftRight_eq_div_pow, show (0x3FF#32).toNat = 2 ^ 10 - 1 from rfl, Nat.and_two_pow_sub_one_eq_mod]
  omega

/-- The frame joined to the offset (R80). -/
theorem frame_append_offset (pte la : Word) :
    pte.extractLsb' 12 20 ++ pageOffset la = (pte &&& 0xFFFFF000#32) ||| (la &&& 0xFFF#32) := by
  have split (v : Word) : v = v.extractLsb' 12 20 ++ v.extractLsb' 0 12 := by
    rw [BitVec.extractLsb'_append_extractLsb'_eq_extractLsb' (start₁ := 0) (len₁ := 12) (start₂ := 12) rfl]
    exact BitVec.extractLsb'_eq_self.symm
  have hframe : pte &&& 0xFFFFF000#32 = pte.extractLsb' 12 20 ++ 0#12 := by
    have hand : (pte.extractLsb' 12 20 ++ pte.extractLsb' 0 12) &&& (BitVec.allOnes 20 ++ 0#12) =
        pte.extractLsb' 12 20 ++ 0#12 := by simp only [BitVec.and_append, BitVec.and_allOnes, BitVec.and_zero]
    rw [← hand, show 0xFFFFF000#32 = BitVec.allOnes 20 ++ 0#12 by decide]
    exact congrArg (· &&& _) (split pte)
  have hoffset : la &&& 0xFFF#32 = 0#20 ++ pageOffset la := by
    have hand : (la.extractLsb' 12 20 ++ la.extractLsb' 0 12) &&& (0#20 ++ BitVec.allOnes 12) = 0#20 ++ pageOffset la := by
      simp only [BitVec.and_append, BitVec.and_allOnes, BitVec.and_zero, pageOffset]
    rw [← hand, show 0xFFF#32 = 0#20 ++ BitVec.allOnes 12 by decide]
    exact congrArg (· &&& _) (split la)
  have hor : (pte.extractLsb' 12 20 ++ 0#12) ||| (0#20 ++ pageOffset la) = pte.extractLsb' 12 20 ++ pageOffset la := by
    simp only [BitVec.or_append, BitVec.or_zero, BitVec.zero_or]
  rw [hframe, hoffset]
  exact hor.symm

/-- A bit of an entry is clear where the entry is zero under the bit's mask. -/
theorem and_twoPow_eq_zero (pte : Word) {i : Nat} (hi : i < 32) :
    pte &&& BitVec.twoPow 32 i = 0#32 ↔ pte.getLsbD i = false := by
  have hne : BitVec.twoPow 32 i ≠ 0#32 := fun h => by
    have hbit := congrArg (BitVec.getLsbD · i) h
    simp [hi] at hbit
  rw [BitVec.and_twoPow]
  cases pte.getLsbD i <;> simp [hne]

/-- The checks of an entry, in the spec's masks (R80, R84). -/
theorem entryFault_eq (s : State) (kind : AccessKind) (pte : Word) :
    entryFault s.mode kind pte =
      if pte &&& 0x01#32 = 0#32 then some 0x00#8
      else if pte &&& 0x42#32 ≠ 0#32 then some 0x03#8
      else if s.msr.getLsbD 31 = false ∧ pte &&& 0x20#32 = 0#32 then some 0x02#8
      else if kind = .write ∧ pte &&& 0x10#32 = 0#32 then some 0x01#8
      else none := by
  have hp : pte &&& 0x01#32 = 0#32 ↔ pte.getLsbD 0 = false := and_twoPow_eq_zero pte (i := 0) (by decide)
  have hu : pte &&& 0x20#32 = 0#32 ↔ pte.getLsbD 5 = false := and_twoPow_eq_zero pte (i := 5) (by decide)
  have hw : pte &&& 0x10#32 = 0#32 ↔ pte.getLsbD 4 = false := and_twoPow_eq_zero pte (i := 4) (by decide)
  have hreserved : pte &&& 0x42#32 = 0#32 ↔ pte.getLsbD 1 = false ∧ pte.getLsbD 6 = false := by
    rw [show 0x42#32 = BitVec.twoPow 32 1 ||| BitVec.twoPow 32 6 by decide, BitVec.and_or_distrib_left,
      BitVec.or_eq_zero_iff, and_twoPow_eq_zero pte (by decide), and_twoPow_eq_zero pte (by decide)]
  simp only [entryFault, ← mode_eq_user_iff, ne_eq, hp, hu, hw, hreserved]
  cases pte.getLsbD 0 <;> cases pte.getLsbD 1 <;> cases pte.getLsbD 6 <;> cases pte.getLsbD 5 <;>
    cases pte.getLsbD 4 <;> simp

theorem readEntry_absent {s : State} {pa : Word} (h : entryRegion s.plat pa = .absent) :
    readEntry s pa = .error (.fault .absentMemory) := by simp only [readEntry, h]

theorem readEntry_present {s : State} {pa : Word} (h : entryRegion s.plat pa ≠ .absent) :
    readEntry s pa = .ok (physWord s pa) := by
  unfold readEntry
  cases hr : entryRegion s.plat pa with
  | absent => exact (h hr).elim
  | ram => rfl
  | device => rfl

/-- Settles O27: the two reads of the walk, the checks and the frame. -/
theorem translationFollowsTheTables : Obligations.TranslationFollowsTheTables := by
  intro s kind la
  dsimp only
  refine ⟨fun habsent => ?_, fun hpde hpte => ?_, fun a => physWord_ram⟩
  · simp only [translate, pagingActive, Config.pagingAlways, if_true, directoryIndex_eq, tableIndex_eq]
    by_cases hpde : entryRegion s.plat (s.tpdr + 4#32 * (la >>> 22)) = .absent
    · rw [readEntry_absent hpde, act_error_bind]
    · rw [readEntry_present hpde, act_ok_bind, readEntry_absent (habsent.resolve_left hpde), act_error_bind]
  · simp only [translate, pagingActive, Config.pagingAlways, if_true, directoryIndex_eq, tableIndex_eq,
      readEntry_present hpde, act_ok_bind, readEntry_present hpte, entryFault_eq, frame_append_offset]
    split_ifs <;> rfl

/-! ### Accesses that stop (R70, decision D40) -/

/-- A walk that stops ends the access of the bytes it is one of, where the earlier ones translate. -/
theorem translateFrom_of_stop {s : State} {kind : AccessKind} {la : Word} {k n : Nat} {e : Stop} (hk : k < n)
    (hbefore : ∀ j, j < k → ∃ w, translate s kind (la + BitVec.ofNat 32 j) = .ok w)
    (hstop : translate s kind (la + BitVec.ofNat 32 k) = .error e) : translateFrom s kind la n = .error e := by
  induction k generalizing la n with
  | zero =>
    obtain ⟨n, rfl⟩ : ∃ m, n = m + 1 := ⟨n - 1, by omega⟩
    have hla : translate s kind la = .error e := by simpa using hstop
    rw [translateFrom, hla, act_error_bind]
  | succ k ih =>
    obtain ⟨n, rfl⟩ : ∃ m, n = m + 1 := ⟨n - 1, by omega⟩
    obtain ⟨w, hw⟩ := hbefore 0 (by omega)
    have hla : translate s kind la = .ok w := by simpa using hw
    have hrest : translateFrom s kind (la + 1#32) n = .error e :=
      ih (by omega) (fun j hj => by rw [add_one_add_ofNat]; exact hbefore (j + 1) (by omega))
        (by rw [add_one_add_ofNat]; exact hstop)
    rw [translateFrom, hla, act_ok_bind, hrest, act_error_bind]

section
variable {s : State} {la v : Word} {e : Stop}

theorem readBytes_of_stop {kind : AccessKind} {n : Nat} (h : translateFrom s kind la n = .error e) :
    readBytes s kind la n = .error e := by rw [readBytes, h, act_error_bind]

theorem memRead_of_stop (h : readBytes s .read la 4 = .error e) : memRead s la = .error e := by
  rw [memRead, h, act_error_bind]

theorem memFetch_of_stop (h : readBytes s .fetch la 8 = .error e) : memFetch s la = .error e := by
  rw [memFetch, h, act_error_bind]

theorem memWrite_of_stop (h : translateFrom s .write la 4 = .error e) : memWrite s la v = .error e := by
  rw [memWrite, h, act_error_bind]

/-- An instruction whose effect stops stops. -/
theorem exec_of_fault {i : Instr} {f : Fault} (h : effect i s = .error (.fault f)) : exec i s = .fault f := by
  rw [exec_eq_finish, h, finish]

end

/-! ### No step is refused -/

theorem enter_ne_refused (n : Word) (code : Byte) (s : State) (r : Refusal) : enter n code s ≠ .refused r := by
  obtain ⟨t, ht⟩ := enter_proceeds n code s
  simp [ht]

theorem finish_ne_refused (s : State) (x : Act State) (r : Refusal) : finish s x ≠ .refused r := by
  cases x with
  | ok t => simp
  | error e =>
    cases e with
    | interrupt n c => exact enter_ne_refused n c s r
    | fault f => simp [finish]

theorem trapAfter_ne_refused {b : Bool} {o : Host.Outcome State Fault Refusal} (h : ∀ r, o ≠ .refused r) (r : Refusal) :
    trapAfter b o ≠ .refused r := by
  cases o with
  | next t =>
    unfold trapAfter
    dsimp only
    split
    · exact enter_ne_refused _ _ t r
    · simp
  | fault f => simp [trapAfter]
  | refused x => exact (h x rfl).elim

theorem closeStep_ne_refused {o : Host.Outcome State Fault Refusal} (h : ∀ r, o ≠ .refused r) (r : Refusal) :
    closeStep o ≠ .refused r := by
  cases o with
  | next t => simp [closeStep]
  | fault f => simp [closeStep]
  | refused x => exact (h x rfl).elim

theorem fetchExecute_ne_refused (s : State) (r : Refusal) : fetchExecute exec s ≠ .refused r := by
  unfold fetchExecute
  split
  · exact finish_ne_refused s _ r
  · split
    · exact enter_ne_refused _ _ _ r
    · exact trapAfter_ne_refused (fun x => by rw [exec_eq_finish]; exact finish_ne_refused _ _ x) r

theorem step_ne_refused (s : State) (r : Refusal) : step s ≠ .refused r := by
  by_cases hdead : s.run = .dead
  · simp [step_of_dead hdead]
  cases hirq : acceptedIrq (presentedIrq s) (beginStep s) with
  | some n =>
    rw [step_of_irq hdead hirq]
    exact closeStep_ne_refused (enter_ne_refused n _ _) r
  | none =>
    cases hrun : s.run with
    | dead => exact (hdead hrun).elim
    | halted => simp [step_of_halted hrun hirq]
    | running =>
      rw [step_of_running hrun hirq]
      exact closeStep_ne_refused (fetchExecute_ne_refused _) r

/-! ### The instructions a fault of an access stops -/

section
variable {s : State} {f : Fault} {a v : Word}

/-- A fault of the operand's read stops an instruction of the template of R140. -/
theorem effect_of_sourceFault {i : Instr} {op : Word → Word → Byte → Word × Byte} {rd : BitVec 8}
    (he : effect i s = arith op rd (.addr a) s) (hrd : rd.toNat < 32) (h : memRead s a = .error (.fault f)) :
    effect i s = .error (.fault f) := by
  rw [he, arith, gpr_of_eq (d := ⟨rd.toNat, hrd⟩) rfl, act_ok_bind, sourceValue, h, act_error_bind]

/-- The instructions that read memory stop where their read does. -/
theorem exec_of_readFault (h : memRead s a = .error (.fault f)) :
    (∀ (rd : BitVec 8) (ea : Target), rd.toNat < 32 → targetValue s ea = .ok a → exec (.ldr rd ea) s = .fault f) ∧
      (∀ rd : BitVec 8, rd.toNat < 32 →
        ∀ i ∈ [Instr.add rd (.addr a), .sub rd (.addr a), .mul rd (.addr a), .div rd (.addr a), .and rd (.addr a),
            .or rd (.addr a), .xor rd (.addr a), .lsl rd (.addr a), .lsr rd (.addr a), .cmp rd (.addr a),
            .mov rd (.addr a)],
          exec i s = .fault f) ∧
      (a = s.s0 → exec .ret s = .fault f ∧ ∀ rs : Word, rs.toNat < 32 → exec (.pop rs) s = .fault f) ∧
      (a = s.s1 → s.mode = .supervisor →
        exec .kret s = .fault f ∧ ∀ rs : Word, rs.toNat < 32 → exec (.kpop rs) s = .fault f) := by
  have popped {p : StackPtr} {rs : Word} (hp : memRead s (s.sp p) = .error (.fault f)) (hrs : rs.toNat < 32) :
      popOn p rs s = .error (.fault f) := by
    rw [popOn_of_register (d := ⟨rs.toNat, hrs⟩) rfl, pop_of_stop hp, act_error_bind]
  refine ⟨fun rd ea hrd hea => ?_, fun rd hrd i hi => ?_, fun ha => ?_, fun ha hm => ?_⟩
  · apply exec_of_fault
    rw [effect_ldr_of_address (d := ⟨rd.toNat, hrd⟩) rfl hea, h, act_error_bind]
  · apply exec_of_fault
    simp only [List.mem_cons, List.not_mem_nil, or_false] at hi
    rcases hi with rfl | rfl | rfl | rfl | rfl | rfl | rfl | rfl | rfl | rfl | rfl
    · exact effect_of_sourceFault (op := addOp) rfl hrd h
    · exact effect_of_sourceFault (op := subOp) rfl hrd h
    · exact effect_of_sourceFault (op := mulOp) rfl hrd h
    · exact effect_of_sourceFault (op := divOp) rfl hrd h
    · exact effect_of_sourceFault (op := andOp) rfl hrd h
    · exact effect_of_sourceFault (op := orOp) rfl hrd h
    · exact effect_of_sourceFault (op := xorOp) rfl hrd h
    · exact effect_of_sourceFault (op := lslOp) rfl hrd h
    · exact effect_of_sourceFault (op := lsrOp) rfl hrd h
    · rw [effect, compare, gpr_of_eq (d := ⟨rd.toNat, hrd⟩) rfl, act_ok_bind, sourceValue, h, act_error_bind]
    · exact effect_of_sourceFault (op := movOp) rfl hrd h
  · subst ha
    exact ⟨exec_of_fault (returnOn_of_stop (p := .user) h), fun rs hrs => exec_of_fault (popped (p := .user) h hrs)⟩
  · subst ha
    refine ⟨exec_of_fault ((effect_kret_of_supervisor hm).trans (returnOn_of_stop (p := .kernel) h)), fun rs hrs => ?_⟩
    exact exec_of_fault ((effect_of_supervisor (i := .kpop rs) rfl hm).trans (popped (p := .kernel) h hrs))

/-- The instructions that write memory stop where their write does. -/
theorem exec_of_writeFault (h : memWrite s a v = .error (.fault f)) :
    (∀ (rd : BitVec 8) (d : Fin 32) (ea : Target), rd.toNat = d.val → v = s.reg d → targetValue s ea = .ok a →
        exec (.str rd ea) s = .fault f) ∧
      (a = pushAddr s .user →
        (∀ (tgt : Target) (t : Word), targetValue s tgt = .ok t → v = s.i0 → exec (.call tgt) s = .fault f) ∧
          ∀ src : RegImm, regImmValue s src = .ok v → exec (.push src) s = .fault f) ∧
      (a = pushAddr s .kernel → s.mode = .supervisor →
        (∀ (tgt : Target) (t : Word), targetValue s tgt = .ok t → v = s.i0 → exec (.kcall tgt) s = .fault f) ∧
          ∀ src : RegImm, regImmValue s src = .ok v → exec (.kpush src) s = .fault f) := by
  have pushed {p : StackPtr} {src : RegImm} (hp : memWrite s (pushAddr s p) v = .error (.fault f))
      (hv : regImmValue s src = .ok v) : pushOn p src s = .error (.fault f) := by
    rw [pushOn_of_value hv, push_of_stop hp]
  refine ⟨fun rd d ea hd hv hea => ?_, fun ha => ⟨fun tgt t ht hv => ?_, fun src hsrc => ?_⟩,
    fun ha hm => ⟨fun tgt t ht hv => ?_, fun src hsrc => ?_⟩⟩
  · subst hv
    exact exec_of_fault ((effect_str_of_address hd hea).trans h)
  · subst ha hv
    exact exec_of_fault (callOn_of_stop (p := .user) ht h)
  · subst ha
    exact exec_of_fault (pushed (p := .user) h hsrc)
  · subst ha hv
    exact exec_of_fault ((effect_of_supervisor (i := .kcall tgt) rfl hm).trans (callOn_of_stop ht h))
  · subst ha
    exact exec_of_fault ((effect_of_supervisor (i := .kpush src) rfl hm).trans (pushed h hsrc))

end

/-- Settles O28: a stop of a walk or of a byte ends the access, a stop of the access ends the instruction, and a stop of the
fetch ends the step. -/
theorem accessesToNothingStop : Obligations.AccessesToNothingStop := by
  intro s
  refine ⟨fun kind la k n => translateFrom_of_stop, fun la v => ⟨fun h => memRead_of_stop (readBytes_of_stop h),
    memWrite_of_stop, fun h => memFetch_of_stop (readBytes_of_stop h), fun ws habsent => ⟨fun hws => ?_, fun hws => ?_,
    fun hws => ?_⟩⟩, fun f a => exec_of_readFault, fun f a v => exec_of_writeFault, fun f hrun hirq hfetch => ?_,
    step_ne_refused s⟩
  · exact memRead_of_stop (readBytes_absent hws habsent)
  · exact memWrite_absent hws habsent
  · exact memFetch_of_stop (readBytes_absent hws habsent)
  · rw [step_of_fetchStop hrun hirq hfetch, finish, closeStep]

end Machine

end Sys2Proof
end

section
/-! SUPPORT. The statements about accesses that complete (spec/20_memory.md R72 to R76, R85) and the stack discipline
(spec/44_stack.md R210): what a read, a write and a fetch give along their walks, the marks in the entries used, and that a pop
undoes a push. -/

namespace Sys2Proof.Machine

/-! ### An access along its walks -/

/-- The walks of consecutive bytes, each on its own, are the walks of the access (R72, R76). -/
theorem translateFrom_of_translates {s : State} {kind : AccessKind} {la : Word} {ws : List Walk}
    (h : ∀ (k : Nat) (w : Walk), ws[k]? = some w → translate s kind (la + BitVec.ofNat 32 k) = .ok w) :
    translateFrom s kind la ws.length = .ok ws := by
  induction ws generalizing la with
  | nil => rfl
  | cons w ws ih =>
    have hla : translate s kind la = .ok w := by simpa using h 0 w rfl
    have hrest : translateFrom s kind (la + 1#32) ws.length = .ok ws := ih fun k x hx => by
      rw [add_one_add_ofNat]
      exact h (k + 1) x hx
    rw [List.length_cons, translateFrom, hla, act_ok_bind, hrest, act_ok_bind]

/-- The walks of four consecutive bytes. -/
theorem translateFrom_four {s : State} {kind : AccessKind} {la : Word} {w0 w1 w2 w3 : Walk}
    (h0 : translate s kind la = .ok w0) (h1 : translate s kind (la + 1#32) = .ok w1)
    (h2 : translate s kind (la + 2#32) = .ok w2) (h3 : translate s kind (la + 3#32) = .ok w3) :
    translateFrom s kind la 4 = .ok [w0, w1, w2, w3] := by
  refine translateFrom_of_translates (ws := [w0, w1, w2, w3]) fun k w hk => ?_
  match k, hk with
  | 0, hk =>
    cases hk
    simpa using h0
  | 1, hk =>
    cases hk
    exact h1
  | 2, hk =>
    cases hk
    exact h2
  | 3, hk =>
    cases hk
    exact h3

/-- An access to memory through tables in memory tells the platform nothing. -/
theorem AccessFrame.silent {ws : List Walk} {stored : List Nat} {s u : State} (h : AccessFrame ws stored s u)
    (htables : TablesInMemory s.plat ws) (hram : ∀ w ∈ ws, regionOf s.plat w.pa = .ram) :
    u.plat.ioLog = s.plat.ioLog := by
  obtain ⟨-, -, m, hm, -, hlog⟩ := h
  rw [hlog fun w hw => by simp [hram w hw], hm.ioLog htables]

/-- A read that is made is made along its own walks. -/
theorem readBytes_of_walks {s : State} {kind : AccessKind} {la : Word} {n : Nat} {ws : List Walk}
    {r : List Byte × State} (hws : translateFrom s kind la n = .ok ws) (h : readBytes s kind la n = .ok r) :
    ∃ m, Marked ws s m ∧ Transfers ws m r.1 r.2 := by
  obtain ⟨ws', m, hws', hm, ht, -⟩ := readBytes_spec h
  rw [hws] at hws'
  cases hws'
  exact ⟨m, hm, ht⟩

/-- A fetch changes nothing but the marks in the table entries of its own translation (R74). -/
theorem memFetch_of_walks {s u : State} {la : Word} {w : InstrWord} {ws : List Walk}
    (hws : translateFrom s .fetch la 8 = .ok ws) (h : memFetch s la = .ok (w, u)) : AccessFrame ws [] s u := by
  obtain ⟨ws', hws', hframe, -⟩ := memFetch_frame h
  rw [hws] at hws'
  cases hws'
  exact hframe

/-- Bytes transferred out of memory are the ones that stand there afterwards. -/
theorem Transfers.bytes_after {ws : List Walk} {s m u : State} {bs : List Byte} (h : Transfers ws m bs u)
    (hm : Marked ws s m) (hram : ∀ w ∈ ws, regionOf s.plat w.pa = .ram) : bs = (walkBytes ws).map u.mem.read := by
  obtain ⟨-, hmem⟩ := h.onlyMemory
  rw [hmem]
  exact h.bytes_ram fun w hw => (regionOf_congr hm.1.2 w.pa).trans (hram w hw)

section
variable {s : State} {la : Word} {ws : List Walk}

/-- A data read whose bytes are present completes, with the word they gave (R72). -/
theorem memRead_completes (hws : translateFrom s .read la 4 = .ok ws) (hp : ∀ w ∈ ws, regionOf s.plat w.pa ≠ .absent) :
    ∃ (bs : List Byte) (m u : State), memRead s la = .ok (wordOfBytes bs, u) ∧ Marked ws s m ∧ Transfers ws m bs u := by
  obtain ⟨r, hr⟩ := readBytes_present hws hp
  obtain ⟨m, hm, ht⟩ := readBytes_of_walks hws hr
  exact ⟨r.1, m, r.2, by rw [memRead, hr, act_ok_bind], hm, ht⟩

/-- A fetch whose bytes are present completes, with the instruction word they gave (R74). -/
theorem memFetch_completes (hws : translateFrom s .fetch la 8 = .ok ws)
    (hp : ∀ w ∈ ws, regionOf s.plat w.pa ≠ .absent) :
    ∃ (bs : List Byte) (m u : State), memFetch s la = .ok (instrOfBytes bs, u) ∧ Marked ws s m ∧
      Transfers ws m bs u := by
  obtain ⟨r, hr⟩ := readBytes_present hws hp
  obtain ⟨m, hm, ht⟩ := readBytes_of_walks hws hr
  exact ⟨r.1, m, r.2, by rw [memFetch, hr, act_ok_bind], hm, ht⟩

/-- A data write whose bytes are present completes, each of them stored from the marked state (R73). -/
theorem memWrite_completes (v : Word) (hws : translateFrom s .write la 4 = .ok ws)
    (hp : ∀ w ∈ ws, regionOf s.plat w.pa ≠ .absent) :
    ∃ m u : State, memWrite s la v = .ok u ∧ Marked ws s m ∧ Stores ws m (wordBytes v) u ∧
      (s.mem.wf = true → m.mem.wf = true) := by
  obtain ⟨u, hu⟩ := memWrite_present (v := v) hws hp
  obtain ⟨ws', m, hws', hm, hs, hwf, -⟩ := memWrite_spec hu
  rw [hws] at hws'
  cases hws'
  exact ⟨m, u, hu, hm, hs, hwf⟩

end

/-- Settles O29: the access's own walks are the walks of its bytes, and it completes along them. -/
theorem mappedAccessesComplete : Obligations.MappedAccessesComplete := by
  intro s
  dsimp only
  refine ⟨fun la v w0 w1 w2 w3 hp => ⟨fun h0 h1 h2 h3 => ?_, fun h0 h1 h2 h3 => ?_⟩, fun la ws hlen hp h => ?_⟩
  · have hws := translateFrom_four h0 h1 h2 h3
    obtain ⟨bs, m, u, hr, hm, ht⟩ := memRead_completes hws hp
    obtain ⟨hframe, hword⟩ := memRead_of_walks hws hr
    exact ⟨hws, bs, m, u, hr, hm, ht, hframe, hword, hframe.silent⟩
  · have hws := translateFrom_four h0 h1 h2 h3
    obtain ⟨m, u, hw, hm, hs, hwf⟩ := memWrite_completes v hws hp
    obtain ⟨hframe, hword⟩ := memWrite_of_walks hws hw
    exact ⟨hws, m, u, hw, hm, hs, hwf, hframe, hword, hframe.silent⟩
  · have hws : translateFrom s .fetch la 8 = .ok ws := hlen ▸ translateFrom_of_translates h
    obtain ⟨bs, m, u, hf, hm, ht⟩ := memFetch_completes hws hp
    have hframe := memFetch_of_walks hws hf
    refine ⟨hws, bs, m, u, hf, hm, ht, hframe, ht.bytes_after hm, fun k b hk => ?_, hframe.silent⟩
    have hlt : k < bs.length := (List.getElem?_eq_some_iff.1 hk).1
    exact extract_instrOfBytes (by rw [ht.1, hlen] at hlt; exact hlt) hk

/-! ### The marks of an access -/

/-- What an access that left its frame holds in an entry it used, where nothing else overlaps the entry (R85). -/
theorem AccessFrame.entry {s t : State} {kind : AccessKind} {la : Word} {n : Nat} {ws : List Walk} {stored : List Nat}
    {e : EntryUse} (hframe : AccessFrame ws stored s t) (hws : translateFrom s kind la n = .ok ws)
    (hwf : s.mem.wf = true) (he : e ∈ usedEntries ws) (hram : entryRegion s.plat e.ptea = .ram)
    (hother : ∀ x ∈ usedEntries ws, x.ptea = e.ptea ∨ ∀ a ∈ wordAddrs e.ptea, a ∉ wordAddrs x.ptea)
    (hstored : ∀ a ∈ wordAddrs e.ptea, a ∉ stored) :
    e.pte = s.mem.readWord e.ptea ∧ MarkedValue e.pte (t.mem.readWord e.ptea) := by
  obtain ⟨-, -, m, hm, hkept, -⟩ := hframe
  refine ⟨by rw [translateFrom_entry hws he, physWord_ram hram], ?_⟩
  rw [Memory.readWord_congr fun a ha => hkept a (hstored a ha)]
  exact hm.readWord hws he hwf hram hother

/-- What a translation that succeeds found: both entries, no fault in the second, and the frame joined to the offset. -/
theorem translate_eq_ok {s : State} {kind : AccessKind} {la : Word} {w : Walk} :
    translate s kind la = .ok w ↔
      ∃ pde pte, readEntry s (s.tpdr + 4#32 * (directoryIndex la).setWidth 32) = .ok pde ∧
        readEntry s (pde + 4#32 * (tableIndex la).setWidth 32) = .ok pte ∧ entryFault s.mode kind pte = none ∧
        w = { pa := pte.extractLsb' 12 20 ++ pageOffset la
              entry := some { pdea := s.tpdr + 4#32 * (directoryIndex la).setWidth 32
                              ptea := pde + 4#32 * (tableIndex la).setWidth 32, pte := pte } } := by
  simp only [translate, pagingActive, Config.pagingAlways, if_true, act_bind_eq_ok]
  constructor
  · rintro ⟨pde, hpde, pte, hpte, h⟩
    split at h
    · cases h
    · rename_i hfault
      cases h
      exact ⟨pde, pte, hpde, hpte, hfault, rfl⟩
  · rintro ⟨pde, pte, hpde, hpte, hfault, rfl⟩
    exact ⟨pde, hpde, pte, hpte, by rw [hfault]⟩

/-- A few bytes on, within the page, the walk is the same but for the offset (R80, R81). -/
theorem translate_add {s : State} {kind : AccessKind} {la pa : Word} {e : EntryUse} {k : Nat}
    (h : translate s kind la = .ok { pa := pa, entry := some e }) (hk : (la &&& 0xFFF#32).toNat + k < 0x1000) :
    translate s kind (la + BitVec.ofNat 32 k) = .ok { pa := pa + BitVec.ofNat 32 k, entry := some e } := by
  have hlt := la.isLt
  have hoffset : (la &&& 0xFFF#32).toNat = la.toNat % 0x1000 := by
    rw [BitVec.toNat_and, show (0xFFF#32).toNat = 2 ^ 12 - 1 from rfl, Nat.and_two_pow_sub_one_eq_mod]
  rw [hoffset] at hk
  have hsum : (la + BitVec.ofNat 32 k).toNat = la.toNat + k := by
    rw [BitVec.toNat_add, BitVec.toNat_ofNat]
    omega
  have hdir : directoryIndex (la + BitVec.ofNat 32 k) = directoryIndex la := by
    apply BitVec.eq_of_toNat_eq
    rw [directoryIndex, directoryIndex, BitVec.extractLsb'_toNat, BitVec.extractLsb'_toNat, hsum,
      Nat.shiftRight_eq_div_pow, Nat.shiftRight_eq_div_pow]
    omega
  have htable : tableIndex (la + BitVec.ofNat 32 k) = tableIndex la := by
    apply BitVec.eq_of_toNat_eq
    rw [tableIndex, tableIndex, BitVec.extractLsb'_toNat, BitVec.extractLsb'_toNat, hsum,
      Nat.shiftRight_eq_div_pow, Nat.shiftRight_eq_div_pow]
    omega
  obtain ⟨pde, pte, hpde, hpte, hfault, hw⟩ := translate_eq_ok.1 h
  cases hw
  refine translate_eq_ok.2 ⟨pde, pte, by rw [hdir]; exact hpde, by rw [htable]; exact hpte, hfault, ?_⟩
  have hjoin (v : Word) : (pte.extractLsb' 12 20 ++ pageOffset v).toNat =
      (pte.extractLsb' 12 20).toNat * 0x1000 + v.toNat % 0x1000 := by
    have hlow : (pageOffset v).toNat < 2 ^ 12 := (pageOffset v).isLt
    have hoff : (pageOffset v).toNat = v.toNat % 0x1000 := by
      rw [pageOffset, BitVec.extractLsb'_toNat, Nat.shiftRight_zero]
    rw [BitVec.toNat_append, ← Nat.shiftLeft_add_eq_or_of_lt hlow, Nat.shiftLeft_eq, hoff]
  have hframe := (pte.extractLsb' 12 20).isLt
  have hpa : pte.extractLsb' 12 20 ++ pageOffset la + BitVec.ofNat 32 k =
      pte.extractLsb' 12 20 ++ pageOffset (la + BitVec.ofNat 32 k) := by
    apply BitVec.eq_of_toNat_eq
    rw [BitVec.toNat_add, hjoin, hjoin, hsum, BitVec.toNat_ofNat]
    omega
  rw [hdir, htable, hpa]

/-- Marking one entry that stands in memory writes one marked value there (R85). -/
theorem markUsed_mem_of_single {s : State} {ws : List Walk} {e : EntryUse} (hused : usedEntries ws = [e])
    (hram : entryRegion s.plat e.ptea = .ram) :
    (markUsed ws s).mem = s.mem.writeWord e.ptea (usedEntry s.plat e.ptea e.pte) := by
  have hwrite := physWrite32_ram (s := s.tell (tableReads s [e])) (usedEntry s.plat e.ptea e.pte) hram
  simp only [markUsed, Config.setABit, if_true, hused, markEntries, hwrite]
  rfl

/-- A data read within one page of memory marks one entry and reads the word from the memory so marked (R72, R85). -/
theorem memRead_in_page {s : State} {la pa : Word} {e : EntryUse}
    (h : translate s .read la = .ok { pa := pa, entry := some e }) (hpage : (la &&& 0xFFF#32).toNat ≤ 0xFFC)
    (hpa : entryRegion s.plat pa = .ram) (hptea : entryRegion s.plat e.ptea = .ram) :
    ∃ (v : Word) (q : Platform), MarkedValue e.pte v ∧ SamePlatformMap s.plat q ∧
      memRead s la =
        .ok ((s.mem.writeWord e.ptea v).readWord pa, { s with mem := s.mem.writeWord e.ptea v, plat := q }) := by
  have hws := translateFrom_four h (translate_add (k := 1) h (by omega)) (translate_add (k := 2) h (by omega))
    (translate_add (k := 3) h (by omega))
  obtain ⟨⟨⟨hstate, hplat⟩, -⟩, -⟩ := markUsed_spec [⟨pa, some e⟩, ⟨pa + 1#32, some e⟩, ⟨pa + 2#32, some e⟩,
    ⟨pa + 3#32, some e⟩] s
  obtain ⟨r0, r1, r2, r3⟩ := entryRegion_eq_ram hpa
  have hread := readWalks_ram (ws := [⟨pa, some e⟩, ⟨pa + 1#32, some e⟩, ⟨pa + 2#32, some e⟩, ⟨pa + 3#32, some e⟩])
    (s := markUsed _ s) fun w hw => by
      rw [regionOf_congr hplat]
      simp only [List.mem_cons, List.not_mem_nil, or_false] at hw
      rcases hw with rfl | rfl | rfl | rfl
      exacts [r0, r1, r2, r3]
  have hmem := markUsed_mem_of_single (s := s) (ws := [⟨pa, some e⟩, ⟨pa + 1#32, some e⟩, ⟨pa + 2#32, some e⟩,
    ⟨pa + 3#32, some e⟩]) (e := e) (by simp [usedEntries]) hptea
  refine ⟨_, _, usedEntry_marked s.plat e.ptea e.pte, hplat, ?_⟩
  have hnext : pa + 1#32 + 1#32 = pa + 2#32 := by rw [BitVec.add_assoc]; rfl
  have hlast : pa + 2#32 + 1#32 = pa + 3#32 := by rw [BitVec.add_assoc]; rfl
  rw [hmem] at hstate hread
  rw [memRead, readBytes, hws, act_ok_bind, hread, act_ok_bind, hstate]
  simp only [Memory.readWord, Memory.readFrom, hnext, hlast, List.map_cons, List.map_nil]

/-- Settles O30: one entry marked within a page, and every access's frame and the entries it leaves. -/
theorem accessesMarkTheirEntries : Obligations.AccessesMarkTheirEntries := by
  refine ⟨fun s la pa pdea ptea pte hwf h => memRead_in_page h, fun s t la ws stored h => ?_⟩
  have haccess : AccessFrame ws stored s t ∧ ∃ kind n, translateFrom s kind la n = .ok ws := by
    rcases h with ⟨v, hws, hr, rfl⟩ | ⟨w, hws, hf, rfl⟩ | ⟨v, hws, hw, rfl⟩
    · exact ⟨(memRead_of_walks hws hr).1, _, _, hws⟩
    · exact ⟨memFetch_of_walks hws hf, _, _, hws⟩
    · exact ⟨(memWrite_of_walks hws hw).1, _, _, hws⟩
  obtain ⟨hframe, kind, n, hws⟩ := haccess
  exact ⟨hframe, fun hwf e he => hframe.entry hws hwf he⟩

/-! ### The stack discipline -/

/-- Both stacks grow down where G is set (R210, log 5). -/
theorem growsDown_eq (s : State) (p : StackPtr) : growsDown s p = s.fr.getLsbD 6 := by cases p <;> rfl

@[simp] theorem State.sp_setSp (s : State) (p : StackPtr) (v : Word) : (s.setSp p v).sp p = v := by cases p <;> rfl

/-- A push leaves its pointer at the element, and a pop from there would move it back (R210). -/
theorem push_pointer {s t : State} {p : StackPtr} {v : Word} (h : push s p v = .ok t) :
    t.sp p = pushAddr s p ∧ popNext t p = s.sp p := by
  obtain ⟨ht, -⟩ := push_frame h
  have hsp : t.sp p = pushAddr s p := by rw [ht, State.sp_setSp]
  have hg : growsDown t p = growsDown s p := by
    rw [growsDown_eq, growsDown_eq, ht]
    cases p <;> rfl
  refine ⟨hsp, ?_⟩
  rw [popNext, hg, hsp, pushAddr]
  split
  · exact BitVec.sub_add_cancel _ _
  · exact BitVec.add_sub_cancel _ _

/-- Reading back the bytes a write stored, through walks whose marks touch none of them, gives the word written (R72, R73). -/
theorem memRead_of_stored {t : State} {la v : Word} {ws : List Walk} (hws : translateFrom t .read la 4 = .ok ws)
    (hram : ∀ w ∈ ws, regionOf t.plat w.pa = .ram) (hstored : (walkBytes ws).map t.mem.read = wordBytes v)
    (hmarks : ∀ a ∈ walkBytes ws, a ∉ entryBytes ws) : ∃ u, memRead t la = .ok (v, u) := by
  obtain ⟨bs, m, u, hr, -, -⟩ := memRead_completes hws fun w hw => by simp [hram w hw]
  obtain ⟨⟨⟨-, hplat⟩, hkept, -⟩, hword⟩ := memRead_of_walks hws hr
  have hsame : (walkBytes ws).map u.mem.read = (walkBytes ws).map t.mem.read :=
    List.map_congr_left fun a ha => hkept a List.not_mem_nil (hmarks a ha)
  have hv : wordOfBytes bs = v := by
    rw [hword fun w hw => (regionOf_congr hplat w.pa).trans (hram w hw), hsame, hstored, wordOfBytes_wordBytes]
  exact ⟨u, hv ▸ hr⟩

/-- A pop right after a push gives the value pushed and moves the pointer back (R210). -/
theorem pop_of_push {s t : State} {p : StackPtr} {v : Word} {ws ws' : List Walk} (h : push s p v = .ok t)
    (hwf : s.mem.wf = true) (hws : translateFrom s .write (pushAddr s p) 4 = .ok ws)
    (hram : ∀ w ∈ ws, regionOf s.plat w.pa = .ram) (hws' : translateFrom t .read (pushAddr s p) 4 = .ok ws')
    (hsame : walkBytes ws' = walkBytes ws) (hmarks : ∀ a ∈ walkBytes ws', a ∉ entryBytes ws') :
    ∃ u, pop t p = .ok (v, u) ∧ u.sp p = s.sp p := by
  obtain ⟨hsp, hnext⟩ := push_pointer h
  obtain ⟨-, -, hplat⟩ := push_frame h
  have hstored : (walkBytes ws').map t.mem.read = wordBytes v := by
    obtain ⟨x, hx, rfl⟩ := push_spec h
    rw [hsame, ← (memWrite_of_walks hws hx).2 hwf hram]
    cases p <;> rfl
  have hram' : ∀ w ∈ ws', regionOf t.plat w.pa = .ram := by
    intro w hw
    have hbyte : w.pa.toNat ∈ walkBytes ws := hsame ▸ List.mem_map_of_mem hw
    obtain ⟨x, hx, hpa⟩ := List.mem_map.1 hbyte
    rw [regionOf_congr hplat, ← BitVec.eq_of_toNat_eq hpa]
    exact hram x hx
  obtain ⟨u, hu⟩ := memRead_of_stored hws' hram' hstored hmarks
  rw [← hsp] at hu
  exact ⟨_, pop_of_read hu, by rw [State.sp_setSp, hnext]⟩

/-- Settles O53: the direction of each move is G, and a pop undoes a push. -/
theorem stackMovesByGrowthFlag : Obligations.StackMovesByGrowthFlag := by
  refine fun s => ⟨rfl, rfl, rfl, rfl, fun p v t h => ?_⟩
  obtain ⟨hsp, hnext⟩ := push_pointer h
  exact ⟨hsp, hnext, fun ws ws' hwf hws hram hws' hsame hmarks => pop_of_push h hwf hws hram hws' hsame hmarks⟩

end Sys2Proof.Machine
end
